-- ==== Sys2Proof/Syntax.lean ====
section
/-! DEFINITION. The command set: the five functions "Exposed by this core" (`30_encoding.md` rule R90). -/

namespace Sys2Proof

/-- The five commands. None has an operand field: every operand is in an operand register or a buffer
(`30_encoding.md` rules R91 and R92). -/
inductive Instr where
  /-- `base32Encode` (rule R130). -/
  | b32enc
  /-- `base32Decode` (rule R170). -/
  | b32dec
  /-- `computeTotp` (rule R230). -/
  | totp
  /-- `hmacSha1` (rule R200). -/
  | hmac
  /-- `generateRandomSecret` (rule R270). -/
  | gensec
  deriving DecidableEq, Repr

end Sys2Proof
end

