-- ==== Sys2Proof/Word.lean ====
section
/-! DEFINITION. The widths of the hardware's values (`10_state.md` rule R20). -/

namespace Sys2Proof

/-- A byte (octet), or a character of Base32 text: one ASCII code (`00_scope.md` rule R7). -/
abbrev Byte := BitVec 8

/-- The width of `LEN`, `CAP`, `KEYLEN`, `DIGITS`, `RESULT`, `ACC`, `IIDX` and `OCNT` (rule R20). -/
abbrev Word := BitVec 32

/-- The width of `TIME`, `TSTEP` and the counter (rules R28 and R98). -/
abbrev DWord := BitVec 64

/-- What the hash primitive returns and what `IDIG`, `DIGEST` and `DIG` hold: 20 bytes, index 0 first
(rules R9, R36 and R66). -/
abbrev Digest := Vector Byte 20

/-- One answer of the random port: `none` is failure, `some r` is success with 20 bytes
(rules R9 and R74). -/
abbrev Draw := Option (Vector Byte 20)

end Sys2Proof
end

