-- ==== Sys2Proof/WellFormed.lean ====
section
/-! DEFINITION. Which commands and which command words are well formed. -/

namespace Sys2Proof

/-- A command has no operand field that could be out of range (`30_encoding.md` rule R91), so each of the
five is well formed. -/
def Instr.wf : Instr → Bool
  | .b32enc => true
  | .b32dec => true
  | .totp => true
  | .hmac => true
  | .gensec => true

/-- A command word is well formed when it is one of the five codes; 0x00 and 0x06 to 0xFF are reserved
(`30_encoding.md` rule R93). -/
def commandWordWf (op : Byte) : Bool :=
  1 ≤ op.toNat && op.toNat ≤ 5

end Sys2Proof
end

