-- ==== Sys2Proof/Decode.lean ====
section
/-! DEFINITION. The decoder of the command word, and after it the encoder (`30_encoding.md` rules R91, R93, R107). -/

namespace Sys2Proof

/-- What the decoder makes of the bytes written to `CMD`. -/
inductive Decoded where
  /-- The first byte is a command's code; `rest` is what follows it. -/
  | command (i : Instr) (rest : List Byte)
  /-- The first byte is a reserved code (rule R93): no command. -/
  | reservedCode (op : Byte)
  /-- There is no byte at all. -/
  | noWord
  deriving DecidableEq, Repr

/-- The opcode table of rule R91: code and command. -/
def opcodeTable : List (Byte × Instr) :=
  [ (0x01#8, .b32enc)
  , (0x02#8, .b32dec)
  , (0x03#8, .totp)
  , (0x04#8, .hmac)
  , (0x05#8, .gensec) ]

/-- The command whose code in a table is `op`: all eight bits of the word are the opcode. -/
def lookupOpcode (op : Byte) : List (Byte × Instr) → Option Instr
  | [] => none
  | row :: rows => if row.1 = op then some row.2 else lookupOpcode op rows

/-- The decoder: every command is one 8-bit word (rule R107). -/
def decode : List Byte → Decoded
  | [] => .noWord
  | op :: rest =>
    match lookupOpcode op opcodeTable with
    | some i => .command i rest
    | none => .reservedCode op

/-- The code of a command, from the table of rule R91. -/
def encode : Instr → Byte
  | .b32enc => 0x01#8
  | .b32dec => 0x02#8
  | .totp => 0x03#8
  | .hmac => 0x04#8
  | .gensec => 0x05#8

/-- The command word whose bits are `w`, of which the table gives `nbits`: the bits above are 0. -/
def tableByte (nbits w : Nat) : Byte :=
  BitVec.ofNat 8 (w % 2 ^ nbits)

/-- The instruction this decoder reads from a word numbered as `spec/opcode_table.json` numbers it. -/
def decodeTableWord (nbits w : Nat) : Option Instr :=
  match decode [tableByte nbits w] with
  | .command i _ => some i
  | .reservedCode _ => none
  | .noWord => none

end Sys2Proof
end

