-- ==== Sys2Proof/Config.lean ====
section
/-! DEFINITION. What is a parameter of the model and not state (`10_state.md` rule R44), and the free values:
what the spec calls unspecified, "any value" or a draw has no body here, so that no proof can see it. -/

namespace Sys2Proof

/-- `LENMAX`, the largest `LEN`, `CAP` or `KEYLEN` a command that reads it accepts: 2^31 - 1
(`00_scope.md` rule R6 parameter P15, decision D6). -/
def Config.lenMax : Nat := 2147483647

/-- The hash primitive `H`: a total function from byte sequences to 20 bytes, without side effects
(rule R9, item U11: a parameter of the model). No body: nothing is assumed of it. -/
opaque Config.hash : List Byte → Digest

/-- The random source: the answer of call number `n` of the random port (rule R9, item U10: a draw).
No body: a statement about a draw holds for failure and for every 20 bytes. -/
opaque Config.rand : Nat → Draw

/-- The item whose content became unspecified. -/
inductive FreeSite where
  | cmd | len | cap | keyLen | time | tStep | digits | result | err
  | dig (i : Nat)
  | obuf (i : Nat)
  | acc | pend | iidx | ocnt | esel | hsel
  | ctr (i : Nat)
  | kblk (i : Nat)
  | ipad (i : Nat)
  | opad (i : Nat)
  | idig (i : Nat)
  | digest (i : Nat)
  | off | tv
  | rnd (i : Nat)
  deriving DecidableEq, Repr

/-- The value of width `w` that the item `site` holds after its content became unspecified for the `n`-th time
(items U5, U9 and U16: "any value"). No body: a free value. -/
opaque Config.freeValue (w : Nat) (site : FreeSite) (n : Nat) : BitVec w

/-- `BufferBinding` (rules R6 parameter P20 and R70): the three buffers are byte spaces of their own, or they
are regions of one memory that begin at the addresses named. -/
inductive BufferBinding where
  | separate
  | mapped (ibufAt kbufAt obufAt : Nat)
  deriving DecidableEq, Repr

/-- The parameters a command takes: the hash primitive, the answers of the random port, the binding. -/
structure Env where
  hash : List Byte → Digest
  rand : Nat → Draw
  binding : BufferBinding

/-- The binding in use: three disjoint spaces, the spec's default (decision D11). -/
def Config.binding : BufferBinding := .separate

/-- The parameters of the machine. -/
def Config.env : Env :=
  { hash := Config.hash, rand := Config.rand, binding := Config.binding }

end Sys2Proof
end

