-- ==== Sys2Proof/Machine/State.lean ====
section
/-! DEFINITION. The state of one CORE (`10_state.md` rule R20), the reasons a step can stop, and the state
after reset (rules R43 and R330). -/

namespace Sys2Proof.Machine

/-- The sequencer's phases (`10_state.md` rule R26). They take the place of a program counter. -/
inductive Phase where
  | idle
  | encCheck | encAbsorb | encDrain | encTail | encPad | encTerm
  | decInit | decScan | decEnd
  | hmCmd | hmNorm | hmPads | hmInner | hmOuter | hmDone
  | toCheck | toCtr | toTrunc
  | gsRand | gsCheck
  deriving DecidableEq, Repr

/-- The byte spaces an access can go to (`20_memory.md` rule R60); `rnd` is the encoder's input when
`ESEL = 1` (rule R45). -/
inductive Space where
  | ibuf | kbuf | obuf | dig | rnd
  deriving DecidableEq, Repr

/-- The three buffers (`10_state.md` rule R41). -/
inductive BufferId where
  | ibuf | kbuf | obuf
  deriving DecidableEq, Repr

/-- The length and capacity registers that `LENMAX` bounds (rule R27). -/
inductive LengthReg where
  | len | cap | keyLen
  deriving DecidableEq, Repr

/-- The host-visible registers but `CMD`, which is write-only (`10_state.md` rule R20). -/
inductive RegName where
  | len | cap | keyLen | time | tStep | digits | result | err | dig
  deriving DecidableEq, Repr

/-- The four error variants (`60_exceptions.md` rule R290). -/
inductive ErrorVariant where
  | invalidCharacter | bufferTooSmall | invalidDigitCount | randomSourceFailure
  deriving DecidableEq, Repr

/-- The three classes of the decoder's table `INV` (`30_encoding.md` rule R95). -/
inductive CharClass where
  | symbol (v : BitVec 5)
  | padding
  | invalid
  deriving DecidableEq, Repr

/-- Why the machine stops with a fault. Both are SAFE: the model stops, and no rule of the spec forms such an
access in the run of a started command (`20_memory.md` rule R62). -/
inductive Fault where
  /-- Raised by a phase rule or a host read that forms an access to a byte a space does not hold
  (rule R62: "A model should make an out-of-range access a fault"). Safe. -/
  | outOfRange (space : Space) (index : Nat)
  /-- Raised by `TO_TRUNC` when `DIGITS` indexes beyond `POW10[8]` ("There is no entry 9", rule R101; item U2).
  Safe. -/
  | noTableEntry (index : Nat)
  deriving DecidableEq, Repr

/-- Why the machine refuses. Each but the first is a situation to which the spec gives no meaning and asks the
model to give none (`60_exceptions.md` rule R303). All are SAFE. -/
inductive Refusal where
  /-- Raised by `exec` for an instruction that has no meaning yet (none is left). Safe. -/
  | notModelled (mnemonic : String)
  /-- Raised at the write of `CMD`, before the first phase, while `PHASE` is not `IDLE` (item U17). Safe. -/
  | commandInProgress
  /-- Raised at the write of `CMD` for a command that reads a length register above `LENMAX` (item U4). Safe. -/
  | lengthAboveMax (reg : LengthReg)
  /-- Raised at the write of `CMD` for `TOTP` with `TSTEP = 0`, and by `TO_CTR` (item U3, rule R232). Safe. -/
  | zeroTimeStep
  /-- Raised at the write of `CMD` for a command whose buffer regions overlap (item U6, rule R71). Safe. -/
  | overlappingBuffers
  /-- Raised at the write of a reserved code to `CMD` (item U7, rule R93). Safe. -/
  | reservedCommand (op : Byte)
  /-- Raised at the write of `CMD` for a command that may read a byte of `IBUF` or `KBUF` nothing has written since
  reset (rule R303, item U8), and by a host read of a byte of `OBUF` nothing has written. Safe. -/
  | unwrittenByte (buf : BufferId)
  /-- Raised at the write of `CMD` for a command that reads an operand register the host never wrote since reset
  (rule R43: "a command that would read it is refused, never given a zero"; rule R303, item U8). Safe. -/
  | unwrittenRegister (reg : RegName)
  deriving DecidableEq, Repr

/-- A byte space indexed from 0: (index, byte) pairs, indices strictly rising, one for each byte that has
been written. A byte that is not listed has no value (item U8). -/
abbrev Memory := List Host.Cell

/-- The state of class `core`: scratch, written before it is read by every command and unspecified between
commands (`10_state.md` rules R20 and R42). -/
structure Scratch where
  /-- `ACC`, the bit accumulator (rule R21). -/
  acc : Word
  /-- `PEND`, the pending-bit count (rule R22). -/
  pend : BitVec 5
  /-- `IIDX`, the index of the next input byte (rule R24). -/
  iidx : Word
  /-- `OCNT`, the number of bytes written to `OBUF` (rule R25). -/
  ocnt : Word
  /-- `ESEL`, the encoder's input selector (rule R45). -/
  esel : BitVec 1
  /-- `HSEL`, the HMAC message selector (rule R46). -/
  hsel : BitVec 1
  /-- `CTR[0..7]`, the counter, big-endian (rule R34). -/
  ctr : Vector Byte 8
  /-- `KBLK[0..63]`, the normalised key (rule R35). -/
  kblk : Vector Byte 64
  /-- `IPAD[0..63]`, the inner pad (rule R35). -/
  ipad : Vector Byte 64
  /-- `OPAD[0..63]`, the outer pad (rule R35). -/
  opad : Vector Byte 64
  /-- `IDIG[0..19]`, the inner hash (rule R36). -/
  idig : Digest
  /-- `DIGEST[0..19]`, the HMAC digest (rule R36). -/
  digest : Digest
  /-- `OFF`, the truncation offset (rule R37). -/
  off : BitVec 4
  /-- `TV`, the truncated value (rule R37). -/
  tv : BitVec 31
  /-- `RND[0..19]`, the drawn bytes (rule R38). -/
  rnd : Vector Byte 20
  deriving DecidableEq, Repr

/-- What has been given a value since reset: the operand registers by the host, `RESULT` and `ERR` together
(`outcome`) by a completion, `DIG` by an `HMAC`, and how many bytes of `IBUF` and of `KBUF`, from index 0 on as the
host fills them (`30_encoding.md` rule R106), by a load (`10_state.md` rule R43, item U8). -/
structure Given where
  len : Bool
  cap : Bool
  keyLen : Bool
  time : Bool
  tStep : Bool
  digits : Bool
  outcome : Bool
  dig : Bool
  ibuf : Nat
  kbuf : Nat
  deriving DecidableEq, Repr

/-- Right after reset nothing has been given a value (rule R43: "unspecified"; item U8: "since reset"). -/
def Given.nothing : Given :=
  { len := false, cap := false, keyLen := false, time := false, tStep := false, digits := false
    outcome := false, dig := false, ibuf := 0, kbuf := 0 }

/-- What the host can do: exactly the moves of `70_reset_and_hazards.md` rule R337, in the notation of
`30_encoding.md` rule R106. DEDUCED (log 22): no move reads `LEN`, `CAP`, `KEYLEN`, `TIME`, `TSTEP` or `DIGITS` back,
though rule R20 classes them "host, read-write". -/
inductive HostAction where
  /-- `WR LEN`. -/
  | writeLen (v : Word)
  /-- `WR CAP`. -/
  | writeCap (v : Word)
  /-- `WR KEYLEN`. -/
  | writeKeyLen (v : Word)
  /-- `WR TIME`. -/
  | writeTime (v : DWord)
  /-- `WR TSTEP`. -/
  | writeTStep (v : DWord)
  /-- `WR DIGITS`. -/
  | writeDigits (v : Word)
  /-- `LD`: fill a buffer from index 0. -/
  | load (buf : BufferId) (bytes : List Byte)
  /-- `CMD`: write the code to `CMD` and run the command to completion; atomic to the host (rule R78). -/
  | command (op : Byte)
  /-- The bare write of `CMD` (rule R91): `PHASE` becomes the command's first phase, and each step after it
  fires one phase rule. -/
  | start (op : Byte)
  /-- `RD RESULT`. -/
  | readResult
  /-- `RD ERR`. -/
  | readErr
  /-- `RDB OBUF, n`. -/
  | readObuf (n : Nat)
  /-- `RDB DIG, n`. -/
  | readDig (n : Nat)
  /-- Reset, asserted when `after` phase rules more have been fired, or in `IDLE` (rule R330: at any time). -/
  | reset (after : Nat)
  deriving DecidableEq, Repr

/-- What a read has reported to the host. `none` stands where nothing has given the register a value since reset: the
read is "given no value" (rule R43, item U8). -/
inductive Observation where
  | result (v : Option Word)
  | err (v : Option (BitVec 3))
  | obuf (bytes : List Byte)
  | dig (bytes : Option (List Byte))
  deriving DecidableEq, Repr

/-- The state of one CORE, and beside it the model's own fields: `draws`, `fresh`, `host`, `seen`. -/
structure State where
  /-- `CMD` (rule R30): the code last written. -/
  cmd : Byte
  /-- `LEN` (rule R27). -/
  len : Word
  /-- `CAP` (rule R27). -/
  cap : Word
  /-- `KEYLEN` (rule R27). -/
  keyLen : Word
  /-- `TIME` (rule R28). -/
  time : DWord
  /-- `TSTEP` (rule R28). -/
  tStep : DWord
  /-- `DIGITS` (rule R29). -/
  digits : Word
  /-- `RESULT` (rule R31). -/
  result : Word
  /-- `ERR` (rule R32). -/
  err : BitVec 3
  /-- `DIG[0..19]` (rule R39). -/
  dig : Digest
  /-- Which of the registers above and how much of `IBUF` and `KBUF` was given a value since reset (rule R43, item
  U8). -/
  given : Given
  /-- `IBUF` (rule R41). -/
  ibuf : Memory
  /-- `KBUF` (rule R41). -/
  kbuf : Memory
  /-- `OBUF` (rule R41). -/
  obuf : Memory
  /-- `PHASE` (rule R26). -/
  phase : Phase
  /-- The state of class `core`. -/
  scratch : Scratch
  /-- MODEL'S OWN: how many times the random port has been called; the next answer is
  `Config.rand draws`. -/
  draws : Nat
  /-- MODEL'S OWN: how many times items became unspecified; the next free values are
  `Config.freeValue w site fresh`. -/
  fresh : Nat
  /-- MODEL'S OWN: what the host will do, next action first (rule R106). -/
  host : List HostAction
  /-- MODEL'S OWN: what the host has read, oldest first. -/
  seen : List Observation
  deriving DecidableEq, Repr

/-- DESIGN CHOICE, unsafe (log 2): the scratch after reset. The spec gives no value; no command reads one. -/
def Scratch.reset : Scratch :=
  { acc := 0#32, pend := 0#5, iidx := 0#32, ocnt := 0#32, esel := 0#1, hsel := 0#1
    ctr := Vector.replicate 8 0#8, kblk := Vector.replicate 64 0#8
    ipad := Vector.replicate 64 0#8, opad := Vector.replicate 64 0#8
    idig := Vector.replicate 20 0#8, digest := Vector.replicate 20 0#8
    off := 0#4, tv := 0#31, rnd := Vector.replicate 20 0#8 }

/-- The machine right after reset: `PHASE = IDLE` (rules R43 and R330), no buffer byte written (log 3).
DESIGN CHOICE, unsafe (log 1): the registers, to which the spec gives no reset value, hold 0; none has been given
a value, so that no command and no host read takes that 0 (item U8). -/
def State.reset : State :=
  { cmd := 0#8, len := 0#32, cap := 0#32, keyLen := 0#32, time := 0#64, tStep := 0#64, digits := 0#32
    result := 0#32, err := 0#3, dig := Vector.replicate 20 0#8
    given := Given.nothing
    ibuf := [], kbuf := [], obuf := []
    phase := .idle, scratch := Scratch.reset
    draws := 0, fresh := 0, host := [], seen := [] }

end Sys2Proof.Machine
end

