-- ==== Sys2Proof/Machine/Flags.lean ====
section
/-! DEFINITION. The only status a command leaves: the pair `RESULT`, `ERR` (`10_state.md` rule R33). There are
no condition codes. -/

namespace Sys2Proof.Machine

/-- The `ERR` code of a variant (`30_encoding.md` rule R102). 0 is success; 5, 6 and 7 are never written. -/
def errorCode : ErrorVariant → BitVec 3
  | .invalidCharacter => 1#3
  | .bufferTooSmall => 2#3
  | .invalidDigitCount => 3#3
  | .randomSourceFailure => 4#3

/-- `ERR` after a success (rule R102). -/
def errorNone : BitVec 3 := 0#3

/-- The sentinel -1 in `RESULT` (rule R103): a constant, never computed. -/
def sentinel : Word := 0xFFFFFFFF#32

/-- Whether a failure with this variant leaves `OBUF[0..CAP-1]` unspecified. `InvalidDigitCount` is raised by
`TOTP` only, which writes no buffer (`43_totp.md` rule R230); the other three end `B32ENC`, `B32DEC` or
`GENSEC` (item U5). DEDUCED, see log 4. -/
def spoilsObuf : ErrorVariant → Bool
  | .invalidCharacter => true
  | .bufferTooSmall => true
  | .invalidDigitCount => false
  | .randomSourceFailure => true

end Sys2Proof.Machine
end

