-- ==== Sys2Proof/Machine/Ops.lean ====
section
/-! DEFINITION. The named operations over buffers and registers, and the two completions of a command. -/

namespace Sys2Proof.Machine

/-- What a step, a phase or a command answers. -/
abbrev Answer := Host.Outcome State Fault Refusal

/-- Go on with what was read, or stop with the fault. -/
def orFault {α : Type} (r : Except Fault α) (k : α → Answer) : Answer :=
  match r with
  | .ok a => k a
  | .error e => .fault e

/-- `ceil(a/b) = (a + b - 1) div b` (`00_scope.md` rule R7). -/
def ceilDiv (a b : Nat) : Nat :=
  (a + b - 1) / b

/-- `a & (2^p - 1)`: mask `a` to its `p` low bits (rule R23). -/
def lowBits (p : Nat) (a : Word) : Word :=
  a &&& BitVec.ofNat 32 (2 ^ p - 1)

/-- The unsigned integer whose big-endian bytes are `b` (`40_base32_encode.md` rule R132). -/
def beValue (b : List Byte) : Nat :=
  b.foldl (fun acc x => acc * 256 + x.toNat) 0

/-- The eight bytes of a counter, index 0 the most significant: `CTR[i] = C[63-8i : 56-8i]`
(`30_encoding.md` rule R98). -/
def be8 (c : DWord) : Vector Byte 8 :=
  Vector.ofFn fun i => c.extractLsb' (56 - 8 * i.val) 8

/-! ## Byte spaces -/

/-- The canonical form: indices strictly rising. No listed byte equals what an unlisted index reads as,
because an unlisted index reads as no value (log 3). -/
abbrev Memory.wf (m : Memory) : Prop :=
  m.Pairwise (fun c d => c.1 < d.1)

/-- The byte at index `i`; none where nothing has been written. -/
def Memory.read : Memory → Nat → Option Byte
  | [], _ => none
  | c :: m, i => if c.1 = i then some c.2 else Memory.read m i

/-- Make the byte at index `i` equal to `v` and change no other byte (`20_memory.md` rule R62). -/
def Memory.write : Memory → Nat → Byte → Memory
  | [], i, v => [(i, v)]
  | c :: m, i, v =>
    if c.1 = i then (i, v) :: m
    else if i < c.1 then (i, v) :: c :: m
    else c :: Memory.write m i v

/-- Write bytes at `i`, `i+1`, ... in order. -/
def Memory.writeFrom : Memory → Nat → List Byte → Memory
  | m, _, [] => m
  | m, i, v :: vs => Memory.writeFrom (Memory.write m i v) (i + 1) vs

/-- The `n` bytes from index `i` on, or none if one of them was never written. -/
def Memory.readRange (m : Memory) : Nat → Nat → Option (List Byte)
  | _, 0 => some []
  | i, n + 1 =>
    match Memory.read m i with
    | none => none
    | some v => (Memory.readRange m (i + 1) n).map (v :: ·)

/-- The `n` cells from index `i` on that hold the bytes `f` gives. -/
def cellsFrom (f : Nat → Byte) : Nat → Nat → Memory
  | _, 0 => []
  | i, n + 1 => (i, f i) :: cellsFrom f (i + 1) n

/-- Every byte below index `n` becomes what `f` gives; the others are unchanged (rule R80: the bytes of
`OBUF` below `CAP` after a failure are any value). -/
def Memory.spoil (m : Memory) (n : Nat) (f : Nat → Byte) : Memory :=
  cellsFrom f 0 n ++ m.filter (fun c => n ≤ c.1)

/-- The space a buffer is. -/
def bufferSpace : BufferId → Space
  | .ibuf => .ibuf
  | .kbuf => .kbuf
  | .obuf => .obuf

/-- A buffer's bytes. -/
def buffer (s : State) : BufferId → Memory
  | .ibuf => s.ibuf
  | .kbuf => s.kbuf
  | .obuf => s.obuf

/-- A buffer's size is the value of its length or capacity register (`20_memory.md` rule R61). -/
def bufferSize (s : State) : BufferId → Nat
  | .ibuf => s.len.toNat
  | .kbuf => s.keyLen.toNat
  | .obuf => s.cap.toNat

/-- Replace a buffer's bytes. -/
def setBuffer (s : State) (b : BufferId) (m : Memory) : State :=
  match b with
  | .ibuf => { s with ibuf := m }
  | .kbuf => { s with kbuf := m }
  | .obuf => { s with obuf := m }

/-- `MemRead(S + i, 1)`: the byte at index `i < n` of the space; out of range is a fault (rule R62). -/
def memRead (s : State) (b : BufferId) (i : Nat) : Except Fault Byte :=
  if i < bufferSize s b then
    match Memory.read (buffer s b) i with
    | some v => .ok v
    | none => .error (.outOfRange (bufferSpace b) i)
  else .error (.outOfRange (bufferSpace b) i)

/-- The whole of an input buffer, `S[0..n-1]`, read byte by byte. -/
def memReadAll (s : State) (b : BufferId) : Except Fault (List Byte) :=
  match Memory.readRange (buffer s b) 0 (bufferSize s b) with
  | some v => .ok v
  | none => .error (.outOfRange (bufferSpace b) (bufferSize s b))

/-- `MemWrite(OBUF + i, 1, v)`: never at or above `CAP` (rules R62 and R63). -/
def memWriteObuf (s : State) (i : Nat) (v : Byte) : Except Fault State :=
  if i < s.cap.toNat then .ok { s with obuf := Memory.write s.obuf i v }
  else .error (.outOfRange .obuf i)

/-! ## Completion (in place of trap entry and return) -/

/-- The scratch after its content became unspecified: every item a free value (`10_state.md` rule R42,
item U9). -/
def freeScratch (n : Nat) : Scratch :=
  { acc := Config.freeValue 32 .acc n
    pend := Config.freeValue 5 .pend n
    iidx := Config.freeValue 32 .iidx n
    ocnt := Config.freeValue 32 .ocnt n
    esel := Config.freeValue 1 .esel n
    hsel := Config.freeValue 1 .hsel n
    ctr := Vector.ofFn fun i => Config.freeValue 8 (.ctr i.val) n
    kblk := Vector.ofFn fun i => Config.freeValue 8 (.kblk i.val) n
    ipad := Vector.ofFn fun i => Config.freeValue 8 (.ipad i.val) n
    opad := Vector.ofFn fun i => Config.freeValue 8 (.opad i.val) n
    idig := Vector.ofFn fun i => Config.freeValue 8 (.idig i.val) n
    digest := Vector.ofFn fun i => Config.freeValue 8 (.digest i.val) n
    off := Config.freeValue 4 .off n
    tv := Config.freeValue 31 .tv n
    rnd := Vector.ofFn fun i => Config.freeValue 8 (.rnd i.val) n }

/-- The free bytes of `OBUF` when it becomes unspecified for the `n`-th time. -/
def freeObuf (n i : Nat) : Byte :=
  Config.freeValue 8 (.obuf i) n

/-- Write the digest to `DIG` (`10_state.md` rule R39). -/
def writeDig (d : Digest) (s : State) : State :=
  { s with dig := d, given := { s.given with dig := true } }

/-- What both completions do: write `RESULT` and `ERR`, go to `IDLE`, release the scratch
(`60_exceptions.md` rules R296 and R297). -/
def complete (r : Word) (e : BitVec 3) (s : State) : State :=
  { s with
    result := r
    err := e
    given := { s.given with outcome := true }
    phase := .idle
    scratch := freeScratch s.fresh
    fresh := s.fresh + 1 }

/-- Success completion (rule R297). -/
def succeed (r : Word) (s : State) : State :=
  complete r errorNone s

/-- Failure completion, `raise <Variant>` (rule R296): the sentinel, the variant's code, `IDLE`; no state is
saved and control goes nowhere, so there is nothing to return from (rule R301). `OBUF[0..CAP-1]` becomes
free values where the command has an output buffer (item U5). -/
def raise (v : ErrorVariant) (s : State) : State :=
  complete sentinel (errorCode v)
    { s with
      obuf := if spoilsObuf v then Memory.spoil s.obuf s.cap.toNat (freeObuf s.fresh) else s.obuf }

/-- Reset asserted by the host (`70_reset_and_hazards.md` rule R330): `IDLE`, every other mutable item
unspecified and nothing given a value since (rule R43, item U8); the buffers untouched (rule R43). When a command was
abandoned, whichever it was, `RESULT`, `ERR` and `OBUF[0..CAP-1]` are any value (rule R330, item U16; log 15). -/
def assertReset (s : State) : State :=
  let n := s.fresh
  { s with
    cmd := Config.freeValue 8 .cmd n
    len := Config.freeValue 32 .len n
    cap := Config.freeValue 32 .cap n
    keyLen := Config.freeValue 32 .keyLen n
    time := Config.freeValue 64 .time n
    tStep := Config.freeValue 64 .tStep n
    digits := Config.freeValue 32 .digits n
    result := Config.freeValue 32 .result n
    err := Config.freeValue 3 .err n
    dig := Vector.ofFn fun i => Config.freeValue 8 (.dig i.val) n
    given := { Given.nothing with outcome := decide (s.phase ≠ .idle) }
    obuf := if s.phase = .idle then s.obuf else Memory.spoil s.obuf s.cap.toNat (freeObuf n)
    phase := .idle
    scratch := freeScratch n
    fresh := n + 1 }

end Sys2Proof.Machine
end

