-- ==== Sys2Proof/Machine/Operands.lean ====
section
/-! DEFINITION. The operand places of each command (`30_encoding.md` rule R92), and the refusals judged over
them when `CMD` is written, before the first phase (`60_exceptions.md` rules R300 and R303). -/

namespace Sys2Proof.Machine

/-- The operand registers a command reads (rule R92). -/
def operandRegs : Instr → List RegName
  | .b32enc => [.len, .cap]
  | .b32dec => [.len, .cap]
  | .totp => [.keyLen, .time, .tStep, .digits]
  | .hmac => [.keyLen, .len]
  | .gensec => [.cap]

/-- Whether a register has been given a value since reset. -/
def isGiven (s : State) : RegName → Bool
  | .len => s.given.len
  | .cap => s.given.cap
  | .keyLen => s.given.keyLen
  | .time => s.given.time
  | .tStep => s.given.tStep
  | .digits => s.given.digits
  | .result => s.given.outcome
  | .err => s.given.outcome
  | .dig => s.given.dig

/-- The length registers a command reads (rule R92). -/
def lengthRegs : Instr → List LengthReg
  | .b32enc => [.len, .cap]
  | .b32dec => [.len, .cap]
  | .totp => [.keyLen]
  | .hmac => [.keyLen, .len]
  | .gensec => [.cap]

/-- The value of a length register. -/
def lengthValue (s : State) : LengthReg → Nat
  | .len => s.len.toNat
  | .cap => s.cap.toNat
  | .keyLen => s.keyLen.toNat

/-- The input buffers a command reads (`20_memory.md` rule R64). -/
def inputBuffers : Instr → List BufferId
  | .b32enc => [.ibuf]
  | .b32dec => [.ibuf]
  | .totp => [.kbuf]
  | .hmac => [.kbuf, .ibuf]
  | .gensec => []

/-- The three buffers, whose regions the host must keep from overlapping whatever the command (rule R71). -/
def allBuffers : List BufferId :=
  [.ibuf, .kbuf, .obuf]

/-- The address at which a buffer's region begins under a binding into one memory. -/
def regionBase (ibufAt kbufAt obufAt : Nat) : BufferId → Nat
  | .ibuf => ibufAt
  | .kbuf => kbufAt
  | .obuf => obufAt

/-- Two regions have a byte in common. -/
def regionsMeet (a n b m : Nat) : Bool :=
  0 < n && 0 < m && a < b + m && b < a + n

/-- Two of the buffers' regions have a byte in common under the binding in use (rule R71, item U6). -/
def buffersOverlap (binding : BufferBinding) (s : State) : List BufferId → Bool
  | [] => false
  | b :: bs =>
    match binding with
    | .separate => false
    | .mapped x y z =>
      bs.any (fun c =>
        regionsMeet (regionBase x y z b) (bufferSize s b) (regionBase x y z c) (bufferSize s c))
      || buffersOverlap binding s bs

/-- The first register of a list that nothing has given a value since reset: a command that reads it is refused (rule
R43: "refused, never given a zero"; rule R303, item U8). -/
def firstUngiven (s : State) : List RegName → Option Refusal
  | [] => none
  | r :: rs => if isGiven s r then firstUngiven s rs else some (.unwrittenRegister r)

/-- The first length register of a list that is above `LENMAX` (rule R27, item U4). -/
def firstTooLong (s : State) : List LengthReg → Option Refusal
  | [] => none
  | r :: rs => if Config.lenMax < lengthValue s r then some (.lengthAboveMax r) else firstTooLong s rs

/-- Whether the host has filled an input buffer up to its size since reset (item U8). `OBUF` is no command's input
(rule R64), so nothing is asked of it. -/
def filledSinceReset (s : State) : BufferId → Bool
  | .ibuf => s.len.toNat ≤ s.given.ibuf
  | .kbuf => s.keyLen.toNat ≤ s.given.kbuf
  | .obuf => true

/-- The first buffer of a list with a byte below its size that nothing has written since reset (item U8). -/
def firstUnwritten (s : State) : List BufferId → Option Refusal
  | [] => none
  | b :: bs =>
    match filledSinceReset s b, Memory.readRange (buffer s b) 0 (bufferSize s b) with
    | true, some _ => firstUnwritten s bs
    | _, _ => some (.unwrittenByte b)

/-- `TOTP` with `TSTEP = 0` (rule R232, item U3). -/
def zeroStep (i : Instr) (s : State) : Option Refusal :=
  match i with
  | .totp => if s.tStep = 0#64 then some .zeroTimeStep else none
  | .b32enc => none
  | .b32dec => none
  | .hmac => none
  | .gensec => none

/-- Overlapping regions among the three buffers: "a command started with overlapping regions is refused"
(rule R71), any command (log 10). -/
def overlapping (E : Env) (s : State) : Option Refusal :=
  if buffersOverlap E.binding s allBuffers then some .overlappingBuffers else none

/-- Why the write of `CMD` is refused, if it is: "Refusal comes before everything" (rule R300).
The order in which the reasons are looked at only decides which name is given (log 13). -/
def startRefusal (E : Env) (i : Instr) (s : State) : Option Refusal :=
  if s.phase ≠ .idle then some .commandInProgress
  else
    (firstUngiven s (operandRegs i)).or
      (((firstTooLong s (lengthRegs i)).or (zeroStep i s)).or
        ((firstUnwritten s (inputBuffers i)).or (overlapping E s)))

/-- Run a command's effect unless its start is refused. -/
def started (E : Env) (i : Instr) (s : State) (k : Answer) : Answer :=
  match startRefusal E i s with
  | some r => .refused r
  | none => k

end Sys2Proof.Machine
end

