-- ==== Sys2Proof/Machine/Tables.lean ====
section
/-! DEFINITION. The three constant tables (`10_state.md` rule R40): no rule writes them. -/

namespace Sys2Proof.Machine

/-- The rows of `ALPHA` (`30_encoding.md` rule R94), eight symbols a row. -/
def alphaRows : List Byte :=
  [0x41#8, 0x42#8, 0x43#8, 0x44#8, 0x45#8, 0x46#8, 0x47#8, 0x48#8]
  ++ [0x49#8, 0x4A#8, 0x4B#8, 0x4C#8, 0x4D#8, 0x4E#8, 0x4F#8, 0x50#8]
  ++ [0x51#8, 0x52#8, 0x53#8, 0x54#8, 0x55#8, 0x56#8, 0x57#8, 0x58#8]
  ++ [0x59#8, 0x5A#8, 0x32#8, 0x33#8, 0x34#8, 0x35#8, 0x36#8, 0x37#8]

/-- `ALPHA[0..31]`, the encoder's table (rule R94). -/
def alphaTable : Vector Byte 32 :=
  ⟨alphaRows.toArray, rfl⟩

/-- `TableRead(ALPHA, v)`. -/
def alpha (v : BitVec 5) : Byte :=
  alphaTable[v.toNat]'v.isLt

/-- `TableRead(INV, c)`, the decoder's table (rule R95). -/
def inv (c : Byte) : CharClass :=
  if 0x41 ≤ c.toNat ∧ c.toNat ≤ 0x5A then .symbol (BitVec.ofNat 5 (c.toNat - 0x41))
  else if 0x32 ≤ c.toNat ∧ c.toNat ≤ 0x37 then .symbol (BitVec.ofNat 5 (c.toNat - 0x32 + 26))
  else if c.toNat = 0x3D then .padding
  else .invalid

/-- The padding character `=` (rule R96). -/
def padChar : Byte := 0x3D#8

/-- The terminator NUL (rule R96). -/
def nul : Byte := 0x00#8

/-- `POW10[0..8]`, the digit-count modulus table, 27 bits an entry (rule R101). -/
def pow10Table : List (BitVec 27) :=
  [1#27, 10#27, 100#27, 1000#27, 10000#27, 100000#27, 1000000#27, 10000000#27, 100000000#27]

/-- `TableRead(POW10, d)`: there is no entry above 8. -/
def pow10 (d : Nat) : Option (BitVec 27) :=
  pow10Table[d]?

end Sys2Proof.Machine
end

