-- ==== Sys2Proof/Machine/Base32Dec.lean ====
section
/-! DEFINITION. The Base32 decoder: the function `Dec`, the command `B32DEC`, and the three decoder phases
(`41_base32_decode.md`). -/

namespace Sys2Proof.Machine

/-! ## The function `Dec` (rule R183) -/

/-- The value a character contributes, if it is a symbol. -/
def symbolValue (c : Byte) : Option (BitVec 5) :=
  match inv c with
  | .symbol v => some v
  | .padding => none
  | .invalid => none

/-- The values of the symbols of a text in order: every other character deleted. -/
def symbolValues (text : List Byte) : List (BitVec 5) :=
  text.filterMap symbolValue

/-- `V`, the integer whose base-32 digits are the values, first the most significant. -/
def digitsValue (vs : List (BitVec 5)) : Nat :=
  vs.foldl (fun acc v => acc * 32 + v.toNat) 0

/-- The `floor(5s/8)` bytes of `s` values: byte `k` is `(V >> (5s - 8(k+1))) & 0xFF`; the last `5s mod 8` bits
are dropped. -/
def octetsOf (vs : List (BitVec 5)) : List Byte :=
  (List.range (5 * vs.length / 8)).map fun k =>
    BitVec.ofNat 8 ((digitsValue vs >>> (5 * vs.length - 8 * (k + 1))) &&& 0xFF)

/-- `Dec(t)`. -/
def dec (text : List Byte) : List Byte :=
  octetsOf (symbolValues text)

/-! ## The command level (rule R170) -/

/-- The index of the first `Invalid` character, or the length of the text if there is none. -/
def firstInvalid (text : List Byte) : Nat :=
  text.findIdx (fun c => inv c = .invalid)

/-- `s_i`: how many of the characters up to and with index `i` are symbols. -/
def symbolsThrough (text : List Byte) (i : Nat) : Nat :=
  (symbolValues (text.take (i + 1))).length

/-- Whether the character at index `i` is a symbol that completes an octet beyond the capacity: a symbol with
`floor(5*s_i/8) > CAP`. -/
def exceedsAt (text : List Byte) (cap i : Nat) : Bool :=
  (symbolValue (text.getD i nul)).isSome && decide (cap < 5 * symbolsThrough text i / 8)

/-- Whether some character before the first `Invalid` one exceeds the capacity (the `iB` of rule R170). -/
def capacityExceeded (text : List Byte) (cap : Nat) : Bool :=
  (List.range (firstInvalid text)).any (exceedsAt text cap)

/-- The command-level effect of `B32DEC` on the characters `text`. -/
def decodeEffect (text : List Byte) (s : State) : State :=
  if capacityExceeded text s.cap.toNat then raise .bufferTooSmall s
  else if firstInvalid text < text.length then raise .invalidCharacter s
  else
    let b := dec text
    succeed (BitVec.ofNat 32 b.length) { s with obuf := Memory.writeFrom s.obuf 0 b }

/-- `B32DEC` with the parameters as an argument. -/
def b32decWith (E : Env) (s : State) : Answer :=
  started E .b32dec s
    (orFault (memReadAll s .ibuf) fun text => .next (decodeEffect text s))

/-- The meaning of `B32DEC`: the whole command, atomic to the host (`20_memory.md` rule R78). -/
def execB32dec (s : State) : Answer :=
  b32decWith Config.env s

/-! ## The step level -/

/-- Phase `DEC_INIT` (rule R171). -/
def decInit (s : State) : Answer :=
  .next
    { s with
      phase := if s.len.toNat > 0 then .decScan else .decEnd
      scratch := { s.scratch with acc := 0#32, pend := 0#5, iidx := 0#32, ocnt := 0#32 } }

/-- The accumulator after the five bits of `v` entered below the pending bits (rule R173). -/
def shiftIn (acc : Word) (v : BitVec 5) : Word :=
  (acc <<< 5) ||| v.setWidth 32

/-- What `DEC_SCAN` does with a symbol (rules R172, R173, R174 and R177); `next` is the phase after it. -/
def decSymbol (v : BitVec 5) (next : Phase) (s : State) : Answer :=
  let a := shiftIn s.scratch.acc v
  let p := s.scratch.pend.toNat + 5
  if 8 ≤ p then
    if s.cap.toNat ≤ s.scratch.ocnt.toNat then .next (raise .bufferTooSmall s)
    else
      orFault (memWriteObuf s s.scratch.ocnt.toNat (BitVec.setWidth 8 (a >>> (p - 8)))) fun s1 =>
        .next
          { s1 with
            phase := next
            scratch :=
              { s1.scratch with
                acc := lowBits (p - 8) a
                pend := BitVec.ofNat 5 (p - 8)
                ocnt := s1.scratch.ocnt + 1#32 } }
  else
    .next { s with phase := next, scratch := { s.scratch with acc := a, pend := BitVec.ofNat 5 p } }

/-- Phase `DEC_SCAN` (rule R172): read one character, classify it three ways, act. -/
def decScan (s : State) : Answer :=
  orFault (memRead s .ibuf s.scratch.iidx.toNat) fun c =>
    let s1 : State := { s with scratch := { s.scratch with iidx := s.scratch.iidx + 1#32 } }
    let next : Phase := if s1.scratch.iidx.toNat < s.len.toNat then .decScan else .decEnd
    match inv c with
    | .invalid => .next (raise .invalidCharacter s1)
    | .padding => .next { s1 with phase := next }
    | .symbol v => decSymbol v next s1

/-- Phase `DEC_END` (rule R178): the trailing bits are discarded whatever their value; success completion. -/
def decEnd (s : State) : Answer :=
  .next
    (succeed s.scratch.ocnt { s with scratch := { s.scratch with acc := 0#32, pend := 0#5 } })

end Sys2Proof.Machine
end

