-- ==== Sys2Proof/Machine/Base32Enc.lean ====
section
/-! DEFINITION. The Base32 encoder: the function `Enc`, the command `B32ENC`, and the six encoder phases
(`40_base32_encode.md`). -/

namespace Sys2Proof.Machine

/-! ## The function `Enc` (rule R132) -/

/-- `q = ceil(8n/5)`, the number of symbols for `n` input bytes. -/
def symbolCount (n : Nat) : Nat :=
  ceilDiv (8 * n) 5

/-- `8*ceil(n/5)`, the length of the text for `n` input bytes: symbols and `=`, without the NUL
(`30_encoding.md` rule R97). -/
def textLength (n : Nat) : Nat :=
  8 * ceilDiv n 5

/-- The room `n` input bytes need: the text and the terminator (rule R131). -/
def requiredCap (n : Nat) : Nat :=
  textLength n + 1

/-- `v_k = ((N << z) >> (5*(q-1-k))) & 0x1F` with `N` the integer of the bytes `b` and `z = 5q - 8n`. -/
def quintet (b : List Byte) (k : Nat) : BitVec 5 :=
  let q := symbolCount b.length
  let z := 5 * q - 8 * b.length
  BitVec.ofNat 5 (((beValue b <<< z) >>> (5 * (q - 1 - k))) &&& 0x1F)

/-- `Enc(b)`: the symbols of the quintets in order, then `=` up to a multiple of 8 characters. -/
def enc (b : List Byte) : List Byte :=
  (List.range (symbolCount b.length)).map (fun k => alpha (quintet b k))
  ++ List.replicate (textLength b.length - symbolCount b.length) padChar

/-! ## The command level (rule R130) -/

/-- What a successful encode leaves: the text, the NUL after it, the text's length in `RESULT`. -/
def encodeSucceeds (b : List Byte) (s : State) : State :=
  let text := enc b
  succeed (BitVec.ofNat 32 text.length) { s with obuf := Memory.writeFrom s.obuf 0 (text ++ [nul]) }

/-- The command-level effect of `B32ENC` on the input bytes `b`. -/
def encodeEffect (b : List Byte) (s : State) : State :=
  if requiredCap b.length > s.cap.toNat then raise .bufferTooSmall s else encodeSucceeds b s

/-- `B32ENC` with the parameters as an argument. -/
def b32encWith (E : Env) (s : State) : Answer :=
  started E .b32enc s
    (orFault (memReadAll s .ibuf) fun b => .next (encodeEffect b s))

/-- The meaning of `B32ENC`: the whole command, atomic to the host (`20_memory.md` rule R78). -/
def execB32enc (s : State) : Answer :=
  b32encWith Config.env s

/-! ## The step level -/

/-- The encoder's initialisation: select the input, empty the accumulator, clear the indices. -/
def startEncoder (esel : BitVec 1) (s : State) : State :=
  { s with scratch := { s.scratch with esel := esel, acc := 0#32, pend := 0#5, iidx := 0#32, ocnt := 0#32 } }

/-- `n`, the length of the selected input (rule R45). -/
def sourceLength (s : State) : Nat :=
  if s.scratch.esel = 0#1 then s.len.toNat else 20

/-- `MemRead(SRC + IIDX, 1)`: `IBUF` when `ESEL = 0`, `RND` when `ESEL = 1` (rule R45). -/
def sourceRead (s : State) : Except Fault Byte :=
  let i := s.scratch.iidx.toNat
  if s.scratch.esel = 0#1 then memRead s .ibuf i
  else if h : i < 20 then .ok s.scratch.rnd[i]
  else .error (.outOfRange .rnd i)

/-- Write one byte at `OCNT` and count it. -/
def putByte (v : Byte) (s : State) : Except Fault State :=
  match memWriteObuf s s.scratch.ocnt.toNat v with
  | .ok t => .ok { t with scratch := { t.scratch with ocnt := t.scratch.ocnt + 1#32 } }
  | .error e => .error e

/-- `EmitSym(v)` (rule R146): the only way a symbol reaches `OBUF`. -/
def emitSym (v : BitVec 5) (s : State) : Except Fault State :=
  putByte (alpha v) s

/-- `EmitSym` of each value in order. -/
def emitSyms : List (BitVec 5) → State → Except Fault State
  | [], s => .ok s
  | v :: vs, s =>
    match emitSym v s with
    | .ok t => emitSyms vs t
    | .error e => .error e

/-- The five leading quintets of `p` pending bits of `a`, most significant first (rule R134). -/
def windowQuintets (a : Word) (p : Nat) : List (BitVec 5) :=
  (List.range 5).map (fun k => BitVec.setWidth 5 ((a >>> (p - 5 * (k + 1))) &&& 0x1F#32))

/-- Write the accumulator, its pending count and the phase. -/
def setAcc (a : Word) (p : Nat) (phase : Phase) (s : State) : State :=
  { s with phase := phase, scratch := { s.scratch with acc := a, pend := BitVec.ofNat 5 p } }

/-- Phase `ENC_CHECK` (rule R131). -/
def encCheck (s : State) : Answer :=
  let n := s.len.toNat
  if requiredCap n > s.cap.toNat then .next (raise .bufferTooSmall s)
  else .next { startEncoder 0#1 s with phase := if n > 0 then .encAbsorb else .encDrain }

/-- Phase `ENC_ABSORB` (rule R133): absorb one octet; when 25 bits are pending, emit five symbols. -/
def encAbsorb (s : State) : Answer :=
  orFault (sourceRead s) fun o =>
    let a : Word := (s.scratch.acc <<< 8) ||| o.setWidth 32
    let p := s.scratch.pend.toNat + 8
    let s1 : State := { s with scratch := { s.scratch with iidx := s.scratch.iidx + 1#32 } }
    let next : Phase := if s1.scratch.iidx.toNat < sourceLength s then .encAbsorb else .encDrain
    if 25 ≤ p then
      orFault (emitSyms (windowQuintets a p) s1) fun s2 =>
        .next (setAcc (lowBits (p - 25) a) (p - 25) next s2)
    else .next (setAcc a p next s1)

/-- Phase `ENC_DRAIN` (rule R135): emit one complete quintet still pending. -/
def encDrain (s : State) : Answer :=
  if 5 ≤ s.scratch.pend.toNat then
    let p := s.scratch.pend.toNat - 5
    let v := BitVec.setWidth 5 ((s.scratch.acc >>> p) &&& 0x1F#32)
    orFault (emitSym v s) fun s1 => .next (setAcc (lowBits p s.scratch.acc) p .encDrain s1)
  else .next { s with phase := .encTail }

/-- Phase `ENC_TAIL` (rule R136): the partial quintet, zero bits below. -/
def encTail (s : State) : Answer :=
  if 1 ≤ s.scratch.pend.toNat then
    let v := BitVec.setWidth 5 ((s.scratch.acc <<< (5 - s.scratch.pend.toNat)) &&& 0x1F#32)
    orFault (emitSym v s) fun s1 => .next (setAcc 0#32 0 .encPad s1)
  else .next (setAcc 0#32 0 .encPad s)

/-- Phase `ENC_PAD` (rule R137): one `=`, or on to the terminator. -/
def encPad (s : State) : Answer :=
  if s.scratch.ocnt.toNat % 8 ≠ 0 then
    orFault (putByte padChar s) fun s1 => .next { s1 with phase := .encPad }
  else .next { s with phase := .encTerm }

/-- Phase `ENC_TERM` (rule R138): the NUL, not counted, and success completion. -/
def encTerm (s : State) : Answer :=
  orFault (memWriteObuf s s.scratch.ocnt.toNat nul) fun s1 => .next (succeed s.scratch.ocnt s1)

end Sys2Proof.Machine
end

