-- ==== Sys2Proof/Machine/GenSecret.lean ====
section
/-! DEFINITION. The secret generator: the command `GENSEC` and its two phases (`44_generate_secret.md`). The
encoder phases it goes on to are those of `Base32Enc.lean` with `ESEL = 1`. -/

namespace Sys2Proof.Machine

/-- The least capacity of `GENSEC`: 33 = 8*ceil(20/5) + 1 (rule R272). -/
def secretCap : Nat :=
  33

/-- One call of the random port is made and counted (rule R271: exactly one). -/
def countDraw (s : State) : State :=
  { s with draws := s.draws + 1 }

/-- The command-level effect of `GENSEC` for one answer of the random port (rule R270); a failed draw wins over a
small capacity (rule R275). -/
def secretEffect (d : Draw) (s : State) : State :=
  match d with
  | none => raise .randomSourceFailure s
  | some r => if s.cap.toNat < secretCap then raise .bufferTooSmall s else encodeSucceeds r.toList s

/-- `GENSEC` with the parameters as an argument. -/
def gensecWith (E : Env) (s : State) : Answer :=
  started E .gensec s (.next (secretEffect (E.rand s.draws) (countDraw s)))

/-- The meaning of `GENSEC`: the whole command, atomic to the host (`20_memory.md` rule R78). -/
def execGensec (s : State) : Answer :=
  gensecWith Config.env s

/-- Phase `GS_RAND` (rule R271): the draw, before the capacity is looked at. -/
def gsRand (E : Env) (s : State) : Answer :=
  let s1 := countDraw s
  match E.rand s.draws with
  | none => .next (raise .randomSourceFailure s1)
  | some r => .next { s1 with phase := .gsCheck, scratch := { s1.scratch with rnd := r } }

/-- Phase `GS_CHECK` (rule R272): the capacity, then the encoder on `RND`. -/
def gsCheck (s : State) : Answer :=
  if s.cap.toNat < secretCap then .next (raise .bufferTooSmall s)
  else .next { startEncoder 1#1 s with phase := .encAbsorb }

end Sys2Proof.Machine
end

