-- ==== Sys2Proof/Machine/HmacEngine.lean ====
section
/-! DEFINITION. The HMAC sequencer: the function `Hmac`, the command `HMAC`, and the six HMAC phases
(`42_hmac.md`). -/

namespace Sys2Proof.Machine

/-! ## The function `Hmac` (rule R201) -/

/-- `K'`: the key, or its hash when it is longer than 64 bytes, and zero bytes up to 64 (rules R201 and R208). -/
def normKey (hash : List Byte → Digest) (key : List Byte) : List Byte :=
  if key.length > 64 then (hash key).toList ++ List.replicate 44 0x00#8
  else key ++ List.replicate (64 - key.length) 0x00#8

/-- `H(opad || H(ipad || m))`, with the pads `K' xor 0x36...` and `K' xor 0x5c...`. -/
def hmac (hash : List Byte → Digest) (key msg : List Byte) : Digest :=
  let k := normKey hash key
  let ipad := k.map (· ^^^ 0x36#8)
  let opad := k.map (· ^^^ 0x5c#8)
  hash (opad ++ (hash (ipad ++ msg)).toList)

/-! ## The command level (rule R200) -/

/-- The command-level effect of `HMAC`: the digest in `DIG`, 20 in `RESULT`. It cannot fail (rule R211). -/
def hmacEffect (hash : List Byte → Digest) (key msg : List Byte) (s : State) : State :=
  succeed 20#32 (writeDig (hmac hash key msg) s)

/-- `HMAC` with the parameters as an argument. -/
def hmacWith (E : Env) (s : State) : Answer :=
  started E .hmac s
    (orFault (memReadAll s .kbuf) fun key =>
      orFault (memReadAll s .ibuf) fun msg =>
        .next (hmacEffect E.hash key msg s))

/-- The meaning of `HMAC`: the whole command, atomic to the host (`20_memory.md` rule R78). -/
def execHmac (s : State) : Answer :=
  hmacWith Config.env s

/-! ## The step level -/

/-- Phase `HM_CMD` (rule R207). -/
def hmCmd (s : State) : Answer :=
  .next { s with phase := .hmNorm, scratch := { s.scratch with hsel := 0#1 } }

/-- `KBLK` from a key that is hashed: its 20 digest bytes, then zeros (rule R202). -/
def hashedBlock (d : Digest) : Vector Byte 64 :=
  Vector.ofFn fun i => if h : i.val < 20 then d[i.val] else 0x00#8

/-- `KBLK` from a key of at most 64 bytes: its bytes, then zeros (rule R202). -/
def paddedBlock (key : List Byte) : Vector Byte 64 :=
  Vector.ofFn fun i => key.getD i.val 0x00#8

/-- Phase `HM_NORM` (rule R202): "longer than the block size" is strict. -/
def hmNorm (E : Env) (s : State) : Answer :=
  orFault (memReadAll s .kbuf) fun key =>
    let block := if s.keyLen.toNat > 64 then hashedBlock (E.hash key) else paddedBlock key
    .next { s with phase := .hmPads, scratch := { s.scratch with kblk := block } }

/-- Every one of the 64 positions XORed with the pad byte (rule R203). -/
def padBlock (k : Vector Byte 64) (pad : Byte) : Vector Byte 64 :=
  Vector.ofFn fun i => k[i.val] ^^^ pad

/-- Phase `HM_PADS` (rule R203). -/
def hmPads (s : State) : Answer :=
  .next
    { s with
      phase := .hmInner
      scratch :=
        { s.scratch with
          ipad := padBlock s.scratch.kblk 0x36#8
          opad := padBlock s.scratch.kblk 0x5c#8 } }

/-- `MSG[0..L-1]`: `IBUF` when `HSEL = 0`, `CTR` when `HSEL = 1` (rule R46). -/
def message (s : State) : Except Fault (List Byte) :=
  if s.scratch.hsel = 0#1 then memReadAll s .ibuf else .ok s.scratch.ctr.toList

/-- Phase `HM_INNER` (rule R204): the pad first. -/
def hmInner (E : Env) (s : State) : Answer :=
  orFault (message s) fun msg =>
    .next
      { s with
        phase := .hmOuter
        scratch := { s.scratch with idig := E.hash (s.scratch.ipad.toList ++ msg) } }

/-- Phase `HM_OUTER` (rule R205): always 84 bytes, the pad first. -/
def hmOuter (E : Env) (s : State) : Answer :=
  .next
    { s with
      phase := if s.scratch.hsel = 0#1 then .hmDone else .toTrunc
      scratch := { s.scratch with digest := E.hash (s.scratch.opad.toList ++ s.scratch.idig.toList) } }

/-- Phase `HM_DONE` (rule R206): the digest copied out, success completion. -/
def hmDone (s : State) : Answer :=
  .next (succeed 20#32 (writeDig s.scratch.digest s))

end Sys2Proof.Machine
end

