-- ==== Sys2Proof/Machine/TotpEngine.lean ====
section
/-! DEFINITION. The TOTP engine: the function `Code`, the command `TOTP`, the counter encoder and the dynamic
code extractor (`43_totp.md`). -/

namespace Sys2Proof.Machine

/-! ## The function `Code` (rule R245) -/

/-- The eight counter bytes `BE8(t div s)`. -/
def counterBytes (t s : Nat) : List Byte :=
  (be8 (BitVec.ofNat 64 (t / s))).toList

/-- `d[19] & 0x0F`. -/
def truncOffset (d : Digest) : Nat :=
  d[19].toNat &&& 0x0F

theorem truncOffset_le (d : Digest) : truncOffset d ≤ 15 :=
  Nat.and_le_right

/-- `((d[off] & 0x7F) << 24) | (d[off+1] << 16) | (d[off+2] << 8) | d[off+3]`. -/
def truncValue (d : Digest) : Nat :=
  let off := truncOffset d
  have h : off ≤ 15 := truncOffset_le d
  ((d[off].toNat &&& 0x7F) <<< 24) ||| (d[off + 1].toNat <<< 16)
    ||| (d[off + 2].toNat <<< 8) ||| d[off + 3].toNat

/-- `Code(k, t, s, g) = tv mod 10^g`. -/
def code (hash : List Byte → Digest) (key : List Byte) (t s g : Nat) : Nat :=
  truncValue (hmac hash key (counterBytes t s)) % 10 ^ g

/-! ## The command level (rule R230) -/

/-- The command-level effect of `TOTP`. -/
def totpEffect (hash : List Byte → Digest) (key : List Byte) (s : State) : State :=
  if s.digits.toNat > 8 then raise .invalidDigitCount s
  else succeed (BitVec.ofNat 32 (code hash key s.time.toNat s.tStep.toNat s.digits.toNat)) s

/-- `TOTP` with the parameters as an argument. -/
def totpWith (E : Env) (s : State) : Answer :=
  started E .totp s
    (orFault (memReadAll s .kbuf) fun key => .next (totpEffect E.hash key s))

/-- The meaning of `TOTP`: the whole command, atomic to the host (`20_memory.md` rule R78). -/
def execTotp (s : State) : Answer :=
  totpWith Config.env s

/-! ## The step level -/

/-- Phase `TO_CHECK` (rule R231): one unsigned comparison rejects both sides of the range. -/
def toCheck (s : State) : Answer :=
  if s.digits.toNat > 8 then .next (raise .invalidDigitCount s) else .next { s with phase := .toCtr }

/-- Phase `TO_CTR` (rule R233): unsigned floor division, then eight bytes, big-endian. -/
def toCtr (s : State) : Answer :=
  if s.tStep = 0#64 then .refused .zeroTimeStep
  else
    .next
      { s with
        phase := .hmNorm
        scratch := { s.scratch with ctr := be8 (s.time / s.tStep), hsel := 1#1 } }

/-- Extractor, offset (rule R235): the low four bits of the last digest byte. -/
def offsetField (d : Digest) : BitVec 4 :=
  BitVec.setWidth 4 d[19]

theorem offsetField_le (d : Digest) : (offsetField d).toNat ≤ 15 :=
  Nat.le_of_lt_succ (offsetField d).isLt

/-- Extractor, field (rule R236): four bytes from the offset as a big-endian 32-bit number. -/
def truncField (d : Digest) (off : BitVec 4) : Word :=
  have h : off.toNat ≤ 15 := Nat.le_of_lt_succ off.isLt
  (d[off.toNat].setWidth 32 <<< 24) ||| (d[off.toNat + 1].setWidth 32 <<< 16)
    ||| (d[off.toNat + 2].setWidth 32 <<< 8) ||| d[off.toNat + 3].setWidth 32

/-- Extractor, mask (rule R237): only bit 31 is cleared. -/
def truncMask (p : Word) : BitVec 31 :=
  BitVec.setWidth 31 (p &&& 0x7FFFFFFF#32)

/-- Phase `TO_TRUNC` (rule R238): offset, field, mask, modulus, success completion. -/
def toTrunc (s : State) : Answer :=
  let off := offsetField s.scratch.digest
  let tv := truncMask (truncField s.scratch.digest off)
  match pow10 s.digits.toNat with
  | none => .fault (.noTableEntry s.digits.toNat)
  | some m =>
    .next
      (succeed (BitVec.ofNat 32 (tv.toNat % m.toNat))
        { s with scratch := { s.scratch with off := off, tv := tv } })

end Sys2Proof.Machine
end

