-- ==== Sys2Proof/Machine/Sequencer.lean ====
section
/-! DEFINITION. The sequencer: the first phase of each command (`30_encoding.md` rule R91), one rule per phase
(`60_exceptions.md` rule R305), and the number of steps a run takes (`70_reset_and_hazards.md` rule R336). -/

namespace Sys2Proof.Machine

/-- The phase a write of `CMD` sets (rule R91). -/
def firstPhase : Instr → Phase
  | .b32enc => .encCheck
  | .b32dec => .decInit
  | .totp => .toCheck
  | .hmac => .hmCmd
  | .gensec => .gsRand

/-- The state in which the command's first phase is about to be fired. -/
def enter (i : Instr) (s : State) : State :=
  { s with phase := firstPhase i }

/-- Start a command at the step level: the refusals are judged first (rule R300). -/
def startWith (E : Env) (i : Instr) (s : State) : Answer :=
  started E i s (.next (enter i s))

/-- One firing of one phase rule (rule R305). In `IDLE` nothing is running and the sequencer stays. -/
def phaseStepWith (E : Env) (s : State) : Answer :=
  match s.phase with
  | .idle => .next s
  | .encCheck => encCheck s
  | .encAbsorb => encAbsorb s
  | .encDrain => encDrain s
  | .encTail => encTail s
  | .encPad => encPad s
  | .encTerm => encTerm s
  | .decInit => decInit s
  | .decScan => decScan s
  | .decEnd => decEnd s
  | .hmCmd => hmCmd s
  | .hmNorm => hmNorm E s
  | .hmPads => hmPads s
  | .hmInner => hmInner E s
  | .hmOuter => hmOuter E s
  | .hmDone => hmDone s
  | .toCheck => toCheck s
  | .toCtr => toCtr s
  | .toTrunc => toTrunc s
  | .gsRand => gsRand E s
  | .gsCheck => gsCheck s

/-- One firing of one phase rule of the machine. -/
def phaseStep (s : State) : Answer :=
  phaseStepWith Config.env s

/-- The phase rules a run that starts in `s` fires, `k` of them. -/
def runPhases (E : Env) : Nat → State → Answer
  | 0, s => .next s
  | k + 1, s =>
    match phaseStepWith E s with
    | .next t => runPhases E k t
    | .fault e => .fault e
    | .refused r => .refused r

/-- `d`: the symbols drained after `n` octets, one for each complete quintet of the `8n mod 25` pending bits
(rules R143 and R336). -/
def drainedSymbols (n : Nat) : Nat :=
  8 * n % 25 / 5

/-- `e`: the `=` characters written for `n` octets (rule R142). -/
def paddingCount (n : Nat) : Nat :=
  textLength n - symbolCount n

/-- The steps of the encoder phases after the check, for `n` octets (rule R336). -/
def encoderSteps (n : Nat) : Nat :=
  n + (drainedSymbols n + 1) + 1 + (paddingCount n + 1) + 1

/-- The index of the character at which a decode of `text` with room for `cap` bytes fails: the first `Invalid`
character or symbol that exceeds the capacity; the length of the text if it succeeds. -/
def decodeStop (text : List Byte) (cap : Nat) : Nat :=
  ((List.range text.length).find? fun i =>
    exceedsAt text cap i || decide (inv (text.getD i nul) = .invalid)).getD text.length

/-- The steps of a decode (rule R336). -/
def decoderSteps (text : List Byte) (cap : Nat) : Nat :=
  if decodeStop text cap < text.length then 1 + (decodeStop text cap + 1) else 1 + text.length + 1

/-- How many steps the command's run takes after the `CMD` write (rule R336), for the input bytes `input` and
the answer `draw` of the random port. -/
def stepCount (i : Instr) (input : List Byte) (draw : Draw) (s : State) : Nat :=
  match i with
  | .b32enc => if requiredCap input.length > s.cap.toNat then 1 else 1 + encoderSteps input.length
  | .b32dec => decoderSteps input s.cap.toNat
  | .totp => if s.digits.toNat > 8 then 1 else 7
  | .hmac => 6
  | .gensec =>
    match draw with
    | none => 1
    | some _ => if s.cap.toNat < secretCap then 2 else 2 + encoderSteps 20

end Sys2Proof.Machine
end

