-- ==== Sys2Proof/Machine/Dispatch.lean ====
section
/-! DEFINITION. The meaning of each command, one arm a command. -/

namespace Sys2Proof.Machine

def exec (i : Instr) (s : State) : Host.Outcome State Fault Refusal :=
  match i with
  | .b32enc => Sys2Proof.Machine.execB32enc s
  | .b32dec => Sys2Proof.Machine.execB32dec s
  | .totp => Sys2Proof.Machine.execTotp s
  | .hmac => Sys2Proof.Machine.execHmac s
  | .gensec => Sys2Proof.Machine.execGensec s

end Sys2Proof.Machine
end

