-- ==== Sys2Proof/Machine/HostPort.lean ====
section
/-! DEFINITION. What the host does between commands (`30_encoding.md` rule R106, `70_reset_and_hazards.md` rule
R337), and how the machine advances by one step. -/

namespace Sys2Proof.Machine

/-- Add a value to what the host has read. A read changes nothing of the CORE (`20_memory.md` rule R69). -/
def observe (o : Observation) (s : State) : State :=
  { s with seen := s.seen ++ [o] }

/-- What counts as written since reset after the first `n` bytes of a buffer have been filled (item U8). -/
def givenLoad (b : BufferId) (n : Nat) (g : Given) : Given :=
  match b with
  | .ibuf => { g with ibuf := max g.ibuf n }
  | .kbuf => { g with kbuf := max g.kbuf n }
  | .obuf => g

/-- `LD BUF, bytes`: fill a buffer from index 0. -/
def loadBuffer (b : BufferId) (bytes : List Byte) (s : State) : State :=
  { setBuffer s b (Memory.writeFrom (buffer s b) 0 bytes) with given := givenLoad b bytes.length s.given }

/-- `CMD`: the code goes to `CMD`, the decoder reads it, and the command runs to completion (rules R106 and R78);
a reserved code is refused (rule R93). -/
def hostCommand (op : Byte) (s : State) : Answer :=
  match decode [op] with
  | .command i _ => exec i { s with cmd := op }
  | .reservedCode c => .refused (.reservedCommand c)
  | .noWord => .refused (.reservedCommand op)

/-- The bare write of `CMD` (rule R91): `PHASE` becomes the command's first phase. -/
def hostStart (op : Byte) (s : State) : Answer :=
  match decode [op] with
  | .command i _ => startWith Config.env i { s with cmd := op }
  | .reservedCode c => .refused (.reservedCommand c)
  | .noWord => .refused (.reservedCommand op)

/-- What a read of a register reports: its content, or that it has been given no value since reset (rule R43, item U8:
"what is excluded is a value"; log 20). -/
def reported {α : Type} (given : Bool) (v : α) : Option α :=
  if given then some v else none

/-- `RDB OBUF, n`: the host must not read bytes of `OBUF` that it never wrote and no command wrote (rule R337: "no move
in the model"). DESIGN CHOICE (log 21): `n` is not bounded by `CAP`. -/
def hostReadObuf (n : Nat) (s : State) : Answer :=
  match Memory.readRange s.obuf 0 n with
  | some bytes => .next (observe (.obuf bytes) s)
  | none => .refused (.unwrittenByte .obuf)

/-- `RDB DIG, n`: there are 20 bytes (rule R337: `DIG[0..19]`). -/
def hostReadDig (n : Nat) (s : State) : Answer :=
  if n ≤ 20 then .next (observe (.dig (reported (isGiven s .dig) (s.dig.toList.take n))) s)
  else .fault (.outOfRange .dig 20)

/-- One host action in `IDLE`. -/
def hostAct (a : HostAction) (s : State) : Answer :=
  match a with
  | .writeLen v => .next { s with len := v, given := { s.given with len := true } }
  | .writeCap v => .next { s with cap := v, given := { s.given with cap := true } }
  | .writeKeyLen v => .next { s with keyLen := v, given := { s.given with keyLen := true } }
  | .writeTime v => .next { s with time := v, given := { s.given with time := true } }
  | .writeTStep v => .next { s with tStep := v, given := { s.given with tStep := true } }
  | .writeDigits v => .next { s with digits := v, given := { s.given with digits := true } }
  | .load b bytes => .next (loadBuffer b bytes s)
  | .command op => hostCommand op s
  | .start op => hostStart op s
  | .readResult => .next (observe (.result (reported (isGiven s .result) s.result)) s)
  | .readErr => .next (observe (.err (reported (isGiven s .err) s.err)) s)
  | .readObuf n => hostReadObuf n s
  | .readDig n => hostReadDig n s
  | .reset _ => .next (assertReset s)

/-- The host's turn: its next action; with none left the machine stays in `IDLE` (rule R305). -/
def hostTurn (s : State) : Answer :=
  match s.host with
  | [] => .next s
  | a :: rest => hostAct a { s with host := rest }

/-- A step while a command is running: one phase rule, unless the host asserts reset now (rule R330). -/
def runningTurn (s : State) : Answer :=
  match s.host with
  | .reset 0 :: rest => .next (assertReset { s with host := rest })
  | .reset (k + 1) :: rest => phaseStep { s with host := .reset k :: rest }
  | _ => phaseStep s

/-- One step: in `IDLE` the host's turn, otherwise the sequencer's (rules R11 and R78). -/
def advance (s : State) : Answer :=
  if s.phase = .idle then hostTurn s else runningTurn s

/-- The host has written every operand register with the value it holds, as it must before a command (rule R332). -/
def operandsGiven (g : Given) : Given :=
  { g with len := true, cap := true, keyLen := true, time := true, tStep := true, digits := true }

/-- The state in which the operand registers have been written and the host's next action is the command word
`op` (log 9). -/
def placeCommand (op : Byte) (s : State) : State :=
  { s with phase := .idle, given := operandsGiven s.given, host := .command op :: s.host }

end Sys2Proof.Machine
end

