-- ==== Sys2Proof/Machine/Step.lean ====
section
/-! DEFINITION. One step of the machine, and where it takes its next command from. -/

namespace Sys2Proof.Machine

/-- One step. -/
def step (s : State) : Host.Outcome State Fault Refusal :=
  Sys2Proof.Machine.advance s

/-- `s` with the command word whose bits are `w` as the host's next action, so that the next step writes it to
`CMD` and runs the command; the operand registers count as written, as they must before a command (log 9). -/
def State.withFetchWord (s : State) (nbits w : Nat) : State :=
  Sys2Proof.Machine.placeCommand (Sys2Proof.tableByte nbits w) s

end Sys2Proof.Machine
end

