-- ==== Sys2Proof/Safety.lean ====
section
/-! DEFINITION. What a safe run is, in the terms statements use: when a command may start, what a buffer holds,
what every reachable state satisfies, and the phase each phase goes to. -/

namespace Sys2Proof.Machine

/-! ## What buffers hold -/

/-- The buffer holds the bytes `b` from index `i` on. -/
abbrev HoldsFrom (m : Memory) (i : Nat) (b : List Byte) : Prop :=
  ∀ k < b.length, Memory.read m (i + k) = b[k]?

/-- Every byte below index `n` has been written. -/
abbrev Written (m : Memory) (n : Nat) : Prop :=
  ∀ a < n, (Memory.read m a).isSome = true

/-- Every byte at or above index `n` reads the same in both. -/
def SameFrom (n : Nat) (m m' : Memory) : Prop :=
  ∀ a, n ≤ a → Memory.read m' a = Memory.read m a

/-! ## When a command may start -/

/-- Every operand register the command reads has been given a value since reset (rule R303, item U8). -/
abbrev OperandsGiven (i : Instr) (s : State) : Prop :=
  ∀ r ∈ operandRegs i, isGiven s r = true

/-- Every byte the command reads of an input buffer has been written since reset (rule R303, item U8). -/
abbrev Filled (s : State) (b : BufferId) : Prop :=
  filledSinceReset s b = true ∧ Written (buffer s b) (bufferSize s b)

/-- The command may start: the machine is idle and none of the refused situations of `60_exceptions.md` rule
R303 holds (in the binding in use the buffers cannot overlap, log 10). -/
def Ready (i : Instr) (s : State) : Prop :=
  s.phase = .idle ∧ OperandsGiven i s ∧
    match i with
    | .b32enc => s.len.toNat ≤ Config.lenMax ∧ s.cap.toNat ≤ Config.lenMax ∧ Filled s .ibuf
    | .b32dec => s.len.toNat ≤ Config.lenMax ∧ s.cap.toNat ≤ Config.lenMax ∧ Filled s .ibuf
    | .totp => s.keyLen.toNat ≤ Config.lenMax ∧ s.tStep ≠ 0#64 ∧ Filled s .kbuf
    | .hmac =>
      s.keyLen.toNat ≤ Config.lenMax ∧ s.len.toNat ≤ Config.lenMax ∧ Filled s .kbuf ∧ Filled s .ibuf
    | .gensec => s.cap.toNat ≤ Config.lenMax

/-- Idle, with `b` as the input of `B32ENC` or `B32DEC`, and `LEN` and `CAP` in the supported range, all written since
reset. -/
def InputReady (s : State) (b : List Byte) : Prop :=
  s.phase = .idle ∧ s.len.toNat = b.length ∧ HoldsFrom s.ibuf 0 b
    ∧ b.length ≤ Config.lenMax ∧ s.cap.toNat ≤ Config.lenMax
    ∧ s.given.len = true ∧ s.given.cap = true ∧ b.length ≤ s.given.ibuf

/-- Idle, with `key` as the key and `msg` as the message of `HMAC`, both in the supported range, and with `KEYLEN` and
`LEN` written since reset. -/
def HmacReady (s : State) (key msg : List Byte) : Prop :=
  s.phase = .idle ∧ s.keyLen.toNat = key.length ∧ HoldsFrom s.kbuf 0 key
    ∧ s.len.toNat = msg.length ∧ HoldsFrom s.ibuf 0 msg
    ∧ key.length ≤ Config.lenMax ∧ msg.length ≤ Config.lenMax
    ∧ s.given.keyLen = true ∧ s.given.len = true ∧ key.length ≤ s.given.kbuf ∧ msg.length ≤ s.given.ibuf

/-- Idle, with `key` as the secret of `TOTP` in the supported range, a time step of at least 1, and with the four
operand registers written since reset. -/
def TotpReady (s : State) (key : List Byte) : Prop :=
  s.phase = .idle ∧ s.keyLen.toNat = key.length ∧ HoldsFrom s.kbuf 0 key
    ∧ key.length ≤ Config.lenMax ∧ s.tStep ≠ 0#64
    ∧ s.given.keyLen = true ∧ s.given.time = true ∧ s.given.tStep = true ∧ s.given.digits = true
    ∧ key.length ≤ s.given.kbuf

/-- Idle, with `CAP` written and in the supported range: `GENSEC` reads nothing else. -/
def SecretReady (s : State) : Prop :=
  s.phase = .idle ∧ s.cap.toNat ≤ Config.lenMax ∧ s.given.cap = true

/-- The host does not assert reset next. -/
def NoResetNext (s : State) : Prop :=
  ∀ k rest, s.host ≠ .reset k :: rest

/-! ## What a command leaves unchanged -/

/-- The operand registers, what of them and of the input buffers was written since reset, `CMD`, the input buffers and the host's side are
unchanged. -/
def KeepsOperands (s t : State) : Prop :=
  t.cmd = s.cmd ∧ t.len = s.len ∧ t.cap = s.cap ∧ t.keyLen = s.keyLen
    ∧ t.time = s.time ∧ t.tStep = s.tStep ∧ t.digits = s.digits
    ∧ t.ibuf = s.ibuf ∧ t.kbuf = s.kbuf ∧ t.host = s.host ∧ t.seen = s.seen
    ∧ t.given = { s.given with outcome := t.given.outcome, dig := t.given.dig }

/-- A run from `s` ends in `t` after `k` steps, and `k` is the first step boundary at which `PHASE = IDLE`
(`70_reset_and_hazards.md` rule R335). -/
def EndsAfter (k : Nat) (s t : State) : Prop :=
  Host.Core.run Sys2Proof.core k s = .next t ∧ t.phase = .idle
    ∧ ∀ j < k, ∃ u : State, Host.Core.run Sys2Proof.core j s = .next u ∧ u.phase ≠ .idle

/-- Some symbol before index `j` of the text completes a byte beyond the capacity (`41_base32_decode.md` rule
R170, `iB`). -/
def Overflows (text : List Byte) (cap j : Nat) : Prop :=
  ∃ i < j, (∃ v, inv (text.getD i 0#8) = .symbol v) ∧ cap < 5 * (symbolValues (text.take (i + 1))).length / 8

/-! ## The bit stream of Base32 (`20_memory.md` rule R65) -/

/-- Bit `j` of the stream of the bytes `b`, each most significant bit first; 0 beyond their end. -/
def octetBit (b : List Byte) (j : Nat) : Bool :=
  (b.getD (j / 8) 0#8).getLsbD (7 - j % 8)

/-- Bit `j` of the stream of the 5-bit values `vs`, each most significant bit first; 0 beyond their end. -/
def quintetBit (vs : List (BitVec 5)) (j : Nat) : Bool :=
  (vs.getD (j / 5) 0#5).getLsbD (4 - j % 5)

/-! ## Invariants -/

/-- How many of the bytes at indices below `n` are symbols. -/
def symbolsBelow (m : Memory) (n : Nat) : Nat :=
  ((List.range n).filter (fun i => ((Memory.read m i).bind symbolValue).isSome)).length

/-- In the encoder phases (`40_base32_encode.md` rules R139 and R143, `10_state.md` rule R23): the bits absorbed
are the bits emitted and the bits pending, at most 24 are pending, every bit above them is 0, the input is
not passed, and the capacity holds the whole text and its terminator. -/
def EncoderInv (s : State) : Prop :=
  8 * s.scratch.iidx.toNat = 5 * s.scratch.ocnt.toNat + s.scratch.pend.toNat
    ∧ s.scratch.pend.toNat ≤ 24
    ∧ s.scratch.acc.toNat < 2 ^ s.scratch.pend.toNat
    ∧ s.scratch.iidx.toNat ≤ sourceLength s
    ∧ requiredCap (sourceLength s) ≤ s.cap.toNat

/-- The encoder's input can be read: `IBUF[0..LEN-1]` has been written where `ESEL = 0`. -/
def SourceWritten (s : State) : Prop :=
  s.scratch.esel = 0#1 → Written s.ibuf s.len.toNat

/-- After the tail (rules R136 and R137): nothing is pending, and what was written is part of the text. -/
def PaddingInv (s : State) : Prop :=
  s.scratch.acc = 0#32 ∧ s.scratch.pend = 0#5
    ∧ s.scratch.ocnt.toNat ≤ textLength (sourceLength s)
    ∧ requiredCap (sourceLength s) ≤ s.cap.toNat

/-- In the decoder phases (`41_base32_decode.md` rule R181): the bits of the symbols read are the bits flushed
and the bits pending, at most 7 are pending, every bit above them is 0, and no byte is at or above `CAP`. -/
def DecoderInv (s : State) : Prop :=
  5 * symbolsBelow s.ibuf s.scratch.iidx.toNat = 8 * s.scratch.ocnt.toNat + s.scratch.pend.toNat
    ∧ s.scratch.pend.toNat ≤ 7
    ∧ s.scratch.acc.toNat < 2 ^ s.scratch.pend.toNat
    ∧ s.scratch.ocnt.toNat ≤ s.cap.toNat

/-- What holds of the HMAC phases: the message can be read where it is `IBUF`, and a `TOTP` run has passed its
digit check. -/
def MessageInv (s : State) : Prop :=
  (s.scratch.hsel = 0#1 → Written s.ibuf s.len.toNat) ∧ (s.scratch.hsel ≠ 0#1 → s.digits.toNat ≤ 8)

/-- What holds in each phase at a step boundary. -/
def PhaseInv (s : State) : Prop :=
  match s.phase with
  | .idle => True
  | .encCheck => Written s.ibuf s.len.toNat
  | .encAbsorb =>
    EncoderInv s ∧ SourceWritten s ∧ s.scratch.iidx.toNat < sourceLength s
      ∧ s.scratch.pend.toNat = 8 * s.scratch.iidx.toNat % 25
  | .encDrain => EncoderInv s ∧ s.scratch.iidx.toNat = sourceLength s
  | .encTail => EncoderInv s ∧ s.scratch.iidx.toNat = sourceLength s ∧ s.scratch.pend.toNat ≤ 4
  | .encPad => PaddingInv s
  | .encTerm => PaddingInv s ∧ s.scratch.ocnt.toNat % 8 = 0
  | .decInit => Written s.ibuf s.len.toNat
  | .decScan => DecoderInv s ∧ Written s.ibuf s.len.toNat ∧ s.scratch.iidx.toNat < s.len.toNat
  | .decEnd => DecoderInv s ∧ s.scratch.iidx.toNat = s.len.toNat
  | .hmCmd => Written s.kbuf s.keyLen.toNat ∧ Written s.ibuf s.len.toNat
  | .hmNorm => Written s.kbuf s.keyLen.toNat ∧ MessageInv s
  | .hmPads => MessageInv s
  | .hmInner => MessageInv s
  | .hmOuter => MessageInv s
  | .hmDone => True
  | .toCheck => Written s.kbuf s.keyLen.toNat ∧ s.tStep ≠ 0#64
  | .toCtr => Written s.kbuf s.keyLen.toNat ∧ s.tStep ≠ 0#64 ∧ s.digits.toNat ≤ 8
  | .toTrunc => s.digits.toNat ≤ 8
  | .gsRand => True
  | .gsCheck => True

/-- Every byte of `IBUF` and `KBUF` that counts as written since reset holds a value. -/
def GivenInv (s : State) : Prop :=
  Written s.ibuf s.given.ibuf ∧ Written s.kbuf s.given.kbuf

/-- The invariant of the machine: the buffers are in canonical form, what counts as written in them has a value, and
what its phase promises holds. -/
def Inv (s : State) : Prop :=
  Memory.wf s.ibuf ∧ Memory.wf s.kbuf ∧ Memory.wf s.obuf ∧ GivenInv s ∧ PhaseInv s

/-! ## The phase transition table (`60_exceptions.md` rule R305) -/

/-- The phase after `DEC_SCAN` has read the character `c`. -/
def afterScan (s : State) (c : Byte) : Phase :=
  let onward : Phase := if s.scratch.iidx.toNat + 1 < s.len.toNat then .decScan else .decEnd
  match inv c with
  | .invalid => .idle
  | .padding => onward
  | .symbol _ =>
    if 8 ≤ s.scratch.pend.toNat + 5 ∧ s.cap.toNat ≤ s.scratch.ocnt.toNat then .idle else onward

/-- The phase that follows each phase, under the condition the table names; `IDLE` stands for both
completions. -/
def nextPhase (s : State) : Phase :=
  match s.phase with
  | .idle => .idle
  | .encCheck =>
    if requiredCap s.len.toNat > s.cap.toNat then .idle
    else if s.len.toNat > 0 then .encAbsorb else .encDrain
  | .encAbsorb => if s.scratch.iidx.toNat + 1 < sourceLength s then .encAbsorb else .encDrain
  | .encDrain => if 5 ≤ s.scratch.pend.toNat then .encDrain else .encTail
  | .encTail => .encPad
  | .encPad => if s.scratch.ocnt.toNat % 8 ≠ 0 then .encPad else .encTerm
  | .encTerm => .idle
  | .decInit => if s.len.toNat > 0 then .decScan else .decEnd
  | .decScan => afterScan s ((Memory.read s.ibuf s.scratch.iidx.toNat).getD nul)
  | .decEnd => .idle
  | .hmCmd => .hmNorm
  | .hmNorm => .hmPads
  | .hmPads => .hmInner
  | .hmInner => .hmOuter
  | .hmOuter => if s.scratch.hsel = 0#1 then .hmDone else .toTrunc
  | .hmDone => .idle
  | .toCheck => if s.digits.toNat > 8 then .idle else .toCtr
  | .toCtr => .hmNorm
  | .toTrunc => .idle
  | .gsRand =>
    match Config.rand s.draws with
    | none => .idle
    | some _ => .gsCheck
  | .gsCheck => if s.cap.toNat < secretCap then .idle else .encAbsorb

end Sys2Proof.Machine
end

