-- ==== Sys2Proof/Certificates/Slice0/Obligations.lean ====
section
/-! DEFINITION. What is claimed of the model, statement by statement, each from a rule of the spec. -/

open Sys2Proof Sys2Proof.Machine

/-! ## Command words -/

/-- Each of the five words written out from `30_encoding.md` rule R91 decodes to its command. -/
def Obligations.SpecWordsDecode : Prop :=
  decode [0b00000001#8] = .command .b32enc [] ∧ decode [0b00000010#8] = .command .b32dec []
    ∧ decode [0b00000011#8] = .command .totp [] ∧ decode [0b00000100#8] = .command .hmac []
    ∧ decode [0b00000101#8] = .command .gensec []

/-- Decode and encode agree: a command's word decodes to it and what follows is left, and a word that decodes to a
command is that command's word. -/
def Obligations.DecodeEncodeAgree : Prop :=
  (∀ (i : Instr) (rest : List Byte), i.wf = true → decode (encode i :: rest) = .command i rest)
    ∧ ∀ (op : Byte) (rest tail : List Byte) (i : Instr),
        decode (op :: rest) = .command i tail → op = encode i ∧ tail = rest

/-- 0x00 and 0x06 to 0xFF encode no command (rule R93): the decoder rejects them by name, and a step that writes
one to `CMD` is refused. -/
def Obligations.ReservedCodesRefused : Prop :=
  ∀ (op : Byte) (rest : List Byte), op = 0x00#8 ∨ 0x06 ≤ op.toNat →
    decode (op :: rest) = .reservedCode op
      ∧ ∀ (s : State) (more : List HostAction), s.phase = .idle →
          (s.host = .command op :: more ∨ s.host = .start op :: more) →
          step s = .refused (.reservedCommand op)

/-- A step in which the host's next action is a command word runs exactly the decoded command; around `exec` it takes
the action off the host's list and leaves the word in `CMD`. The host's list is the model's own (log 9). -/
def Obligations.StepRunsDecodedCommand : Prop :=
  ∀ (s : State) (op : Byte) (rest : List HostAction) (i : Instr) (tail : List Byte),
    s.phase = .idle → s.host = .command op :: rest → decode [op] = .command i tail → i.wf = true →
    step s = exec i { s with host := rest, cmd := op }

/-- The bare write of `CMD` in `IDLE` sets `PHASE` to the command's first phase (rule R91) and changes nothing else. That the host
can offer the bare write beside the whole command is the model's choice (log 8). -/
def Obligations.StartSetsFirstPhase : Prop :=
  ∀ (s : State) (i : Instr) (rest : List HostAction), s.host = .start (encode i) :: rest → Ready i s →
    step s = .next
      { s with
        host := rest
        cmd := encode i
        phase :=
          match i with
          | .b32enc => .encCheck
          | .b32dec => .decInit
          | .totp => .toCheck
          | .hmac => .hmCmd
          | .gensec => .gsRand }

/-! ## Tables -/

/-- `ALPHA` (rule R94). -/
def Obligations.AlphabetTable : Prop :=
  ∀ v : BitVec 5,
    (v.toNat ≤ 25 → (alpha v).toNat = 0x41 + v.toNat) ∧ (26 ≤ v.toNat → (alpha v).toNat = 0x32 + (v.toNat - 26))

/-- `INV` (rule R95): the ranges of the three classes, the inverse of `ALPHA`, and how many bytes are in each class. -/
def Obligations.InverseTable : Prop :=
  (∀ c : Byte,
      (0x41 ≤ c.toNat ∧ c.toNat ≤ 0x5A → inv c = .symbol (BitVec.ofNat 5 (c.toNat - 0x41)))
        ∧ (0x32 ≤ c.toNat ∧ c.toNat ≤ 0x37 → inv c = .symbol (BitVec.ofNat 5 (c.toNat - 0x32 + 26)))
        ∧ (c = 0x3D#8 → inv c = .padding)
        ∧ (c.toNat ≤ 0x31 ∨ (0x38 ≤ c.toNat ∧ c.toNat ≤ 0x3C) ∨ (0x3E ≤ c.toNat ∧ c.toNat ≤ 0x40)
            ∨ 0x5B ≤ c.toNat → inv c = .invalid))
    ∧ (∀ v : BitVec 5, inv (alpha v) = .symbol v)
    ∧ (∀ (c : Byte) (v : BitVec 5), inv c = .symbol v → c = alpha v)
    ∧ (List.range 256).countP (fun c => decide (inv (BitVec.ofNat 8 c) = .invalid)) = 223
    ∧ (List.range 256).countP (fun c => decide (inv (BitVec.ofNat 8 c) = .padding)) = 1

/-- `POW10` (rule R101): entry `d` is `10^d` for 0 to 8, and there is no entry 9. -/
def Obligations.PowerTable : Prop :=
  (∀ d ≤ 8, (pow10 d).map BitVec.toNat = some (10 ^ d)) ∧ ∀ d, 9 ≤ d → pow10 d = none

/-! ## The function `Enc` -/

/-- `Enc` bit by bit (rules R65 and R132): its symbols are the quintets cut in order from the bit stream of the input,
each octet most significant bit first, zero bits filling the last one; then `=` up to `8*ceil(n/5)`. -/
def Obligations.EncodeCutsBitStream : Prop :=
  ∀ b : List Byte, ∃ vs : List (BitVec 5),
    vs.length = (8 * b.length + 4) / 5
      ∧ (∀ j < 5 * vs.length, quintetBit vs j = (decide (j < 8 * b.length) && octetBit b j))
      ∧ enc b = vs.map alpha ++ List.replicate (8 * ((b.length + 4) / 5) - vs.length) 0x3D#8

/-- The length law (rule R140): `8*ceil(n/5)` characters, a multiple of 8, 0 for empty input; and a successful run
reports it. -/
def Obligations.EncodeLengthLaw : Prop :=
  (∀ b : List Byte, (enc b).length = 8 * ((b.length + 4) / 5))
    ∧ ∀ s t : State, exec .b32enc s = .next t → t.err = 0#3 → t.result.toNat = 8 * ((s.len.toNat + 4) / 5)

/-- The eight symbols of a 40-bit group and the octet bits they are made of (rule R141). -/
def Obligations.GroupCrossesOctets : Prop :=
  ∀ o0 o1 o2 o3 o4 : Byte,
    enc [o0, o1, o2, o3, o4] =
      [ alpha (o0.extractLsb' 3 5)
      , alpha (o0.extractLsb' 0 3 ++ o1.extractLsb' 6 2)
      , alpha (o1.extractLsb' 1 5)
      , alpha (o1.extractLsb' 0 1 ++ o2.extractLsb' 4 4)
      , alpha (o2.extractLsb' 0 4 ++ o3.extractLsb' 7 1)
      , alpha (o3.extractLsb' 2 5)
      , alpha (o3.extractLsb' 0 2 ++ o4.extractLsb' 5 3)
      , alpha (o4.extractLsb' 0 5) ]

/-- Symbols, zero bits and `=` in the last group by `n mod 5` (rule R142). -/
def Obligations.PaddingByRemainder : Prop :=
  ∀ b : List Byte, 1 ≤ b.length →
    ∃ vs : List (BitVec 5), ∃ e z : Nat,
      enc b = vs.map alpha ++ List.replicate e 0x3D#8
        ∧ 5 * vs.length = 8 * b.length + z
        ∧ (b.length % 5 = 1 → vs.length % 8 = 2 ∧ z = 2 ∧ e = 6)
        ∧ (b.length % 5 = 2 → vs.length % 8 = 4 ∧ z = 4 ∧ e = 4)
        ∧ (b.length % 5 = 3 → vs.length % 8 = 5 ∧ z = 1 ∧ e = 3)
        ∧ (b.length % 5 = 4 → vs.length % 8 = 7 ∧ z = 3 ∧ e = 1)
        ∧ (b.length % 5 = 0 → vs.length % 8 = 0 ∧ z = 0 ∧ e = 0)

/-! ## The function `Dec` -/

/-- `Dec` bit by bit (rules R65 and R183): `floor(5s/8)` octets cut in order from the bit stream of the symbols' values,
the bits left over dropped. -/
def Obligations.DecodeCutsBitStream : Prop :=
  ∀ text : List Byte,
    (dec text).length = 5 * (symbolValues text).length / 8
      ∧ ∀ j < 8 * (dec text).length, octetBit (dec text) j = quintetBit (symbolValues text) j

/-- The five octets of a group of eight symbols (rule R182). -/
def Obligations.GroupCrossesQuintets : Prop :=
  ∀ s0 s1 s2 s3 s4 s5 s6 s7 : BitVec 5,
    dec ([s0, s1, s2, s3, s4, s5, s6, s7].map alpha) =
      [ s0 ++ s1.extractLsb' 2 3
      , s1.extractLsb' 0 2 ++ s2 ++ s3.extractLsb' 4 1
      , s3.extractLsb' 0 4 ++ s4.extractLsb' 1 4
      , s4.extractLsb' 0 1 ++ s5 ++ s6.extractLsb' 3 2
      , s6.extractLsb' 0 3 ++ s7 ]

/-- `=` contributes nothing wherever it stands (rule R175): not to the text's meaning, and in the decoder's run it changes
nothing but `IIDX` (and the phase, when it is the last character). -/
def Obligations.PaddingContributesNothing : Prop :=
  (∀ x y : List Byte, dec (x ++ 0x3D#8 :: y) = dec (x ++ y))
    ∧ ∀ s : State, s.phase = .decScan → s.scratch.iidx.toNat < s.len.toNat →
        Memory.read s.ibuf s.scratch.iidx.toNat = some 0x3D#8 →
        phaseStep s = .next
          { s with
            scratch := { s.scratch with iidx := s.scratch.iidx + 1#32 }
            phase := if s.scratch.iidx.toNat + 1 < s.len.toNat then .decScan else .decEnd }

/-- The inverse law (rule R179): decoding an encoding gives the bytes back; after a successful `B32ENC` of `b`, a `B32DEC` of
the characters it wrote, the NUL not counted, with those, `LEN` and `CAP` written since reset and room for `b`, succeeds and gives `b` back; and `Dec` is not injective:
`"MY"`, `"MZ"`, `"MY======"` and `"=M=Y="` all decode to 0x66. -/
def Obligations.InverseLaw : Prop :=
  (∀ b : List Byte, dec (enc b) = b)
    ∧ (∀ (s t u : State) (b : List Byte), InputReady s b → exec .b32enc s = .next t → t.err = 0#3 →
        u.phase = .idle → u.given.len = true → u.given.cap = true → u.len = t.result →
        (∀ k < t.result.toNat, Memory.read u.ibuf k = Memory.read t.obuf k) → t.result.toNat ≤ u.given.ibuf →
        b.length ≤ u.cap.toNat → u.cap.toNat ≤ Config.lenMax →
        ∃ w, exec .b32dec u = .next w ∧ w.result.toNat = b.length ∧ w.err = 0#3 ∧ HoldsFrom w.obuf 0 b)
    ∧ dec [0x4D#8, 0x59#8] = [0x66#8] ∧ dec [0x4D#8, 0x5A#8] = [0x66#8]
    ∧ dec ([0x4D#8, 0x59#8] ++ List.replicate 6 0x3D#8) = [0x66#8]
    ∧ dec [0x3D#8, 0x4D#8, 0x3D#8, 0x59#8, 0x3D#8] = [0x66#8]

/-! ## `B32ENC` -/

/-- `B32ENC` (rules R130 and R132): without room for the text and its terminator it fails with `BufferTooSmall`; otherwise the
text and a NUL after it are in `OBUF` and `RESULT` is the text's length. -/
def Obligations.EncodeComputes : Prop :=
  ∀ (s : State) (b : List Byte), InputReady s b →
    ∃ t, exec .b32enc s = .next t ∧ t.phase = .idle
      ∧ if s.cap.toNat < 8 * ((b.length + 4) / 5) + 1 then t.result = 0xFFFFFFFF#32 ∧ t.err = 2#3
        else t.result.toNat = 8 * ((b.length + 4) / 5) ∧ t.err = 0#3 ∧ HoldsFrom t.obuf 0 (enc b ++ [0x00#8])

/-- Phase `ENC_ABSORB` (rules R133 and R134): one octet enters below the pending bits; when 25 are pending the five leading
quintets are written as symbols, most significant first, and the rest stays pending. -/
def Obligations.AbsorbStep : Prop :=
  ∀ (s : State) (o : Byte) (a p : Nat), s.phase = .encAbsorb → sourceRead s = .ok o → s.scratch.pend.toNat ≤ 24 →
    a = (s.scratch.acc.toNat * 256 + o.toNat) % 2 ^ 32 → p = s.scratch.pend.toNat + 8 →
    (25 ≤ p → s.scratch.ocnt.toNat + 5 ≤ s.cap.toNat) →
    ∃ t, phaseStep s = .next t
      ∧ t.scratch.iidx.toNat = s.scratch.iidx.toNat + 1
      ∧ t.phase = (if s.scratch.iidx.toNat + 1 < sourceLength s then .encAbsorb else .encDrain)
      ∧ (p < 25 →
          t.scratch.pend.toNat = p ∧ t.scratch.acc.toNat = a ∧ t.scratch.ocnt = s.scratch.ocnt ∧ t.obuf = s.obuf)
      ∧ (25 ≤ p →
          t.scratch.pend.toNat = p - 25 ∧ t.scratch.acc.toNat = a % 2 ^ (p - 25)
            ∧ t.scratch.ocnt.toNat = s.scratch.ocnt.toNat + 5
            ∧ (∀ k < 5, Memory.read t.obuf (s.scratch.ocnt.toNat + k)
                  = some (alpha (BitVec.ofNat 5 (a / 2 ^ (p - 5 * (k + 1))))))
            ∧ ∀ i, i < s.scratch.ocnt.toNat ∨ s.scratch.ocnt.toNat + 5 ≤ i →
                Memory.read t.obuf i = Memory.read s.obuf i)

/-- Empty input (rule R144). That no other byte of `OBUF` changes is the spec's decision D13 of rule R80, for which the
spec allows a model an alternative (log 16). -/
def Obligations.EncodeEmptyInput : Prop :=
  ∀ s : State, InputReady s [] →
    (1 ≤ s.cap.toNat →
        ∃ t, exec .b32enc s = .next t ∧ Memory.read t.obuf 0 = some 0x00#8 ∧ SameFrom 1 s.obuf t.obuf
          ∧ t.result = 0#32 ∧ t.err = 0#3)
      ∧ (s.cap.toNat = 0 →
          ∃ t, exec .b32enc s = .next t ∧ t.result = 0xFFFFFFFF#32 ∧ t.err = 2#3)

/-! ## `B32DEC` -/

/-- `B32DEC` (rules R170 and R183), with `j` the index of the first invalid character, or the number of characters if there is
none: `BufferTooSmall` when a symbol before `j` completes a byte beyond the capacity, else `InvalidCharacter` when `j` is in the
text, else the decoded bytes in `OBUF` and their number in `RESULT`. -/
def Obligations.DecodeComputes : Prop :=
  ∀ (s : State) (text : List Byte) (j : Nat), InputReady s text →
    j ≤ text.length → (∀ i < j, inv (text.getD i 0#8) ≠ .invalid) →
    (j < text.length → inv (text.getD j 0#8) = .invalid) →
    ∃ t, exec .b32dec s = .next t ∧ t.phase = .idle
      ∧ (Overflows text s.cap.toNat j → t.result = 0xFFFFFFFF#32 ∧ t.err = 2#3)
      ∧ (¬ Overflows text s.cap.toNat j → j < text.length → t.result = 0xFFFFFFFF#32 ∧ t.err = 1#3)
      ∧ (¬ Overflows text s.cap.toNat j → j = text.length →
          t.result.toNat = (dec text).length ∧ t.err = 0#3 ∧ HoldsFrom t.obuf 0 (dec text))

/-- Phase `DEC_SCAN` (rules R172, R173 and R174): an invalid character fails; `=` only moves on; a symbol's five bits enter below
the pending bits, and when 8 are pending the leading eight are written as a byte, or the command fails when `OCNT` has reached
`CAP`. -/
def Obligations.ScanStep : Prop :=
  ∀ (s : State) (c : Byte), s.phase = .decScan → s.scratch.iidx.toNat < s.len.toNat → s.scratch.pend.toNat ≤ 7 →
    Memory.read s.ibuf s.scratch.iidx.toNat = some c →
    ∃ t, phaseStep s = .next t
      ∧ (inv c = .invalid → t.result = 0xFFFFFFFF#32 ∧ t.err = 1#3 ∧ t.phase = .idle)
      ∧ (inv c = .padding →
          t.scratch.acc = s.scratch.acc ∧ t.scratch.pend = s.scratch.pend ∧ t.scratch.ocnt = s.scratch.ocnt
            ∧ t.obuf = s.obuf)
      ∧ (∀ (v : BitVec 5) (a p : Nat), inv c = .symbol v →
          a = (s.scratch.acc.toNat * 32 + v.toNat) % 2 ^ 32 → p = s.scratch.pend.toNat + 5 →
          (p < 8 →
              t.scratch.acc.toNat = a ∧ t.scratch.pend.toNat = p ∧ t.scratch.ocnt = s.scratch.ocnt ∧ t.obuf = s.obuf)
            ∧ (8 ≤ p → s.cap.toNat ≤ s.scratch.ocnt.toNat →
                t.result = 0xFFFFFFFF#32 ∧ t.err = 2#3 ∧ t.phase = .idle)
            ∧ (8 ≤ p → s.scratch.ocnt.toNat < s.cap.toNat →
                t.scratch.acc.toNat = a % 2 ^ (p - 8) ∧ t.scratch.pend.toNat = p - 8
                  ∧ t.scratch.ocnt.toNat = s.scratch.ocnt.toNat + 1
                  ∧ t.obuf = Memory.write s.obuf s.scratch.ocnt.toNat (BitVec.ofNat 8 (a / 2 ^ (p - 8)))))
      ∧ (t.phase ≠ .idle →
          t.scratch.iidx.toNat = s.scratch.iidx.toNat + 1
            ∧ t.phase = (if s.scratch.iidx.toNat + 1 < s.len.toNat then .decScan else .decEnd))

/-- `B32DEC` reports the fault met first in reading order (rules R177 and R299): after characters `x` without a fault, an
invalid character gives `InvalidCharacter`, a symbol that completes a byte beyond `CAP` gives `BufferTooSmall`, whatever
stands after it. -/
def Obligations.DecodeReportsFirstFault : Prop :=
  ∀ (s : State) (x y : List Byte) (c : Byte), InputReady s (x ++ c :: y) → (∀ d ∈ x, inv d ≠ .invalid) →
    5 * (symbolValues x).length / 8 ≤ s.cap.toNat →
    (inv c = .invalid →
        ∃ t, exec .b32dec s = .next t ∧ t.result = 0xFFFFFFFF#32 ∧ t.err = 1#3 ∧ t.phase = .idle)
      ∧ ((∃ v, inv c = .symbol v) → s.cap.toNat < 5 * ((symbolValues x).length + 1) / 8 →
          ∃ t, exec .b32dec s = .next t ∧ t.result = 0xFFFFFFFF#32 ∧ t.err = 2#3 ∧ t.phase = .idle)

/-! ## `HMAC` -/

/-- `HMAC` (rules R200 and R201): with `k` the key, or its hash when it is longer than 64 bytes, zero-padded to 64 bytes,
`DIG` is `H((k xor 0x5c..) || H((k xor 0x36..) || message))`. -/
def Obligations.HmacComputes : Prop :=
  ∀ (s : State) (key msg k : List Byte), HmacReady s key msg →
    k = (if key.length > 64 then (Config.hash key).toList else key) →
    ∃ t, exec .hmac s = .next t
      ∧ t.dig = Config.hash
          ((k ++ List.replicate (64 - k.length) 0x00#8).map (· ^^^ 0x5c#8)
            ++ (Config.hash ((k ++ List.replicate (64 - k.length) 0x00#8).map (· ^^^ 0x36#8) ++ msg)).toList)
      ∧ t.result = 20#32 ∧ t.err = 0#3 ∧ t.phase = .idle

/-- Phase `HM_NORM` by key length (rule R202): at most 64 bytes, the key then zeros; above 64, the 20 bytes of its
hash then 44 zeros. -/
def Obligations.KeyNormalised : Prop :=
  ∀ (s : State) (key : List Byte), s.phase = .hmNorm → s.keyLen.toNat = key.length → HoldsFrom s.kbuf 0 key →
    ∃ t, phaseStep s = .next t ∧ t.phase = .hmPads
      ∧ (key.length ≤ 64 → t.scratch.kblk.toList = key ++ List.replicate (64 - key.length) 0x00#8)
      ∧ (64 < key.length → t.scratch.kblk.toList = (Config.hash key).toList ++ List.replicate 44 0x00#8)

/-! ## `TOTP` -/

/-- `TOTP` with a legal digit count (rules R230 and R245). -/
def Obligations.TotpComputes : Prop :=
  ∀ (s : State) (key d : List Byte) (off : Nat), TotpReady s key → s.digits.toNat ≤ 8 →
    d = (hmac Config.hash key (be8 (s.time / s.tStep)).toList).toList → off = (d.getD 19 0#8).toNat % 16 →
    ∃ t, exec .totp s = .next t
      ∧ t.result.toNat =
          (((d.getD off 0#8).toNat % 128) * 2 ^ 24 + (d.getD (off + 1) 0#8).toNat * 2 ^ 16
            + (d.getD (off + 2) 0#8).toNat * 2 ^ 8 + (d.getD (off + 3) 0#8).toNat) % 10 ^ s.digits.toNat
      ∧ t.err = 0#3 ∧ t.phase = .idle

/-- `TOTP` with any other digit count (rules R231 and R293), read as signed or unsigned. -/
def Obligations.TotpRejectsDigitCount : Prop :=
  ∀ (s : State) (key : List Byte), TotpReady s key → 8 < s.digits.toNat ∨ s.digits.toInt < 0 →
    ∃ t, exec .totp s = .next t
      ∧ t.result = 0xFFFFFFFF#32 ∧ t.err = 3#3 ∧ t.phase = .idle

/-- The window law (rule R234): all times with the same quotient by `TSTEP` give the same `RESULT`; the counter bytes change at
each multiple of the step. -/
def Obligations.TotpWindowLaw : Prop :=
  (∀ (s : State) (key : List Byte) (time' : DWord), TotpReady s key →
      time'.toNat / s.tStep.toNat = s.time.toNat / s.tStep.toNat →
      ∃ t u, exec .totp s = .next t ∧ exec .totp { s with time := time' } = .next u
        ∧ u.result = t.result ∧ u.err = t.err)
    ∧ ∀ (m : Nat) (tStep time time' : DWord), 1 ≤ m → tStep ≠ 0#64 →
        time.toNat = m * tStep.toNat → time'.toNat + 1 = time.toNat →
        be8 (time' / tStep) ≠ be8 (time / tStep)

/-- The range of a code (rule R239). -/
def Obligations.CodeRange : Prop :=
  ∀ s t : State, exec .totp s = .next t → t.err = 0#3 →
    t.result.toNat ≤ 10 ^ s.digits.toNat - 1 ∧ t.result.toNat ≤ 99999999 ∧ t.result.toNat < 2 ^ 27
      ∧ t.result ≠ 0xFFFFFFFF#32 ∧ t.result.getLsbD 31 = false

/-- `DIGITS = 0` is legal and gives 0 whatever the secret and the time (rule R240). -/
def Obligations.ZeroDigitsGiveZero : Prop :=
  ∀ (s : State) (key : List Byte), TotpReady s key → s.digits = 0#32 →
    ∃ t, exec .totp s = .next t ∧ t.result = 0#32 ∧ t.err = 0#3

/-- Phase `TO_CTR` (rules R98 and R233): `CTR` is the quotient's eight bytes, `CTR[0]` the most significant; `HSEL` becomes 1. -/
def Obligations.CounterSerialised : Prop :=
  ∀ s : State, s.phase = .toCtr → s.tStep ≠ 0#64 →
    ∃ t, phaseStep s = .next t ∧ t.phase = .hmNorm ∧ t.scratch.hsel = 1#1
      ∧ (∀ i < 8, (t.scratch.ctr.toList.getD i 0#8).toNat
            = s.time.toNat / s.tStep.toNat / 2 ^ (56 - 8 * i) % 256)
      ∧ beValue t.scratch.ctr.toList = s.time.toNat / s.tStep.toNat

/-- The extractor (rules R235 to R237): the offset is the low nibble of byte 19; the field is four bytes from there,
big-endian; the mask clears bit 31 and no other. -/
def Obligations.ExtractorFields : Prop :=
  ∀ d : Digest,
    (offsetField d).toNat = (d.toList.getD 19 0#8).toNat % 16
      ∧ (∀ off : BitVec 4,
          (truncField d off).toNat =
            (d.toList.getD off.toNat 0#8).toNat * 2 ^ 24 + (d.toList.getD (off.toNat + 1) 0#8).toNat * 2 ^ 16
              + (d.toList.getD (off.toNat + 2) 0#8).toNat * 2 ^ 8 + (d.toList.getD (off.toNat + 3) 0#8).toNat)
      ∧ ∀ (p : Word) (j : Nat), j < 31 → (truncMask p).getLsbD j = p.getLsbD j

/-! ## `GENSEC` -/

/-- `GENSEC` for every answer of the random port (rules R270 and R275): one draw; a failed draw wins over a small capacity;
otherwise the text of the drawn bytes and a NUL after it are in `OBUF`. -/
def Obligations.SecretGenerated : Prop :=
  ∀ s : State, SecretReady s →
    ∃ t, exec .gensec s = .next t ∧ t.phase = .idle ∧ t.draws = s.draws + 1
      ∧ match Config.rand s.draws with
        | none => t.result = 0xFFFFFFFF#32 ∧ t.err = 4#3
        | some r =>
          if s.cap.toNat < 33 then t.result = 0xFFFFFFFF#32 ∧ t.err = 2#3
          else t.result = 32#32 ∧ t.err = 0#3 ∧ HoldsFrom t.obuf 0 (enc r.toList ++ [0x00#8])

/-- The form of a secret's text (rule R274): 32 symbols of the alphabet, no `=`. -/
def Obligations.SecretTextForm : Prop :=
  ∀ r : Vector Byte 20, (enc r.toList).length = 32 ∧ ∀ c ∈ enc r.toList, ∃ v, c = alpha v

/-- The round trip of a secret (rule R276), for every source of random bytes: `B32DEC` of the text that `GENSEC` wrote, with
`LEN = 32` and room for 20 bytes, returns the drawn bytes. -/
def Obligations.SecretRoundTrip : Prop :=
  ∀ (E : Env) (s : State) (r : Vector Byte 20), E.binding = .separate → E.rand s.draws = some r →
    SecretReady s → 33 ≤ s.cap.toNat →
    ∃ t, gensecWith E s = .next t
      ∧ ∀ u : State, u.phase = .idle → u.given.len = true → u.given.cap = true → u.len = 32#32 →
          (∀ k < 32, Memory.read u.ibuf k = Memory.read t.obuf k) → 32 ≤ u.given.ibuf →
          20 ≤ u.cap.toNat → u.cap.toNat ≤ Config.lenMax →
          ∃ w, exec .b32dec u = .next w ∧ w.result = 20#32 ∧ w.err = 0#3 ∧ HoldsFrom w.obuf 0 r.toList

/-! ## Completion, errors, frames -/

/-- A command never faults; it completes exactly when it may start, and is refused otherwise (rules R295, R300, R303). Of the
refused situations U6 cannot arise, since the binding in use is the spec's default of three disjoint spaces (rule R71, decision
D11), which is the model's choice (log 10). -/
def Obligations.CompletesExactlyWhenReady : Prop :=
  ∀ (i : Instr) (s : State),
    (Ready i s → ∃ t, exec i s = .next t ∧ t.phase = .idle) ∧ (¬ Ready i s → ∃ r, exec i s = .refused r)

/-- The `ERR` codes each command can leave (rule R102), and `ERR` is not 0 exactly when `RESULT` is the sentinel (rule R32). -/
def Obligations.ErrorCodesByCommand : Prop :=
  ∀ (i : Instr) (s t : State), exec i s = .next t →
    (match i with
      | .b32enc => t.err = 0#3 ∨ t.err = 2#3
      | .b32dec => t.err = 0#3 ∨ t.err = 1#3 ∨ t.err = 2#3
      | .totp => t.err = 0#3 ∨ t.err = 3#3
      | .hmac => t.err = 0#3
      | .gensec => t.err = 0#3 ∨ t.err = 2#3 ∨ t.err = 4#3)
      ∧ (t.err ≠ 0#3 ↔ t.result = 0xFFFFFFFF#32)

/-- The values of `RESULT` (rule R103): on success in the command's range, on failure the sentinel, so that bit 31 is set
exactly on failure. -/
def Obligations.ResultValues : Prop :=
  ∀ (i : Instr) (s t : State), exec i s = .next t →
    (t.err ≠ 0#3 → t.result = 0xFFFFFFFF#32)
      ∧ (t.result.getLsbD 31 = true ↔ t.err ≠ 0#3)
      ∧ (t.err = 0#3 →
          match i with
          | .b32enc => t.result.toNat = 8 * ((s.len.toNat + 4) / 5) ∧ t.result.toNat + 1 ≤ s.cap.toNat
          | .b32dec => t.result.toNat ≤ s.cap.toNat
          | .totp => t.result.toNat ≤ 10 ^ s.digits.toNat - 1
          | .hmac => t.result = 20#32
          | .gensec => t.result = 32#32)

/-- What a command leaves unchanged (rules R27, R39, R41, R64): the operand registers and the input buffers always; `OBUF` in
`HMAC` and `TOTP`; `DIG` in every command but `HMAC`; only `GENSEC` calls the random port, once. Of what counts as written,
every command adds `RESULT` and `ERR`, and `HMAC` alone adds `DIG`. That a failed `TOTP` leaves
`OBUF` is the model's choice (log 4). -/
def Obligations.CommandFrame : Prop :=
  ∀ (i : Instr) (s t : State), exec i s = .next t →
    KeepsOperands s t
      ∧ (i = .hmac ∨ i = .totp → t.obuf = s.obuf)
      ∧ (i ≠ .hmac → t.dig = s.dig)
      ∧ t.given = { s.given with outcome := true, dig := (if i = .hmac then true else s.given.dig) }
      ∧ t.draws = (if i = .gensec then s.draws + 1 else s.draws)

/-- What a command stores to `OBUF` (rule R80): on success the bytes of its result and no other; on failure nothing at or above
`CAP`. -/
def Obligations.OutputBufferFrame : Prop :=
  ∀ (i : Instr) (s t : State), exec i s = .next t →
    (t.err = 0#3 →
        match i with
        | .b32enc => SameFrom (t.result.toNat + 1) s.obuf t.obuf
        | .b32dec => SameFrom t.result.toNat s.obuf t.obuf
        | .totp => t.obuf = s.obuf
        | .hmac => t.obuf = s.obuf
        | .gensec => SameFrom (t.result.toNat + 1) s.obuf t.obuf)
      ∧ (t.err ≠ 0#3 → SameFrom s.cap.toNat s.obuf t.obuf)

/-- The capacity rule (rule R63): no command and no phase rule, in any state, writes `OBUF` at or above `CAP`. -/
def Obligations.CapacityRule : Prop :=
  (∀ (i : Instr) (s t : State), exec i s = .next t → SameFrom s.cap.toNat s.obuf t.obuf)
    ∧ ∀ s t : State, phaseStep s = .next t → SameFrom s.cap.toNat s.obuf t.obuf

/-- Statelessness (rules R10 and R33): no command's outcome depends on the scratch, on `RESULT` or `ERR` as an earlier command
left them, or on whether there was an earlier command. -/
def Obligations.CommandsAreStateless : Prop :=
  ∀ (i : Instr) (s : State) (scratch : Scratch) (result : Word) (err : BitVec 3) (outcome : Bool),
    exec i { s with scratch := scratch, result := result, err := err, given := { s.given with outcome := outcome } }
      = exec i s

/-- Failure completion (rule R296): sentinel, code, `IDLE`; the scratch released; `DIG`, the input buffers, the operand registers
and `OBUF` at and above `CAP` unchanged. That the released scratch holds the free values `freeScratch` names is the model's
choice (log 5). -/
def Obligations.FailureCompletion : Prop :=
  ∀ (v : ErrorVariant) (s : State),
    (raise v s).result = 0xFFFFFFFF#32
      ∧ (raise v s).err =
          (match v with
          | .invalidCharacter => 1#3
          | .bufferTooSmall => 2#3
          | .invalidDigitCount => 3#3
          | .randomSourceFailure => 4#3)
      ∧ (raise v s).phase = .idle ∧ (raise v s).dig = s.dig ∧ KeepsOperands s (raise v s)
      ∧ SameFrom s.cap.toNat s.obuf (raise v s).obuf ∧ (raise v s).scratch = freeScratch s.fresh

/-! ## Refused situations -/

/-- `TOTP` with `TSTEP = 0` is refused, whatever `DIGITS` (rule R232), and by that name where its operand registers were written
and `KEYLEN` is in range. Which name the refusal has when other reasons hold too is the
model's choice (log 13). -/
def Obligations.ZeroStepRefused : Prop :=
  ∀ s : State, s.phase = .idle → s.tStep = 0#64 →
    (∃ r, exec .totp s = .refused r)
      ∧ (OperandsGiven .totp s → s.keyLen.toNat ≤ 2147483647 → exec .totp s = .refused .zeroTimeStep)

/-- Starts that are refused: any command while one is running (item U17, rules R30 and R337, under a name that is the model's
choice where other reasons hold too, log 13); and of rule R303 a command that reads an operand register never written since
reset (U8), a length register above `LENMAX` (U4), an input byte not written since reset (U8), or an input byte that was never
written at all (U8). -/
def Obligations.MeaninglessStartsRefused : Prop :=
  ∀ s : State,
    (s.phase ≠ .idle → ∀ i : Instr, exec i s = .refused .commandInProgress)
      ∧ (s.given.len = false → ∀ i : Instr, i = .b32enc ∨ i = .b32dec ∨ i = .hmac → ∃ r, exec i s = .refused r)
      ∧ (s.given.cap = false → ∀ i : Instr, i = .b32enc ∨ i = .b32dec ∨ i = .gensec → ∃ r, exec i s = .refused r)
      ∧ (s.given.keyLen = false → ∀ i : Instr, i = .hmac ∨ i = .totp → ∃ r, exec i s = .refused r)
      ∧ (s.given.time = false ∨ s.given.tStep = false ∨ s.given.digits = false → ∃ r, exec .totp s = .refused r)
      ∧ (2147483647 < s.len.toNat →
          ∀ i : Instr, i = .b32enc ∨ i = .b32dec ∨ i = .hmac → ∃ r, exec i s = .refused r)
      ∧ (2147483647 < s.cap.toNat →
          ∀ i : Instr, i = .b32enc ∨ i = .b32dec ∨ i = .gensec → ∃ r, exec i s = .refused r)
      ∧ (2147483647 < s.keyLen.toNat → ∀ i : Instr, i = .hmac ∨ i = .totp → ∃ r, exec i s = .refused r)
      ∧ (s.given.ibuf < s.len.toNat →
          ∀ i : Instr, i = .b32enc ∨ i = .b32dec ∨ i = .hmac → ∃ r, exec i s = .refused r)
      ∧ (s.given.kbuf < s.keyLen.toNat → ∀ i : Instr, i = .hmac ∨ i = .totp → ∃ r, exec i s = .refused r)
      ∧ (∀ a < s.len.toNat, Memory.read s.ibuf a = none →
          ∀ i : Instr, i = .b32enc ∨ i = .b32dec ∨ i = .hmac → ∃ r, exec i s = .refused r)
      ∧ (∀ a < s.keyLen.toNat, Memory.read s.kbuf a = none →
          ∀ i : Instr, i = .hmac ∨ i = .totp → ∃ r, exec i s = .refused r)

/-- Under a binding into one memory, every command is refused when two of the regions `IBUF[0..LEN-1]`, `KBUF[0..KEYLEN-1]` and
`OBUF[0..CAP-1]` have an address in common (rule R71), whether or not the command uses them (log 10). -/
def Obligations.OverlapRefused : Prop :=
  ∀ (E : Env) (s : State) (x y z a b : Nat), E.binding = .mapped x y z →
    (a < s.len.toNat ∧ b < s.cap.toNat ∧ x + a = z + b)
      ∨ (a < s.len.toNat ∧ b < s.keyLen.toNat ∧ x + a = y + b)
      ∨ (a < s.keyLen.toNat ∧ b < s.cap.toNat ∧ y + a = z + b) →
    (∃ r, b32encWith E s = .refused r) ∧ (∃ r, b32decWith E s = .refused r) ∧ (∃ r, totpWith E s = .refused r)
      ∧ (∃ r, hmacWith E s = .refused r) ∧ ∃ r, gensecWith E s = .refused r

/-! ## The step level -/

/-- The encoder's phases realise `B32ENC` (rules R5, R139 and R336): from the write of `CMD` the run ends, after exactly the
steps counted, in the state the command level gives. -/
def Obligations.EncoderRunIsCommand : Prop :=
  ∀ (s : State) (b : List Byte), InputReady s b → NoResetNext s →
    ∃ t, exec .b32enc s = .next t ∧ EndsAfter (stepCount .b32enc b none s) (enter .b32enc s) t

/-- The decoder's phases realise `B32DEC` (rules R5 and R336). -/
def Obligations.DecoderRunIsCommand : Prop :=
  ∀ (s : State) (text : List Byte), InputReady s text → NoResetNext s →
    ∃ t, exec .b32dec s = .next t ∧ EndsAfter (stepCount .b32dec text none s) (enter .b32dec s) t

/-- The phases of `GENSEC` and of the encoder on `RND` realise `GENSEC` (rules R5, R273 and R336). -/
def Obligations.SecretRunIsCommand : Prop :=
  ∀ s : State, SecretReady s → NoResetNext s →
    ∃ t, exec .gensec s = .next t ∧ EndsAfter (stepCount .gensec [] (Config.rand s.draws) s) (enter .gensec s) t

/-- The HMAC phases realise `HMAC` in six steps (rules R5 and R336). -/
def Obligations.HmacRunIsCommand : Prop :=
  ∀ (s : State) (key msg : List Byte), HmacReady s key msg → NoResetNext s →
    ∃ t, exec .hmac s = .next t ∧ EndsAfter 6 (enter .hmac s) t

/-- The TOTP and HMAC phases realise `TOTP`, in seven steps, or in one when the digit count is illegal (rules R5 and R336). -/
def Obligations.TotpRunIsCommand : Prop :=
  ∀ (s : State) (key : List Byte), TotpReady s key → NoResetNext s →
    ∃ t, exec .totp s = .next t ∧ EndsAfter (if 8 < s.digits.toNat then 1 else 7) (enter .totp s) t

/-- The phase transition table (rule R305): in every state a phase rule that does not stop goes to the phase the table names. -/
def Obligations.PhaseTransitions : Prop :=
  ∀ s t : State, phaseStep s = .next t → t.phase = nextPhase s

/-! ## The machine -/

/-- What reset leaves: `IDLE` (rules R43 and R330), and no register and no byte of `IBUF` and `KBUF` that counts as written since
(rule R43, item U8). That no buffer byte has ever been written then is the model's choice (log 3). -/
def Obligations.ResetLeavesIdle : Prop :=
  State.reset.phase = .idle ∧ State.reset.ibuf = [] ∧ State.reset.kbuf = [] ∧ State.reset.obuf = []
    ∧ State.reset.given.ibuf = 0 ∧ State.reset.given.kbuf = 0 ∧ ∀ r : RegName, isGiven State.reset r = false

/-- The invariant holds at reset. -/
def Obligations.InvariantAtReset : Prop :=
  Inv State.reset

/-- Every step keeps the invariant, from every state that satisfies it: the buffers stay canonical and what counts as written in
them has a value; in the encoder
`8*IIDX = 5*OCNT + PEND` with at most 24 bits pending (8*IIDX mod 25 of them while absorbing), in the decoder
`5*symbols = 8*OCNT + PEND` with at most 7, every bit of `ACC` above them 0 (rules R22, R23, R139, R143, R181). -/
def Obligations.StepKeepsInvariant : Prop :=
  ∀ s t : State, Inv s → step s = .next t → Inv t

/-- A running command never stops: from every state that satisfies the invariant and is not idle, a step gives a next state;
no rule forms an access out of range (rules R62 and R295). -/
def Obligations.RunningNeverStops : Prop :=
  ∀ s : State, Inv s → s.phase ≠ .idle → ∃ t, step s = .next t

/-- A host write of an operand register (rules R27 to R29 and R106) changes that register, which then counts as written (item
U8), and nothing else. -/
def Obligations.HostWritesRegister : Prop :=
  ∀ (s : State) (rest : List HostAction) (v : Word) (d : DWord), s.phase = .idle →
    (s.host = .writeLen v :: rest →
          step s = .next { s with host := rest, len := v, given := { s.given with len := true } })
      ∧ (s.host = .writeCap v :: rest →
          step s = .next { s with host := rest, cap := v, given := { s.given with cap := true } })
      ∧ (s.host = .writeKeyLen v :: rest →
          step s = .next { s with host := rest, keyLen := v, given := { s.given with keyLen := true } })
      ∧ (s.host = .writeTime d :: rest →
          step s = .next { s with host := rest, time := d, given := { s.given with time := true } })
      ∧ (s.host = .writeTStep d :: rest →
          step s = .next { s with host := rest, tStep := d, given := { s.given with tStep := true } })
      ∧ (s.host = .writeDigits v :: rest →
          step s = .next { s with host := rest, digits := v, given := { s.given with digits := true } })

/-- A host load fills a buffer from index 0 (rule R106) and leaves its other bytes and the other two buffers as they were; the
bytes filled of `IBUF` or `KBUF` count as written since reset (item U8). -/
def Obligations.HostLoadFillsBuffer : Prop :=
  ∀ (s : State) (b : BufferId) (bytes : List Byte) (rest : List HostAction), s.phase = .idle →
    s.host = .load b bytes :: rest →
    ∃ t, step s = .next t ∧ HoldsFrom (buffer t b) 0 bytes ∧ SameFrom bytes.length (buffer s b) (buffer t b)
      ∧ (∀ c : BufferId, c ≠ b → buffer t c = buffer s c)
      ∧ t.given.ibuf = (if b = .ibuf then max s.given.ibuf bytes.length else s.given.ibuf)
      ∧ t.given.kbuf = (if b = .kbuf then max s.given.kbuf bytes.length else s.given.kbuf)

/-- A host read in `IDLE` reports what `RESULT`, `ERR`, `DIG` and `OBUF` hold and changes nothing of the CORE (rules R69, R106
and R337). Where nothing has given a register a value since reset the read is given no value (rule R43, item U8): it reports
that there is none, a form of the report that is the model's choice (log 20). A read of a byte of `OBUF` that nothing has written
is no move of the host's (rule R337) and is refused. That `n` is not bounded by `CAP` is the model's choice (log 21). -/
def Obligations.HostReadsReport : Prop :=
  ∀ (s : State) (rest : List HostAction) (n : Nat) (b : List Byte), s.phase = .idle →
    (s.host = .readResult :: rest →
        (s.given.outcome = true → step s = .next { s with host := rest, seen := s.seen ++ [.result (some s.result)] })
          ∧ (s.given.outcome = false → step s = .next { s with host := rest, seen := s.seen ++ [.result none] }))
      ∧ (s.host = .readErr :: rest →
          (s.given.outcome = true → step s = .next { s with host := rest, seen := s.seen ++ [.err (some s.err)] })
            ∧ (s.given.outcome = false → step s = .next { s with host := rest, seen := s.seen ++ [.err none] }))
      ∧ (s.host = .readObuf n :: rest →
          (b.length = n → HoldsFrom s.obuf 0 b → step s = .next { s with host := rest, seen := s.seen ++ [.obuf b] })
            ∧ ((∃ a < n, Memory.read s.obuf a = none) → step s = .refused (.unwrittenByte .obuf)))
      ∧ (s.host = .readDig n :: rest → n ≤ 20 →
          (s.given.dig = true →
              step s = .next { s with host := rest, seen := s.seen ++ [.dig (some (s.dig.toList.take n))] })
            ∧ (s.given.dig = false → step s = .next { s with host := rest, seen := s.seen ++ [.dig none] }))

/-- Reset asserted by the host, in `IDLE` or during a command (rule R330): the machine is in `IDLE`, `IBUF` and `KBUF` are not
touched, `OBUF` at and above `CAP` is not touched, and none of it when no command was running; no operand register, no `DIG` and
no byte of `IBUF` or `KBUF` counts as written since (item U8), and `RESULT` and `ERR` hold any value when a command was abandoned
(item U16) and none otherwise. Which items become free values is the model's choice (log 15). -/
def Obligations.AssertedReset : Prop :=
  ∀ (s : State) (rest : List HostAction), s.host = .reset 0 :: rest →
    ∃ t, step s = .next t ∧ t.phase = .idle ∧ t.ibuf = s.ibuf ∧ t.kbuf = s.kbuf ∧ t.host = rest
      ∧ SameFrom s.cap.toNat s.obuf t.obuf ∧ (s.phase = .idle → t.obuf = s.obuf)
      ∧ t.given.ibuf = 0 ∧ t.given.kbuf = 0
      ∧ ∀ r : RegName, isGiven t r = true ↔ (r = .result ∨ r = .err) ∧ s.phase ≠ .idle

/-- The byte primitives (rule R62): a read after a write at the same index gives the byte written, a write changes no other
byte, and both keep the canonical form. -/
def Obligations.BytePrimitives : Prop :=
  ∀ (m : Memory) (i : Nat) (v : Byte),
    Memory.read (Memory.write m i v) i = some v
      ∧ (∀ j, j ≠ i → Memory.read (Memory.write m i v) j = Memory.read m j)
      ∧ (Memory.wf m → Memory.wf (Memory.write m i v))
end

