-- ==== Sys2Proof/Laws/Codec.lean ====
section
/-! SUPPORT. Arithmetic of the two bit streams: lengths, the integers of byte and symbol sequences, the tables. -/

namespace Sys2Proof.Machine

/-! ## Lengths -/

theorem ceilDiv_five (n : Nat) : ceilDiv n 5 = (n + 4) / 5 := rfl

theorem symbolCount_eq (n : Nat) : symbolCount n = (8 * n + 4) / 5 := rfl

theorem textLength_eq (n : Nat) : textLength n = 8 * ((n + 4) / 5) := rfl

theorem requiredCap_eq (n : Nat) : requiredCap n = 8 * ((n + 4) / 5) + 1 := rfl

theorem symbolCount_le_textLength (n : Nat) : symbolCount n ≤ textLength n := by
  rw [symbolCount_eq, textLength_eq]; omega

theorem enc_length (b : List Byte) : (enc b).length = textLength b.length := by
  have := symbolCount_le_textLength b.length
  simp only [enc, List.length_append, List.length_map, List.length_range, List.length_replicate]
  omega

theorem octetsOf_length (vs : List (BitVec 5)) : (octetsOf vs).length = 5 * vs.length / 8 := by
  simp [octetsOf]

theorem dec_length (text : List Byte) : (dec text).length = 5 * (symbolValues text).length / 8 :=
  octetsOf_length _

/-! ## The integer of a byte sequence -/

theorem foldl_base (base : Nat) {α : Type} (f : α → Nat) (xs : List α) (a : Nat) :
    xs.foldl (fun acc x => acc * base + f x) a
      = a * base ^ xs.length + xs.foldl (fun acc x => acc * base + f x) 0 := by
  induction xs generalizing a with
  | nil => simp
  | cons x xs ih =>
    rw [List.foldl_cons, List.foldl_cons, ih, ih (0 * base + f x), List.length_cons]
    ring

theorem foldl_base_lt (base : Nat) {α : Type} (f : α → Nat) (hf : ∀ x, f x < base) (xs : List α) :
    xs.foldl (fun acc x => acc * base + f x) 0 < base ^ xs.length := by
  induction xs with
  | nil => simp
  | cons x xs ih =>
    rw [List.foldl_cons, foldl_base, List.length_cons, pow_succ, Nat.zero_mul, Nat.zero_add]
    calc f x * base ^ xs.length + _ < f x * base ^ xs.length + base ^ xs.length := by omega
      _ = (f x + 1) * base ^ xs.length := by ring
      _ ≤ base * base ^ xs.length := Nat.mul_le_mul_right _ (hf x)
      _ = base ^ xs.length * base := Nat.mul_comm _ _

theorem beValue_nil : beValue [] = 0 := rfl

theorem beValue_append (xs ys : List Byte) :
    beValue (xs ++ ys) = beValue xs * 256 ^ ys.length + beValue ys := by
  unfold beValue
  rw [List.foldl_append, foldl_base]

theorem beValue_snoc (xs : List Byte) (x : Byte) : beValue (xs ++ [x]) = beValue xs * 256 + x.toNat := by
  rw [beValue_append]; simp [beValue]

theorem beValue_lt (xs : List Byte) : beValue xs < 256 ^ xs.length :=
  foldl_base_lt 256 _ (fun x => x.isLt) xs

theorem beValue_lt_two_pow (xs : List Byte) : beValue xs < 2 ^ (8 * xs.length) := by
  have h := beValue_lt xs
  rwa [show (256 : Nat) = 2 ^ 8 by norm_num, ← pow_mul] at h

/-- The first `i` bytes are what is left of the integer when the bits of the others are shifted out. -/
theorem beValue_take (b : List Byte) (i : Nat) :
    beValue (b.take i) = beValue b / 2 ^ (8 * (b.length - i)) := by
  conv_rhs => rw [← List.take_append_drop i b, beValue_append]
  have hlen : (b.drop i).length = b.length - i := List.length_drop
  have h := beValue_lt_two_pow (b.drop i)
  rw [hlen] at h ⊢
  rw [List.take_append_drop, show (256 : Nat) = 2 ^ 8 by norm_num, ← pow_mul,
    Nat.add_comm, Nat.add_mul_div_right _ _ (by positivity), Nat.div_eq_of_lt h, Nat.zero_add]

/-- Byte `k` of the sequence from its integer. -/
theorem getElem_of_beValue (b : List Byte) (k : Nat) (hk : k < b.length) :
    b[k].toNat = beValue b / 2 ^ (8 * (b.length - 1 - k)) % 256 := by
  have h := beValue_take b (k + 1)
  rw [← List.take_concat_get' b k hk, beValue_snoc] at h
  rw [show b.length - 1 - k = b.length - (k + 1) by omega, ← h]
  have := b[k].isLt
  omega

/-! ## The integer of a symbol sequence -/

theorem digitsValue_append (xs ys : List (BitVec 5)) :
    digitsValue (xs ++ ys) = digitsValue xs * 32 ^ ys.length + digitsValue ys := by
  unfold digitsValue
  rw [List.foldl_append, foldl_base]

theorem digitsValue_snoc (xs : List (BitVec 5)) (x : BitVec 5) :
    digitsValue (xs ++ [x]) = digitsValue xs * 32 + x.toNat := by
  rw [digitsValue_append]; simp [digitsValue]

theorem digitsValue_lt (xs : List (BitVec 5)) : digitsValue xs < 32 ^ xs.length :=
  foldl_base_lt 32 _ (fun x => x.isLt) xs

theorem digitsValue_lt_two_pow (xs : List (BitVec 5)) : digitsValue xs < 2 ^ (5 * xs.length) := by
  have h := digitsValue_lt xs
  rwa [show (32 : Nat) = 2 ^ 5 by norm_num, ← pow_mul] at h

/-- The first `i` values are what is left of the integer when the bits of the others are shifted out. -/
theorem digitsValue_take (vs : List (BitVec 5)) (i : Nat) :
    digitsValue (vs.take i) = digitsValue vs / 2 ^ (5 * (vs.length - i)) := by
  conv_rhs => rw [← List.take_append_drop i vs, digitsValue_append]
  have hlen : (vs.drop i).length = vs.length - i := List.length_drop
  have h := digitsValue_lt_two_pow (vs.drop i)
  rw [hlen] at h ⊢
  rw [List.take_append_drop, show (32 : Nat) = 2 ^ 5 by norm_num, ← pow_mul,
    Nat.add_comm, Nat.add_mul_div_right _ _ (by positivity), Nat.div_eq_of_lt h, Nat.zero_add]

/-- Value `k` of the sequence from its integer. -/
theorem getElem_of_digitsValue (vs : List (BitVec 5)) (k : Nat) (hk : k < vs.length) :
    vs[k].toNat = digitsValue vs / 2 ^ (5 * (vs.length - 1 - k)) % 32 := by
  have h := digitsValue_take vs (k + 1)
  rw [← List.take_concat_get' vs k hk, digitsValue_snoc] at h
  rw [show vs.length - 1 - k = vs.length - (k + 1) by omega, ← h]
  have := vs[k].isLt
  omega

/-! ## Quintets -/

/-- The value of a quintet, with division and remainder in place of shift and mask. -/
theorem quintet_toNat (b : List Byte) (k : Nat) :
    (quintet b k).toNat
      = beValue b * 2 ^ (5 * symbolCount b.length - 8 * b.length)
          / 2 ^ (5 * (symbolCount b.length - 1 - k)) % 32 := by
  simp only [quintet, Nat.shiftLeft_eq, Nat.shiftRight_eq_div_pow]
  rw [show (0x1F : Nat) = 2 ^ 5 - 1 by norm_num, Nat.and_two_pow_sub_one_eq_mod, BitVec.toNat_ofNat]
  norm_num

/-- The values of an encoding, in order. -/
def quintets (b : List Byte) : List (BitVec 5) :=
  (List.range (symbolCount b.length)).map (quintet b)

@[simp] theorem quintets_length (b : List Byte) : (quintets b).length = symbolCount b.length := by
  simp [quintets]

@[simp] theorem quintets_getElem (b : List Byte) (k : Nat) (h : k < (quintets b).length) :
    (quintets b)[k] = quintet b k := by
  simp [quintets]

/-- `Enc` as its symbols and its padding. -/
theorem enc_eq (b : List Byte) :
    enc b = (quintets b).map alpha
      ++ List.replicate (textLength b.length - symbolCount b.length) padChar := by
  simp [enc, quintets, Function.comp_def]

/-- The base-32 digits of a number below `32^q`, most significant first, have that number as their integer. -/
theorem digitsValue_of_digits (n q : Nat) (h : n < 2 ^ (5 * q)) :
    digitsValue ((List.range q).map fun k => BitVec.ofNat 5 (n / 2 ^ (5 * (q - 1 - k)))) = n := by
  induction q generalizing n with
  | zero => simp at h; subst h; rfl
  | succ q ih =>
    rw [List.range_succ, List.map_append, List.map_singleton, digitsValue_snoc]
    have hlt : n / 32 < 2 ^ (5 * q) := by
      rw [Nat.div_lt_iff_lt_mul (by norm_num)]
      calc n < 2 ^ (5 * (q + 1)) := h
        _ = 2 ^ (5 * q) * 32 := by rw [show 5 * (q + 1) = 5 * q + 5 by ring, pow_add]; norm_num
    have hmap : ((List.range q).map fun k => BitVec.ofNat 5 (n / 2 ^ (5 * (q + 1 - 1 - k))))
        = (List.range q).map fun k => BitVec.ofNat 5 (n / 32 / 2 ^ (5 * (q - 1 - k))) := by
      apply List.map_congr_left
      intro k hk
      have hk := List.mem_range.1 hk
      rw [Nat.div_div_eq_div_mul, show (32 : Nat) = 2 ^ 5 by norm_num, ← pow_add,
        show 5 * (q + 1 - 1 - k) = 5 + 5 * (q - 1 - k) by omega]
    rw [hmap, ih _ hlt, show q + 1 - 1 - q = 0 by omega]
    simp only [BitVec.toNat_ofNat, Nat.mul_zero, pow_zero, Nat.div_one]
    omega

/-- The integer of an encoding's values is the integer of its bytes with the zero bits below it. -/
theorem digitsValue_quintets (b : List Byte) :
    digitsValue (quintets b) = beValue b * 2 ^ (5 * symbolCount b.length - 8 * b.length) := by
  have hq : 8 * b.length ≤ 5 * symbolCount b.length := by rw [symbolCount_eq]; omega
  have hlt : beValue b * 2 ^ (5 * symbolCount b.length - 8 * b.length) < 2 ^ (5 * symbolCount b.length) := by
    calc beValue b * 2 ^ (5 * symbolCount b.length - 8 * b.length)
        < 2 ^ (8 * b.length) * 2 ^ (5 * symbolCount b.length - 8 * b.length) :=
          Nat.mul_lt_mul_of_pos_right (beValue_lt_two_pow b) (by positivity)
      _ = 2 ^ (5 * symbolCount b.length) := by rw [← pow_add]; congr 1; omega
  rw [← digitsValue_of_digits _ _ hlt]
  congr 1
  unfold quintets
  apply List.map_congr_left
  intro k _
  apply BitVec.eq_of_toNat_eq
  rw [quintet_toNat, BitVec.toNat_ofNat]

/-! ## The tables -/

theorem inv_alpha (v : BitVec 5) : inv (alpha v) = .symbol v := by
  revert v; decide

theorem inv_padChar : inv padChar = .padding := by decide

theorem symbolValue_alpha (v : BitVec 5) : symbolValue (alpha v) = some v := by
  simp [symbolValue, inv_alpha]

theorem symbolValue_padChar : symbolValue padChar = none := by
  simp [symbolValue, inv_padChar]

theorem symbolValues_append (x y : List Byte) : symbolValues (x ++ y) = symbolValues x ++ symbolValues y :=
  List.filterMap_append

theorem symbolValues_map_alpha (vs : List (BitVec 5)) : symbolValues (vs.map alpha) = vs := by
  induction vs with
  | nil => rfl
  | cons v vs ih =>
    rw [List.map_cons]
    show List.filterMap symbolValue _ = _
    rw [List.filterMap_cons_some (symbolValue_alpha v)]
    exact congrArg _ ih

theorem symbolValues_replicate_padChar (n : Nat) : symbolValues (List.replicate n padChar) = [] := by
  induction n with
  | zero => rfl
  | succ n ih =>
    rw [List.replicate_succ]
    show List.filterMap symbolValue _ = _
    rw [List.filterMap_cons_none symbolValue_padChar]
    exact ih

/-- The symbols of an encoding are its quintets. -/
theorem symbolValues_enc (b : List Byte) : symbolValues (enc b) = quintets b := by
  rw [enc_eq, symbolValues_append, symbolValues_map_alpha, symbolValues_replicate_padChar, List.append_nil]

/-- No character of an encoding is invalid. -/
theorem inv_enc_ne_invalid (b : List Byte) {c : Byte} (h : c ∈ enc b) : inv c ≠ .invalid := by
  rw [enc_eq, List.mem_append] at h
  rcases h with h | h
  · obtain ⟨v, -, rfl⟩ := List.mem_map.1 h
    rw [inv_alpha]; simp
  · rw [(List.mem_replicate.1 h).2, inv_padChar]; simp

/-! ## The decoder's two faults in closed form -/

theorem firstInvalid_eq_length_iff (text : List Byte) :
    firstInvalid text = text.length ↔ ∀ c ∈ text, inv c ≠ .invalid := by
  unfold firstInvalid
  rw [List.findIdx_eq_length]
  simp

theorem firstInvalid_le (text : List Byte) : firstInvalid text ≤ text.length :=
  List.findIdx_le_length

theorem symbolValues_take_length_mono (text : List Byte) {i j : Nat} (h : i ≤ j) :
    (symbolValues (text.take i)).length ≤ (symbolValues (text.take j)).length := by
  rw [show text.take i = (text.take j).take i by rw [List.take_take, Nat.min_eq_left h]]
  conv_rhs => rw [← List.take_append_drop i (text.take j), symbolValues_append, List.length_append]
  omega

/-- How many symbols one more character adds. -/
theorem symbolValues_take_succ (text : List Byte) (i : Nat) (h : i < text.length) :
    (symbolValues (text.take (i + 1))).length
      = (symbolValues (text.take i)).length + (if (symbolValue text[i]).isSome then 1 else 0) := by
  rw [← List.take_concat_get' text i h, symbolValues_append, List.length_append]
  congr 1
  unfold symbolValues
  cases hs : symbolValue text[i] <;> simp [hs]

theorem exceedsAt_iff (text : List Byte) (cap i : Nat) :
    exceedsAt text cap i = true
      ↔ (symbolValue (text.getD i nul)).isSome = true
        ∧ cap < 5 * (symbolValues (text.take (i + 1))).length / 8 := by
  unfold exceedsAt
  rw [Bool.and_eq_true, decide_eq_true_iff]
  rfl

/-- The capacity is exceeded before index `j` exactly when the symbols before it make too many bytes. -/
theorem exists_exceedsAt_iff (text : List Byte) (cap j : Nat) :
    (∃ i < j, exceedsAt text cap i = true) ↔ cap < 5 * (symbolValues (text.take j)).length / 8 := by
  constructor
  · rintro ⟨i, hi, he⟩
    have he := ((exceedsAt_iff text cap i).1 he).2
    have := symbolValues_take_length_mono text (show i + 1 ≤ j by omega)
    omega
  · induction j with
    | zero => intro h; simp [symbolValues] at h
    | succ j ih =>
      intro h
      by_cases hj : j < text.length
      · rw [symbolValues_take_succ text j hj] at h
        by_cases hs : (symbolValue text[j]).isSome
        · refine ⟨j, by omega, (exceedsAt_iff text cap j).2 ?_⟩
          rw [symbolValues_take_succ text j hj, List.getD_eq_getElem _ _ hj]
          exact ⟨hs, h⟩
        · rw [if_neg hs, Nat.add_zero] at h
          obtain ⟨i, hi, he⟩ := ih h
          exact ⟨i, by omega, he⟩
      · rw [List.take_of_length_le (by omega)] at h
        rw [List.take_of_length_le (by omega)] at ih
        obtain ⟨i, hi, he⟩ := ih h
        exact ⟨i, by omega, he⟩

/-- `BufferTooSmall` in closed form: the symbols before the first invalid character make more bytes than fit. -/
theorem capacityExceeded_iff (text : List Byte) (cap : Nat) :
    capacityExceeded text cap = true
      ↔ cap < 5 * (symbolValues (text.take (firstInvalid text))).length / 8 := by
  rw [← exists_exceedsAt_iff]
  simp [capacityExceeded]

/-! ## The bit streams as bits of the integers -/

/-- Bit `j` of the octet stream is a bit of the integer of the bytes, counted from its top. -/
theorem octetBit_eq_testBit (b : List Byte) (j : Nat) (h : j < 8 * b.length) :
    octetBit b j = (beValue b).testBit (8 * b.length - 1 - j) := by
  have hk : j / 8 < b.length := by omega
  unfold octetBit
  rw [List.getD_eq_getElem _ _ hk, ← BitVec.testBit_toNat, getElem_of_beValue b _ hk,
    show (256 : Nat) = 2 ^ 8 by norm_num, Nat.testBit_mod_two_pow, Nat.testBit_div_two_pow]
  rw [decide_eq_true (show 7 - j % 8 < 8 by omega), Bool.true_and]
  congr 1
  omega

/-- Beyond the end of the bytes the stream is 0. -/
theorem octetBit_beyond (b : List Byte) (j : Nat) (h : 8 * b.length ≤ j) : octetBit b j = false := by
  have hk : b.length ≤ j / 8 := by omega
  unfold octetBit
  rw [List.getD_eq_default _ _ hk]
  simp

/-- Bit `j` of the stream of values is a bit of their integer, counted from its top. -/
theorem quintetBit_eq_testBit (vs : List (BitVec 5)) (j : Nat) (h : j < 5 * vs.length) :
    quintetBit vs j = (digitsValue vs).testBit (5 * vs.length - 1 - j) := by
  have hk : j / 5 < vs.length := by omega
  unfold quintetBit
  rw [List.getD_eq_getElem _ _ hk, ← BitVec.testBit_toNat, getElem_of_digitsValue vs _ hk,
    show (32 : Nat) = 2 ^ 5 by norm_num, Nat.testBit_mod_two_pow, Nat.testBit_div_two_pow]
  rw [decide_eq_true (show 4 - j % 5 < 5 by omega), Bool.true_and]
  congr 1
  omega

/-- Octet `k` of a sequence of values, with division and remainder in place of shift and mask. -/
theorem octetsOf_getElem_toNat (vs : List (BitVec 5)) (k : Nat) (h : k < (octetsOf vs).length) :
    (octetsOf vs)[k].toNat = digitsValue vs / 2 ^ (5 * vs.length - 8 * (k + 1)) % 256 := by
  simp only [octetsOf, List.getElem_map, List.getElem_range, Nat.shiftRight_eq_div_pow]
  rw [show (0xFF : Nat) = 2 ^ 8 - 1 by norm_num, Nat.and_two_pow_sub_one_eq_mod, BitVec.toNat_ofNat]
  norm_num

/-- Masking to the low bits leaves a number below the power of two. -/
theorem lowBits_lt (p : Nat) (a : Word) (h : p < 32) : (lowBits p a).toNat < 2 ^ p := by
  have hlt : 2 ^ p < 2 ^ 32 := Nat.pow_lt_pow_right (by norm_num) h
  have hpos : 0 < 2 ^ p := by positivity
  unfold lowBits
  rw [BitVec.toNat_and, BitVec.toNat_ofNat, Nat.mod_eq_of_lt (by omega), Nat.and_two_pow_sub_one_eq_mod]
  exact Nat.mod_lt _ hpos

/-- The number of two bit fields joined. -/
theorem toNat_joined {n m : Nat} (x : BitVec n) (y : BitVec m) : (x ++ y).toNat = x.toNat * 2 ^ m + y.toNat := by
  rw [BitVec.toNat_append, ← Nat.shiftLeft_add_eq_or_of_lt y.isLt, Nat.shiftLeft_eq]

/-- One more index counts one more symbol, or none. -/
theorem symbolsBelow_succ (m : Memory) (n : Nat) :
    symbolsBelow m (n + 1)
      = symbolsBelow m n + (if ((Memory.read m n).bind symbolValue).isSome then 1 else 0) := by
  unfold symbolsBelow
  rw [List.range_succ, List.filter_append, List.length_append]
  congr 1
  split_ifs with h <;> simp [h]

end Sys2Proof.Machine
end

