-- ==== Sys2Proof/Laws/Memory.lean ====
section
/-! SUPPORT. The laws of the byte spaces. -/

namespace Sys2Proof.Machine

/-! ## One byte -/

@[simp] theorem read_nil (i : Nat) : Memory.read [] i = none := rfl

theorem read_cons (c : Host.Cell) (m : Memory) (i : Nat) :
    Memory.read (c :: m) i = if c.1 = i then some c.2 else Memory.read m i := rfl

theorem read_write (m : Memory) (i : Nat) (v : Byte) (j : Nat) :
    Memory.read (Memory.write m i v) j = if j = i then some v else Memory.read m j := by
  induction m with
  | nil => simp only [Memory.write, read_cons, read_nil, eq_comm]
  | cons c m ih =>
    by_cases h1 : c.1 = i
    · simp only [Memory.write, if_pos h1, read_cons]
      by_cases h : j = i
      · rw [if_pos h, if_pos h.symm]
      · rw [if_neg h, if_neg (fun e => h e.symm), if_neg (fun e => h (e.symm.trans h1))]
    · by_cases h2 : i < c.1
      · simp only [Memory.write, if_neg h1, if_pos h2, read_cons, @eq_comm _ j i]
      · simp only [Memory.write, if_neg h1, if_neg h2, read_cons, ih]
        by_cases h : j = i
        · rw [if_pos h, if_pos h, if_neg (fun e => h1 (e.trans h))]
        · rw [if_neg h, if_neg h]

@[simp] theorem read_write_same (m : Memory) (i : Nat) (v : Byte) :
    Memory.read (Memory.write m i v) i = some v := by
  simp [read_write]

theorem read_write_other (m : Memory) {i j : Nat} (v : Byte) (h : j ≠ i) :
    Memory.read (Memory.write m i v) j = Memory.read m j := by
  simp [read_write, h]

/-- What a write lists: the cell written and cells that were listed. -/
theorem mem_write {m : Memory} {i : Nat} {v : Byte} {c : Host.Cell} (h : c ∈ Memory.write m i v) :
    c = (i, v) ∨ c ∈ m := by
  induction m with
  | nil => simpa [Memory.write] using h
  | cons d m ih =>
    unfold Memory.write at h
    split_ifs at h with h1 h2
    · rcases List.mem_cons.1 h with h | h
      · exact .inl h
      · exact .inr (List.mem_cons_of_mem _ h)
    · rcases List.mem_cons.1 h with h | h
      · exact .inl h
      · exact .inr h
    · rcases List.mem_cons.1 h with h | h
      · exact .inr (h ▸ List.mem_cons_self)
      · exact (ih h).imp_right (List.mem_cons_of_mem _)

theorem write_wf {m : Memory} (h : Memory.wf m) (i : Nat) (v : Byte) : Memory.wf (Memory.write m i v) := by
  induction m with
  | nil => simp [Memory.write]
  | cons c m ih =>
    have hc := List.pairwise_cons.1 h
    unfold Memory.write
    split_ifs with h1 h2
    · exact List.pairwise_cons.2 ⟨fun d hd => h1 ▸ hc.1 d hd, hc.2⟩
    · refine List.pairwise_cons.2 ⟨fun d hd => ?_, h⟩
      rcases List.mem_cons.1 hd with rfl | hd
      · exact h2
      · exact lt_trans h2 (hc.1 d hd)
    · refine List.pairwise_cons.2 ⟨fun d hd => ?_, ih hc.2⟩
      rcases mem_write hd with rfl | hd
      · show c.1 < i
        omega
      · exact hc.1 d hd

/-! ## Runs of bytes -/

theorem writeFrom_wf {m : Memory} (h : Memory.wf m) (i : Nat) (vs : List Byte) :
    Memory.wf (Memory.writeFrom m i vs) := by
  induction vs generalizing m i with
  | nil => exact h
  | cons v vs ih => exact ih (write_wf h i v) (i + 1)

theorem read_writeFrom (m : Memory) (i : Nat) (vs : List Byte) (a : Nat) :
    Memory.read (Memory.writeFrom m i vs) a
      = if i ≤ a ∧ a < i + vs.length then vs[a - i]? else Memory.read m a := by
  induction vs generalizing m i with
  | nil =>
    have : ¬ (i ≤ a ∧ a < i + ([] : List Byte).length) := by simp
    rw [if_neg this]; rfl
  | cons v vs ih =>
    show Memory.read (Memory.writeFrom (Memory.write m i v) (i + 1) vs) a = _
    rw [ih, List.length_cons]
    by_cases h : i = a
    · subst h
      rw [if_neg (by omega), if_pos (by omega)]
      simp
    · by_cases h2 : i + 1 ≤ a ∧ a < i + 1 + vs.length
      · rw [if_pos h2, if_pos (by omega), show a - i = (a - (i + 1)) + 1 by omega, List.getElem?_cons_succ]
      · rw [if_neg h2, if_neg (by omega), read_write_other _ _ (by omega)]

theorem holdsFrom_writeFrom (m : Memory) (i : Nat) (vs : List Byte) :
    HoldsFrom (Memory.writeFrom m i vs) i vs := by
  intro k hk
  rw [read_writeFrom, if_pos (by omega), Nat.add_sub_cancel_left]

theorem sameFrom_writeFrom (m : Memory) (vs : List Byte) :
    SameFrom vs.length m (Memory.writeFrom m 0 vs) := by
  intro a ha
  rw [read_writeFrom, if_neg (by omega)]

/-- Bytes written one after another are the bytes written at once. -/
theorem writeFrom_append (m : Memory) (i : Nat) (xs ys : List Byte) :
    Memory.writeFrom m i (xs ++ ys) = Memory.writeFrom (Memory.writeFrom m i xs) (i + xs.length) ys := by
  induction xs generalizing m i with
  | nil => rfl
  | cons x xs ih =>
    show Memory.writeFrom (Memory.write m i x) (i + 1) (xs ++ ys) = _
    rw [ih, List.length_cons, show i + (xs.length + 1) = i + 1 + xs.length by omega]
    rfl

theorem writeFrom_snoc (m : Memory) (i : Nat) (xs : List Byte) (v : Byte) :
    Memory.writeFrom m i (xs ++ [v]) = Memory.write (Memory.writeFrom m i xs) (i + xs.length) v :=
  writeFrom_append m i xs [v]

/-- A range is read exactly when the buffer holds the bytes read. -/
theorem readRange_eq_some_iff (m : Memory) (i n : Nat) (b : List Byte) :
    Memory.readRange m i n = some b ↔ b.length = n ∧ HoldsFrom m i b := by
  induction n generalizing i b with
  | zero =>
    simp only [Memory.readRange, Option.some.injEq]
    constructor
    · rintro rfl; exact ⟨rfl, fun k hk => absurd hk (by simp)⟩
    · rintro ⟨h, -⟩; exact (List.length_eq_zero_iff.1 h).symm
  | succ n ih =>
    unfold Memory.readRange
    cases hr : Memory.read m i with
    | none =>
      simp only [reduceCtorEq, false_iff]
      rintro ⟨h, hh⟩
      cases b with
      | nil => simp at h
      | cons v b =>
        have := hh 0 (by simp)
        rw [Nat.add_zero, hr] at this
        simp at this
    | some v =>
      simp only [Option.map_eq_some_iff]
      constructor
      · rintro ⟨c, hc, rfl⟩
        obtain ⟨hl, hh⟩ := (ih (i + 1) c).1 hc
        refine ⟨by simp [hl], fun k hk => ?_⟩
        cases k with
        | zero => simpa using hr
        | succ k =>
          have := hh k (by simpa using hk)
          rw [show i + (k + 1) = i + 1 + k by omega, this, List.getElem?_cons_succ]
      · rintro ⟨hl, hh⟩
        cases b with
        | nil => simp at hl
        | cons w b =>
          have h0 := hh 0 (by simp)
          rw [Nat.add_zero, hr] at h0
          simp only [List.getElem?_cons_zero, Option.some.injEq] at h0
          refine ⟨b, (ih (i + 1) b).2 ⟨by simpa using hl, fun k hk => ?_⟩, by rw [h0]⟩
          have := hh (k + 1) (by simpa using hk)
          rw [show i + 1 + k = i + (k + 1) by omega, this, List.getElem?_cons_succ]

/-- A written region holds some bytes. -/
theorem exists_readRange_of_written {m : Memory} {n : Nat} (h : Written m n) :
    ∃ b, Memory.readRange m 0 n = some b := by
  suffices H : ∀ k i, (∀ a, i ≤ a → a < i + k → (Memory.read m a).isSome = true) →
      ∃ b, Memory.readRange m i k = some b from H n 0 (fun a _ ha => h a (by omega))
  intro k
  induction k with
  | zero => exact fun i _ => ⟨[], rfl⟩
  | succ k ih =>
    intro i hi
    obtain ⟨v, hv⟩ := Option.isSome_iff_exists.1 (hi i le_rfl (by omega))
    obtain ⟨b, hb⟩ := ih (i + 1) (fun a h1 h2 => hi a (by omega) (by omega))
    exact ⟨v :: b, by simp [Memory.readRange, hv, hb]⟩

theorem written_of_readRange {m : Memory} {n : Nat} {b : List Byte} (h : Memory.readRange m 0 n = some b) :
    Written m n := by
  obtain ⟨hl, hh⟩ := (readRange_eq_some_iff m 0 n b).1 h
  intro a ha
  have := hh a (by omega)
  rw [Nat.zero_add] at this
  rw [this, List.getElem?_eq_getElem (by omega)]
  rfl

theorem written_iff_readRange (m : Memory) (n : Nat) :
    Written m n ↔ ∃ b, Memory.readRange m 0 n = some b :=
  ⟨exists_readRange_of_written, fun ⟨_, h⟩ => written_of_readRange h⟩

theorem written_of_holdsFrom {m : Memory} {b : List Byte} (h : HoldsFrom m 0 b) : Written m b.length :=
  written_of_readRange ((readRange_eq_some_iff m 0 b.length b).2 ⟨rfl, h⟩)

theorem read_of_holdsFrom {m : Memory} {b : List Byte} (h : HoldsFrom m 0 b) {k : Nat} (hk : k < b.length) :
    Memory.read m k = some b[k] := by
  have := h k hk
  rwa [Nat.zero_add, List.getElem?_eq_getElem hk] at this

/-! ## Bytes that become unspecified -/

theorem read_cellsFrom (f : Nat → Byte) (i n a : Nat) :
    Memory.read (cellsFrom f i n) a = if i ≤ a ∧ a < i + n then some (f a) else none := by
  induction n generalizing i with
  | zero => rw [if_neg (by omega)]; rfl
  | succ n ih =>
    show Memory.read ((i, f i) :: cellsFrom f (i + 1) n) a = _
    rw [read_cons, ih]
    by_cases h : i = a
    · subst h; simp
    · by_cases h2 : i + 1 ≤ a ∧ a < i + 1 + n
      · rw [if_neg (by simpa using h), if_pos h2, if_pos (by omega)]
      · rw [if_neg (by simpa using h), if_neg h2, if_neg (by omega)]

theorem read_append (m m' : Memory) (a : Nat) :
    Memory.read (m ++ m') a = (Memory.read m a).or (Memory.read m' a) := by
  induction m with
  | nil => simp
  | cons c m ih =>
    rw [List.cons_append, read_cons, read_cons, ih]
    split_ifs <;> simp

theorem read_filter (m : Memory) (n a : Nat) :
    Memory.read (m.filter (fun c => n ≤ c.1)) a = if n ≤ a then Memory.read m a else none := by
  induction m with
  | nil => simp
  | cons c m ih =>
    by_cases hc : n ≤ c.1
    · rw [List.filter_cons_of_pos (by simpa using hc), read_cons, read_cons, ih]
      by_cases h : c.1 = a
      · subst h; simp [hc]
      · simp [h]
    · rw [List.filter_cons_of_neg (by simpa using hc), read_cons, ih]
      by_cases h : c.1 = a
      · subst h; simp [hc]
      · simp [h]

theorem read_spoil (m : Memory) (n : Nat) (f : Nat → Byte) (a : Nat) :
    Memory.read (Memory.spoil m n f) a = if a < n then some (f a) else Memory.read m a := by
  unfold Memory.spoil
  rw [read_append, read_cellsFrom, read_filter]
  by_cases h : a < n
  · rw [if_pos (by omega), if_pos h]; rfl
  · rw [if_neg (by omega), if_pos (by omega), if_neg h]; rfl

theorem sameFrom_spoil (m : Memory) (n : Nat) (f : Nat → Byte) : SameFrom n m (Memory.spoil m n f) := by
  intro a ha
  rw [read_spoil, if_neg (by omega)]

theorem mem_cellsFrom {f : Nat → Byte} {i n : Nat} {c : Host.Cell} (h : c ∈ cellsFrom f i n) :
    i ≤ c.1 ∧ c.1 < i + n := by
  induction n generalizing i with
  | zero => simp [cellsFrom] at h
  | succ n ih =>
    rcases List.mem_cons.1 (show c ∈ (i, f i) :: cellsFrom f (i + 1) n from h) with rfl | h
    · exact ⟨le_rfl, by simp⟩
    · have := ih h; omega

theorem cellsFrom_wf (f : Nat → Byte) (i n : Nat) : Memory.wf (cellsFrom f i n) := by
  induction n generalizing i with
  | zero => exact List.Pairwise.nil
  | succ n ih =>
    exact List.pairwise_cons.2 ⟨fun c hc => by have := mem_cellsFrom hc; show i < c.1; omega, ih (i + 1)⟩

theorem spoil_wf {m : Memory} (h : Memory.wf m) (n : Nat) (f : Nat → Byte) :
    Memory.wf (Memory.spoil m n f) := by
  refine List.pairwise_append.2 ⟨cellsFrom_wf f 0 n, h.filter _, fun c hc d hd => ?_⟩
  have h1 := mem_cellsFrom hc
  have h2 : n ≤ d.1 := by simpa using (List.mem_filter.1 hd).2
  omega

theorem filter_write (m : Memory) {i n : Nat} (v : Byte) (h : i < n) :
    (Memory.write m i v).filter (fun c => n ≤ c.1) = m.filter (fun c => n ≤ c.1) := by
  induction m with
  | nil => simp [Memory.write, h]
  | cons c m ih =>
    unfold Memory.write
    split_ifs with h1 h2
    · have : ¬ n ≤ c.1 := by omega
      simp [this, show ¬ n ≤ i by omega]
    · simp [show ¬ n ≤ i by omega]
    · simp only [List.filter_cons, ih]

/-- What was written below the bound does not matter once the bytes below it are unspecified. -/
theorem spoil_write (m : Memory) {i n : Nat} (v : Byte) (f : Nat → Byte) (h : i < n) :
    Memory.spoil (Memory.write m i v) n f = Memory.spoil m n f := by
  unfold Memory.spoil
  rw [filter_write m v h]

theorem spoil_writeFrom (m : Memory) {i n : Nat} (vs : List Byte) (f : Nat → Byte) (h : i + vs.length ≤ n) :
    Memory.spoil (Memory.writeFrom m i vs) n f = Memory.spoil m n f := by
  induction vs generalizing m i with
  | nil => rfl
  | cons v vs ih =>
    rw [List.length_cons] at h
    show Memory.spoil (Memory.writeFrom (Memory.write m i v) (i + 1) vs) n f = _
    rw [ih _ (by omega), spoil_write _ _ _ (by omega)]

/-! ## Composing `SameFrom` -/

theorem SameFrom.refl (n : Nat) (m : Memory) : SameFrom n m m := fun _ _ => rfl

theorem SameFrom.trans {n : Nat} {m m' m'' : Memory} (h : SameFrom n m m') (h' : SameFrom n m' m'') :
    SameFrom n m m'' := fun a ha => (h' a ha).trans (h a ha)

theorem SameFrom.mono {n k : Nat} {m m' : Memory} (h : SameFrom n m m') (hk : n ≤ k) : SameFrom k m m' :=
  fun a ha => h a (hk.trans ha)

theorem sameFrom_write {n i : Nat} (m : Memory) (v : Byte) (h : i < n) : SameFrom n m (Memory.write m i v) :=
  fun a ha => read_write_other m v (by omega)

end Sys2Proof.Machine
end

