-- ==== Sys2Proof/Laws/State.lean ====
section
/-! SUPPORT. One lemma per field per named operation on State: no later proof unfolds a record update. -/

namespace Sys2Proof.Machine


/-! ## `complete` -/

@[simp] theorem complete_cmd (r : Word) (e : BitVec 3) (s : State) : (complete r e s).cmd = s.cmd := rfl
@[simp] theorem complete_len (r : Word) (e : BitVec 3) (s : State) : (complete r e s).len = s.len := rfl
@[simp] theorem complete_cap (r : Word) (e : BitVec 3) (s : State) : (complete r e s).cap = s.cap := rfl
@[simp] theorem complete_keyLen (r : Word) (e : BitVec 3) (s : State) : (complete r e s).keyLen = s.keyLen := rfl
@[simp] theorem complete_time (r : Word) (e : BitVec 3) (s : State) : (complete r e s).time = s.time := rfl
@[simp] theorem complete_tStep (r : Word) (e : BitVec 3) (s : State) : (complete r e s).tStep = s.tStep := rfl
@[simp] theorem complete_digits (r : Word) (e : BitVec 3) (s : State) : (complete r e s).digits = s.digits := rfl
@[simp] theorem complete_result (r : Word) (e : BitVec 3) (s : State) : (complete r e s).result = r := rfl
@[simp] theorem complete_err (r : Word) (e : BitVec 3) (s : State) : (complete r e s).err = e := rfl
@[simp] theorem complete_dig (r : Word) (e : BitVec 3) (s : State) : (complete r e s).dig = s.dig := rfl
@[simp] theorem complete_given (r : Word) (e : BitVec 3) (s : State) : (complete r e s).given = { s.given with outcome := true } := rfl
@[simp] theorem complete_ibuf (r : Word) (e : BitVec 3) (s : State) : (complete r e s).ibuf = s.ibuf := rfl
@[simp] theorem complete_kbuf (r : Word) (e : BitVec 3) (s : State) : (complete r e s).kbuf = s.kbuf := rfl
@[simp] theorem complete_obuf (r : Word) (e : BitVec 3) (s : State) : (complete r e s).obuf = s.obuf := rfl
@[simp] theorem complete_phase (r : Word) (e : BitVec 3) (s : State) : (complete r e s).phase = .idle := rfl
@[simp] theorem complete_scratch (r : Word) (e : BitVec 3) (s : State) : (complete r e s).scratch = freeScratch s.fresh := rfl
@[simp] theorem complete_draws (r : Word) (e : BitVec 3) (s : State) : (complete r e s).draws = s.draws := rfl
@[simp] theorem complete_fresh (r : Word) (e : BitVec 3) (s : State) : (complete r e s).fresh = s.fresh + 1 := rfl
@[simp] theorem complete_host (r : Word) (e : BitVec 3) (s : State) : (complete r e s).host = s.host := rfl
@[simp] theorem complete_seen (r : Word) (e : BitVec 3) (s : State) : (complete r e s).seen = s.seen := rfl

/-! ## `succeed` -/

@[simp] theorem succeed_cmd (r : Word) (s : State) : (succeed r s).cmd = s.cmd := rfl
@[simp] theorem succeed_len (r : Word) (s : State) : (succeed r s).len = s.len := rfl
@[simp] theorem succeed_cap (r : Word) (s : State) : (succeed r s).cap = s.cap := rfl
@[simp] theorem succeed_keyLen (r : Word) (s : State) : (succeed r s).keyLen = s.keyLen := rfl
@[simp] theorem succeed_time (r : Word) (s : State) : (succeed r s).time = s.time := rfl
@[simp] theorem succeed_tStep (r : Word) (s : State) : (succeed r s).tStep = s.tStep := rfl
@[simp] theorem succeed_digits (r : Word) (s : State) : (succeed r s).digits = s.digits := rfl
@[simp] theorem succeed_result (r : Word) (s : State) : (succeed r s).result = r := rfl
@[simp] theorem succeed_err (r : Word) (s : State) : (succeed r s).err = 0#3 := rfl
@[simp] theorem succeed_dig (r : Word) (s : State) : (succeed r s).dig = s.dig := rfl
@[simp] theorem succeed_given (r : Word) (s : State) : (succeed r s).given = { s.given with outcome := true } := rfl
@[simp] theorem succeed_ibuf (r : Word) (s : State) : (succeed r s).ibuf = s.ibuf := rfl
@[simp] theorem succeed_kbuf (r : Word) (s : State) : (succeed r s).kbuf = s.kbuf := rfl
@[simp] theorem succeed_obuf (r : Word) (s : State) : (succeed r s).obuf = s.obuf := rfl
@[simp] theorem succeed_phase (r : Word) (s : State) : (succeed r s).phase = .idle := rfl
@[simp] theorem succeed_scratch (r : Word) (s : State) : (succeed r s).scratch = freeScratch s.fresh := rfl
@[simp] theorem succeed_draws (r : Word) (s : State) : (succeed r s).draws = s.draws := rfl
@[simp] theorem succeed_fresh (r : Word) (s : State) : (succeed r s).fresh = s.fresh + 1 := rfl
@[simp] theorem succeed_host (r : Word) (s : State) : (succeed r s).host = s.host := rfl
@[simp] theorem succeed_seen (r : Word) (s : State) : (succeed r s).seen = s.seen := rfl

/-! ## `raise` -/

@[simp] theorem raise_cmd (v : ErrorVariant) (s : State) : (raise v s).cmd = s.cmd := rfl
@[simp] theorem raise_len (v : ErrorVariant) (s : State) : (raise v s).len = s.len := rfl
@[simp] theorem raise_cap (v : ErrorVariant) (s : State) : (raise v s).cap = s.cap := rfl
@[simp] theorem raise_keyLen (v : ErrorVariant) (s : State) : (raise v s).keyLen = s.keyLen := rfl
@[simp] theorem raise_time (v : ErrorVariant) (s : State) : (raise v s).time = s.time := rfl
@[simp] theorem raise_tStep (v : ErrorVariant) (s : State) : (raise v s).tStep = s.tStep := rfl
@[simp] theorem raise_digits (v : ErrorVariant) (s : State) : (raise v s).digits = s.digits := rfl
@[simp] theorem raise_result (v : ErrorVariant) (s : State) : (raise v s).result = 0xFFFFFFFF#32 := rfl
@[simp] theorem raise_err (v : ErrorVariant) (s : State) : (raise v s).err = errorCode v := rfl
@[simp] theorem raise_dig (v : ErrorVariant) (s : State) : (raise v s).dig = s.dig := rfl
@[simp] theorem raise_given (v : ErrorVariant) (s : State) : (raise v s).given = { s.given with outcome := true } := rfl
@[simp] theorem raise_ibuf (v : ErrorVariant) (s : State) : (raise v s).ibuf = s.ibuf := rfl
@[simp] theorem raise_kbuf (v : ErrorVariant) (s : State) : (raise v s).kbuf = s.kbuf := rfl
@[simp] theorem raise_obuf (v : ErrorVariant) (s : State) : (raise v s).obuf = if spoilsObuf v then Memory.spoil s.obuf s.cap.toNat (freeObuf s.fresh) else s.obuf := rfl
@[simp] theorem raise_phase (v : ErrorVariant) (s : State) : (raise v s).phase = .idle := rfl
@[simp] theorem raise_scratch (v : ErrorVariant) (s : State) : (raise v s).scratch = freeScratch s.fresh := rfl
@[simp] theorem raise_draws (v : ErrorVariant) (s : State) : (raise v s).draws = s.draws := rfl
@[simp] theorem raise_fresh (v : ErrorVariant) (s : State) : (raise v s).fresh = s.fresh + 1 := rfl
@[simp] theorem raise_host (v : ErrorVariant) (s : State) : (raise v s).host = s.host := rfl
@[simp] theorem raise_seen (v : ErrorVariant) (s : State) : (raise v s).seen = s.seen := rfl

/-! ## `writeDig` -/

@[simp] theorem writeDig_cmd (d : Digest) (s : State) : (writeDig d s).cmd = s.cmd := rfl
@[simp] theorem writeDig_len (d : Digest) (s : State) : (writeDig d s).len = s.len := rfl
@[simp] theorem writeDig_cap (d : Digest) (s : State) : (writeDig d s).cap = s.cap := rfl
@[simp] theorem writeDig_keyLen (d : Digest) (s : State) : (writeDig d s).keyLen = s.keyLen := rfl
@[simp] theorem writeDig_time (d : Digest) (s : State) : (writeDig d s).time = s.time := rfl
@[simp] theorem writeDig_tStep (d : Digest) (s : State) : (writeDig d s).tStep = s.tStep := rfl
@[simp] theorem writeDig_digits (d : Digest) (s : State) : (writeDig d s).digits = s.digits := rfl
@[simp] theorem writeDig_result (d : Digest) (s : State) : (writeDig d s).result = s.result := rfl
@[simp] theorem writeDig_err (d : Digest) (s : State) : (writeDig d s).err = s.err := rfl
@[simp] theorem writeDig_dig (d : Digest) (s : State) : (writeDig d s).dig = d := rfl
@[simp] theorem writeDig_given (d : Digest) (s : State) : (writeDig d s).given = { s.given with dig := true } := rfl
@[simp] theorem writeDig_ibuf (d : Digest) (s : State) : (writeDig d s).ibuf = s.ibuf := rfl
@[simp] theorem writeDig_kbuf (d : Digest) (s : State) : (writeDig d s).kbuf = s.kbuf := rfl
@[simp] theorem writeDig_obuf (d : Digest) (s : State) : (writeDig d s).obuf = s.obuf := rfl
@[simp] theorem writeDig_phase (d : Digest) (s : State) : (writeDig d s).phase = s.phase := rfl
@[simp] theorem writeDig_scratch (d : Digest) (s : State) : (writeDig d s).scratch = s.scratch := rfl
@[simp] theorem writeDig_draws (d : Digest) (s : State) : (writeDig d s).draws = s.draws := rfl
@[simp] theorem writeDig_fresh (d : Digest) (s : State) : (writeDig d s).fresh = s.fresh := rfl
@[simp] theorem writeDig_host (d : Digest) (s : State) : (writeDig d s).host = s.host := rfl
@[simp] theorem writeDig_seen (d : Digest) (s : State) : (writeDig d s).seen = s.seen := rfl

/-! ## `countDraw` -/

@[simp] theorem countDraw_cmd (s : State) : (countDraw s).cmd = s.cmd := rfl
@[simp] theorem countDraw_len (s : State) : (countDraw s).len = s.len := rfl
@[simp] theorem countDraw_cap (s : State) : (countDraw s).cap = s.cap := rfl
@[simp] theorem countDraw_keyLen (s : State) : (countDraw s).keyLen = s.keyLen := rfl
@[simp] theorem countDraw_time (s : State) : (countDraw s).time = s.time := rfl
@[simp] theorem countDraw_tStep (s : State) : (countDraw s).tStep = s.tStep := rfl
@[simp] theorem countDraw_digits (s : State) : (countDraw s).digits = s.digits := rfl
@[simp] theorem countDraw_result (s : State) : (countDraw s).result = s.result := rfl
@[simp] theorem countDraw_err (s : State) : (countDraw s).err = s.err := rfl
@[simp] theorem countDraw_dig (s : State) : (countDraw s).dig = s.dig := rfl
@[simp] theorem countDraw_given (s : State) : (countDraw s).given = s.given := rfl
@[simp] theorem countDraw_ibuf (s : State) : (countDraw s).ibuf = s.ibuf := rfl
@[simp] theorem countDraw_kbuf (s : State) : (countDraw s).kbuf = s.kbuf := rfl
@[simp] theorem countDraw_obuf (s : State) : (countDraw s).obuf = s.obuf := rfl
@[simp] theorem countDraw_phase (s : State) : (countDraw s).phase = s.phase := rfl
@[simp] theorem countDraw_scratch (s : State) : (countDraw s).scratch = s.scratch := rfl
@[simp] theorem countDraw_draws (s : State) : (countDraw s).draws = s.draws + 1 := rfl
@[simp] theorem countDraw_fresh (s : State) : (countDraw s).fresh = s.fresh := rfl
@[simp] theorem countDraw_host (s : State) : (countDraw s).host = s.host := rfl
@[simp] theorem countDraw_seen (s : State) : (countDraw s).seen = s.seen := rfl

/-! ## `enter` -/

@[simp] theorem enter_cmd (i : Instr) (s : State) : (enter i s).cmd = s.cmd := rfl
@[simp] theorem enter_len (i : Instr) (s : State) : (enter i s).len = s.len := rfl
@[simp] theorem enter_cap (i : Instr) (s : State) : (enter i s).cap = s.cap := rfl
@[simp] theorem enter_keyLen (i : Instr) (s : State) : (enter i s).keyLen = s.keyLen := rfl
@[simp] theorem enter_time (i : Instr) (s : State) : (enter i s).time = s.time := rfl
@[simp] theorem enter_tStep (i : Instr) (s : State) : (enter i s).tStep = s.tStep := rfl
@[simp] theorem enter_digits (i : Instr) (s : State) : (enter i s).digits = s.digits := rfl
@[simp] theorem enter_result (i : Instr) (s : State) : (enter i s).result = s.result := rfl
@[simp] theorem enter_err (i : Instr) (s : State) : (enter i s).err = s.err := rfl
@[simp] theorem enter_dig (i : Instr) (s : State) : (enter i s).dig = s.dig := rfl
@[simp] theorem enter_given (i : Instr) (s : State) : (enter i s).given = s.given := rfl
@[simp] theorem enter_ibuf (i : Instr) (s : State) : (enter i s).ibuf = s.ibuf := rfl
@[simp] theorem enter_kbuf (i : Instr) (s : State) : (enter i s).kbuf = s.kbuf := rfl
@[simp] theorem enter_obuf (i : Instr) (s : State) : (enter i s).obuf = s.obuf := rfl
@[simp] theorem enter_phase (i : Instr) (s : State) : (enter i s).phase = firstPhase i := rfl
@[simp] theorem enter_scratch (i : Instr) (s : State) : (enter i s).scratch = s.scratch := rfl
@[simp] theorem enter_draws (i : Instr) (s : State) : (enter i s).draws = s.draws := rfl
@[simp] theorem enter_fresh (i : Instr) (s : State) : (enter i s).fresh = s.fresh := rfl
@[simp] theorem enter_host (i : Instr) (s : State) : (enter i s).host = s.host := rfl
@[simp] theorem enter_seen (i : Instr) (s : State) : (enter i s).seen = s.seen := rfl

/-! ## `startEncoder` -/

@[simp] theorem startEncoder_cmd (e : BitVec 1) (s : State) : (startEncoder e s).cmd = s.cmd := rfl
@[simp] theorem startEncoder_len (e : BitVec 1) (s : State) : (startEncoder e s).len = s.len := rfl
@[simp] theorem startEncoder_cap (e : BitVec 1) (s : State) : (startEncoder e s).cap = s.cap := rfl
@[simp] theorem startEncoder_keyLen (e : BitVec 1) (s : State) : (startEncoder e s).keyLen = s.keyLen := rfl
@[simp] theorem startEncoder_time (e : BitVec 1) (s : State) : (startEncoder e s).time = s.time := rfl
@[simp] theorem startEncoder_tStep (e : BitVec 1) (s : State) : (startEncoder e s).tStep = s.tStep := rfl
@[simp] theorem startEncoder_digits (e : BitVec 1) (s : State) : (startEncoder e s).digits = s.digits := rfl
@[simp] theorem startEncoder_result (e : BitVec 1) (s : State) : (startEncoder e s).result = s.result := rfl
@[simp] theorem startEncoder_err (e : BitVec 1) (s : State) : (startEncoder e s).err = s.err := rfl
@[simp] theorem startEncoder_dig (e : BitVec 1) (s : State) : (startEncoder e s).dig = s.dig := rfl
@[simp] theorem startEncoder_given (e : BitVec 1) (s : State) : (startEncoder e s).given = s.given := rfl
@[simp] theorem startEncoder_ibuf (e : BitVec 1) (s : State) : (startEncoder e s).ibuf = s.ibuf := rfl
@[simp] theorem startEncoder_kbuf (e : BitVec 1) (s : State) : (startEncoder e s).kbuf = s.kbuf := rfl
@[simp] theorem startEncoder_obuf (e : BitVec 1) (s : State) : (startEncoder e s).obuf = s.obuf := rfl
@[simp] theorem startEncoder_phase (e : BitVec 1) (s : State) : (startEncoder e s).phase = s.phase := rfl
@[simp] theorem startEncoder_scratch (e : BitVec 1) (s : State) : (startEncoder e s).scratch = { s.scratch with esel := e, acc := 0#32, pend := 0#5, iidx := 0#32, ocnt := 0#32 } := rfl
@[simp] theorem startEncoder_draws (e : BitVec 1) (s : State) : (startEncoder e s).draws = s.draws := rfl
@[simp] theorem startEncoder_fresh (e : BitVec 1) (s : State) : (startEncoder e s).fresh = s.fresh := rfl
@[simp] theorem startEncoder_host (e : BitVec 1) (s : State) : (startEncoder e s).host = s.host := rfl
@[simp] theorem startEncoder_seen (e : BitVec 1) (s : State) : (startEncoder e s).seen = s.seen := rfl

/-! ## `setAcc` -/

@[simp] theorem setAcc_cmd (a : Word) (p : Nat) (ph : Phase) (s : State) : (setAcc a p ph s).cmd = s.cmd := rfl
@[simp] theorem setAcc_len (a : Word) (p : Nat) (ph : Phase) (s : State) : (setAcc a p ph s).len = s.len := rfl
@[simp] theorem setAcc_cap (a : Word) (p : Nat) (ph : Phase) (s : State) : (setAcc a p ph s).cap = s.cap := rfl
@[simp] theorem setAcc_keyLen (a : Word) (p : Nat) (ph : Phase) (s : State) : (setAcc a p ph s).keyLen = s.keyLen := rfl
@[simp] theorem setAcc_time (a : Word) (p : Nat) (ph : Phase) (s : State) : (setAcc a p ph s).time = s.time := rfl
@[simp] theorem setAcc_tStep (a : Word) (p : Nat) (ph : Phase) (s : State) : (setAcc a p ph s).tStep = s.tStep := rfl
@[simp] theorem setAcc_digits (a : Word) (p : Nat) (ph : Phase) (s : State) : (setAcc a p ph s).digits = s.digits := rfl
@[simp] theorem setAcc_result (a : Word) (p : Nat) (ph : Phase) (s : State) : (setAcc a p ph s).result = s.result := rfl
@[simp] theorem setAcc_err (a : Word) (p : Nat) (ph : Phase) (s : State) : (setAcc a p ph s).err = s.err := rfl
@[simp] theorem setAcc_dig (a : Word) (p : Nat) (ph : Phase) (s : State) : (setAcc a p ph s).dig = s.dig := rfl
@[simp] theorem setAcc_given (a : Word) (p : Nat) (ph : Phase) (s : State) : (setAcc a p ph s).given = s.given := rfl
@[simp] theorem setAcc_ibuf (a : Word) (p : Nat) (ph : Phase) (s : State) : (setAcc a p ph s).ibuf = s.ibuf := rfl
@[simp] theorem setAcc_kbuf (a : Word) (p : Nat) (ph : Phase) (s : State) : (setAcc a p ph s).kbuf = s.kbuf := rfl
@[simp] theorem setAcc_obuf (a : Word) (p : Nat) (ph : Phase) (s : State) : (setAcc a p ph s).obuf = s.obuf := rfl
@[simp] theorem setAcc_phase (a : Word) (p : Nat) (ph : Phase) (s : State) : (setAcc a p ph s).phase = ph := rfl
@[simp] theorem setAcc_scratch (a : Word) (p : Nat) (ph : Phase) (s : State) : (setAcc a p ph s).scratch = { s.scratch with acc := a, pend := BitVec.ofNat 5 p } := rfl
@[simp] theorem setAcc_draws (a : Word) (p : Nat) (ph : Phase) (s : State) : (setAcc a p ph s).draws = s.draws := rfl
@[simp] theorem setAcc_fresh (a : Word) (p : Nat) (ph : Phase) (s : State) : (setAcc a p ph s).fresh = s.fresh := rfl
@[simp] theorem setAcc_host (a : Word) (p : Nat) (ph : Phase) (s : State) : (setAcc a p ph s).host = s.host := rfl
@[simp] theorem setAcc_seen (a : Word) (p : Nat) (ph : Phase) (s : State) : (setAcc a p ph s).seen = s.seen := rfl

/-! ## `observe` -/

@[simp] theorem observe_cmd (o : Observation) (s : State) : (observe o s).cmd = s.cmd := rfl
@[simp] theorem observe_len (o : Observation) (s : State) : (observe o s).len = s.len := rfl
@[simp] theorem observe_cap (o : Observation) (s : State) : (observe o s).cap = s.cap := rfl
@[simp] theorem observe_keyLen (o : Observation) (s : State) : (observe o s).keyLen = s.keyLen := rfl
@[simp] theorem observe_time (o : Observation) (s : State) : (observe o s).time = s.time := rfl
@[simp] theorem observe_tStep (o : Observation) (s : State) : (observe o s).tStep = s.tStep := rfl
@[simp] theorem observe_digits (o : Observation) (s : State) : (observe o s).digits = s.digits := rfl
@[simp] theorem observe_result (o : Observation) (s : State) : (observe o s).result = s.result := rfl
@[simp] theorem observe_err (o : Observation) (s : State) : (observe o s).err = s.err := rfl
@[simp] theorem observe_dig (o : Observation) (s : State) : (observe o s).dig = s.dig := rfl
@[simp] theorem observe_given (o : Observation) (s : State) : (observe o s).given = s.given := rfl
@[simp] theorem observe_ibuf (o : Observation) (s : State) : (observe o s).ibuf = s.ibuf := rfl
@[simp] theorem observe_kbuf (o : Observation) (s : State) : (observe o s).kbuf = s.kbuf := rfl
@[simp] theorem observe_obuf (o : Observation) (s : State) : (observe o s).obuf = s.obuf := rfl
@[simp] theorem observe_phase (o : Observation) (s : State) : (observe o s).phase = s.phase := rfl
@[simp] theorem observe_scratch (o : Observation) (s : State) : (observe o s).scratch = s.scratch := rfl
@[simp] theorem observe_draws (o : Observation) (s : State) : (observe o s).draws = s.draws := rfl
@[simp] theorem observe_fresh (o : Observation) (s : State) : (observe o s).fresh = s.fresh := rfl
@[simp] theorem observe_host (o : Observation) (s : State) : (observe o s).host = s.host := rfl
@[simp] theorem observe_seen (o : Observation) (s : State) : (observe o s).seen = s.seen ++ [o] := rfl

/-! ## `encodeSucceeds` -/

@[simp] theorem encodeSucceeds_cmd (b : List Byte) (s : State) : (encodeSucceeds b s).cmd = s.cmd := rfl
@[simp] theorem encodeSucceeds_len (b : List Byte) (s : State) : (encodeSucceeds b s).len = s.len := rfl
@[simp] theorem encodeSucceeds_cap (b : List Byte) (s : State) : (encodeSucceeds b s).cap = s.cap := rfl
@[simp] theorem encodeSucceeds_keyLen (b : List Byte) (s : State) : (encodeSucceeds b s).keyLen = s.keyLen := rfl
@[simp] theorem encodeSucceeds_time (b : List Byte) (s : State) : (encodeSucceeds b s).time = s.time := rfl
@[simp] theorem encodeSucceeds_tStep (b : List Byte) (s : State) : (encodeSucceeds b s).tStep = s.tStep := rfl
@[simp] theorem encodeSucceeds_digits (b : List Byte) (s : State) : (encodeSucceeds b s).digits = s.digits := rfl
@[simp] theorem encodeSucceeds_result (b : List Byte) (s : State) : (encodeSucceeds b s).result = BitVec.ofNat 32 (enc b).length := rfl
@[simp] theorem encodeSucceeds_err (b : List Byte) (s : State) : (encodeSucceeds b s).err = 0#3 := rfl
@[simp] theorem encodeSucceeds_dig (b : List Byte) (s : State) : (encodeSucceeds b s).dig = s.dig := rfl
@[simp] theorem encodeSucceeds_given (b : List Byte) (s : State) : (encodeSucceeds b s).given = { s.given with outcome := true } := rfl
@[simp] theorem encodeSucceeds_ibuf (b : List Byte) (s : State) : (encodeSucceeds b s).ibuf = s.ibuf := rfl
@[simp] theorem encodeSucceeds_kbuf (b : List Byte) (s : State) : (encodeSucceeds b s).kbuf = s.kbuf := rfl
@[simp] theorem encodeSucceeds_obuf (b : List Byte) (s : State) : (encodeSucceeds b s).obuf = Memory.writeFrom s.obuf 0 (enc b ++ [nul]) := rfl
@[simp] theorem encodeSucceeds_phase (b : List Byte) (s : State) : (encodeSucceeds b s).phase = .idle := rfl
@[simp] theorem encodeSucceeds_scratch (b : List Byte) (s : State) : (encodeSucceeds b s).scratch = freeScratch s.fresh := rfl
@[simp] theorem encodeSucceeds_draws (b : List Byte) (s : State) : (encodeSucceeds b s).draws = s.draws := rfl
@[simp] theorem encodeSucceeds_fresh (b : List Byte) (s : State) : (encodeSucceeds b s).fresh = s.fresh + 1 := rfl
@[simp] theorem encodeSucceeds_host (b : List Byte) (s : State) : (encodeSucceeds b s).host = s.host := rfl
@[simp] theorem encodeSucceeds_seen (b : List Byte) (s : State) : (encodeSucceeds b s).seen = s.seen := rfl

/-! ## `hmacEffect` -/

@[simp] theorem hmacEffect_cmd (h : List Byte → Digest) (k m : List Byte) (s : State) : (hmacEffect h k m s).cmd = s.cmd := rfl
@[simp] theorem hmacEffect_len (h : List Byte → Digest) (k m : List Byte) (s : State) : (hmacEffect h k m s).len = s.len := rfl
@[simp] theorem hmacEffect_cap (h : List Byte → Digest) (k m : List Byte) (s : State) : (hmacEffect h k m s).cap = s.cap := rfl
@[simp] theorem hmacEffect_keyLen (h : List Byte → Digest) (k m : List Byte) (s : State) : (hmacEffect h k m s).keyLen = s.keyLen := rfl
@[simp] theorem hmacEffect_time (h : List Byte → Digest) (k m : List Byte) (s : State) : (hmacEffect h k m s).time = s.time := rfl
@[simp] theorem hmacEffect_tStep (h : List Byte → Digest) (k m : List Byte) (s : State) : (hmacEffect h k m s).tStep = s.tStep := rfl
@[simp] theorem hmacEffect_digits (h : List Byte → Digest) (k m : List Byte) (s : State) : (hmacEffect h k m s).digits = s.digits := rfl
@[simp] theorem hmacEffect_result (h : List Byte → Digest) (k m : List Byte) (s : State) : (hmacEffect h k m s).result = 20#32 := rfl
@[simp] theorem hmacEffect_err (h : List Byte → Digest) (k m : List Byte) (s : State) : (hmacEffect h k m s).err = 0#3 := rfl
@[simp] theorem hmacEffect_dig (h : List Byte → Digest) (k m : List Byte) (s : State) : (hmacEffect h k m s).dig = hmac h k m := rfl
@[simp] theorem hmacEffect_given (h : List Byte → Digest) (k m : List Byte) (s : State) : (hmacEffect h k m s).given = { s.given with outcome := true, dig := true } := rfl
@[simp] theorem hmacEffect_ibuf (h : List Byte → Digest) (k m : List Byte) (s : State) : (hmacEffect h k m s).ibuf = s.ibuf := rfl
@[simp] theorem hmacEffect_kbuf (h : List Byte → Digest) (k m : List Byte) (s : State) : (hmacEffect h k m s).kbuf = s.kbuf := rfl
@[simp] theorem hmacEffect_obuf (h : List Byte → Digest) (k m : List Byte) (s : State) : (hmacEffect h k m s).obuf = s.obuf := rfl
@[simp] theorem hmacEffect_phase (h : List Byte → Digest) (k m : List Byte) (s : State) : (hmacEffect h k m s).phase = .idle := rfl
@[simp] theorem hmacEffect_scratch (h : List Byte → Digest) (k m : List Byte) (s : State) : (hmacEffect h k m s).scratch = freeScratch s.fresh := rfl
@[simp] theorem hmacEffect_draws (h : List Byte → Digest) (k m : List Byte) (s : State) : (hmacEffect h k m s).draws = s.draws := rfl
@[simp] theorem hmacEffect_fresh (h : List Byte → Digest) (k m : List Byte) (s : State) : (hmacEffect h k m s).fresh = s.fresh + 1 := rfl
@[simp] theorem hmacEffect_host (h : List Byte → Digest) (k m : List Byte) (s : State) : (hmacEffect h k m s).host = s.host := rfl
@[simp] theorem hmacEffect_seen (h : List Byte → Digest) (k m : List Byte) (s : State) : (hmacEffect h k m s).seen = s.seen := rfl

/-! ## `placeCommand` -/

@[simp] theorem placeCommand_cmd (op : Byte) (s : State) : (placeCommand op s).cmd = s.cmd := rfl
@[simp] theorem placeCommand_len (op : Byte) (s : State) : (placeCommand op s).len = s.len := rfl
@[simp] theorem placeCommand_cap (op : Byte) (s : State) : (placeCommand op s).cap = s.cap := rfl
@[simp] theorem placeCommand_keyLen (op : Byte) (s : State) : (placeCommand op s).keyLen = s.keyLen := rfl
@[simp] theorem placeCommand_time (op : Byte) (s : State) : (placeCommand op s).time = s.time := rfl
@[simp] theorem placeCommand_tStep (op : Byte) (s : State) : (placeCommand op s).tStep = s.tStep := rfl
@[simp] theorem placeCommand_digits (op : Byte) (s : State) : (placeCommand op s).digits = s.digits := rfl
@[simp] theorem placeCommand_result (op : Byte) (s : State) : (placeCommand op s).result = s.result := rfl
@[simp] theorem placeCommand_err (op : Byte) (s : State) : (placeCommand op s).err = s.err := rfl
@[simp] theorem placeCommand_dig (op : Byte) (s : State) : (placeCommand op s).dig = s.dig := rfl
@[simp] theorem placeCommand_given (op : Byte) (s : State) : (placeCommand op s).given = operandsGiven s.given := rfl
@[simp] theorem placeCommand_ibuf (op : Byte) (s : State) : (placeCommand op s).ibuf = s.ibuf := rfl
@[simp] theorem placeCommand_kbuf (op : Byte) (s : State) : (placeCommand op s).kbuf = s.kbuf := rfl
@[simp] theorem placeCommand_obuf (op : Byte) (s : State) : (placeCommand op s).obuf = s.obuf := rfl
@[simp] theorem placeCommand_phase (op : Byte) (s : State) : (placeCommand op s).phase = .idle := rfl
@[simp] theorem placeCommand_scratch (op : Byte) (s : State) : (placeCommand op s).scratch = s.scratch := rfl
@[simp] theorem placeCommand_draws (op : Byte) (s : State) : (placeCommand op s).draws = s.draws := rfl
@[simp] theorem placeCommand_fresh (op : Byte) (s : State) : (placeCommand op s).fresh = s.fresh := rfl
@[simp] theorem placeCommand_host (op : Byte) (s : State) : (placeCommand op s).host = .command op :: s.host := rfl
@[simp] theorem placeCommand_seen (op : Byte) (s : State) : (placeCommand op s).seen = s.seen := rfl

/-! ## The host's reset, a buffer replaced, and what a read reports -/

@[simp] theorem assertReset_phase (s : State) : (assertReset s).phase = .idle := rfl
@[simp] theorem assertReset_ibuf (s : State) : (assertReset s).ibuf = s.ibuf := rfl
@[simp] theorem assertReset_kbuf (s : State) : (assertReset s).kbuf = s.kbuf := rfl
@[simp] theorem assertReset_obuf (s : State) :
    (assertReset s).obuf = if s.phase = .idle then s.obuf else Memory.spoil s.obuf s.cap.toNat (freeObuf s.fresh) := rfl
@[simp] theorem assertReset_host (s : State) : (assertReset s).host = s.host := rfl
@[simp] theorem assertReset_seen (s : State) : (assertReset s).seen = s.seen := rfl
@[simp] theorem assertReset_draws (s : State) : (assertReset s).draws = s.draws := rfl
@[simp] theorem assertReset_given (s : State) : (assertReset s).given = { Given.nothing with outcome := decide (s.phase ≠ .idle) } := rfl
@[simp] theorem assertReset_fresh (s : State) : (assertReset s).fresh = s.fresh + 1 := rfl

@[simp] theorem buffer_setBuffer_same (s : State) (b : BufferId) (m : Memory) : buffer (setBuffer s b m) b = m := by
  cases b <;> rfl

theorem buffer_setBuffer_other (s : State) {b c : BufferId} (m : Memory) (h : c ≠ b) :
    buffer (setBuffer s b m) c = buffer s c := by
  cases b <;> cases c <;> first | rfl | exact absurd rfl h

@[simp] theorem setBuffer_phase (s : State) (b : BufferId) (m : Memory) : (setBuffer s b m).phase = s.phase := by
  cases b <;> rfl

@[simp] theorem setBuffer_given (s : State) (b : BufferId) (m : Memory) : (setBuffer s b m).given = s.given := by
  cases b <;> rfl

@[simp] theorem reported_true {α : Type} (v : α) : reported true v = some v := rfl
@[simp] theorem reported_false {α : Type} (v : α) : reported false v = none := rfl

@[simp] theorem loadBuffer_given (b : BufferId) (bytes : List Byte) (s : State) :
    (loadBuffer b bytes s).given = givenLoad b bytes.length s.given := rfl

@[simp] theorem buffer_loadBuffer_same (b : BufferId) (bytes : List Byte) (s : State) :
    buffer (loadBuffer b bytes s) b = Memory.writeFrom (buffer s b) 0 bytes := by
  cases b <;> rfl

theorem buffer_loadBuffer_other {b c : BufferId} (bytes : List Byte) (s : State) (h : c ≠ b) :
    buffer (loadBuffer b bytes s) c = buffer s c := by
  cases b <;> cases c <;> first | rfl | exact absurd rfl h

@[simp] theorem setBuffer_host (s : State) (b : BufferId) (m : Memory) : (setBuffer s b m).host = s.host := by
  cases b <;> rfl

end Sys2Proof.Machine
end

