-- ==== Sys2Proof/Laws/Start.lean ====
section
/-! SUPPORT. When the start of a command is refused, and what a command reads when it is not. -/

namespace Sys2Proof.Machine

/-! ## Which operand registers must have been given a value, command by command -/

theorem operandsGiven_b32enc (s : State) :
    OperandsGiven .b32enc s ↔ s.given.len = true ∧ s.given.cap = true := by
  simp [OperandsGiven, operandRegs, isGiven]

theorem operandsGiven_totp (s : State) :
    OperandsGiven .totp s
      ↔ s.given.keyLen = true ∧ s.given.time = true ∧ s.given.tStep = true ∧ s.given.digits = true := by
  simp [OperandsGiven, operandRegs, isGiven]

theorem operandsGiven_hmac (s : State) :
    OperandsGiven .hmac s ↔ s.given.keyLen = true ∧ s.given.len = true := by
  simp [OperandsGiven, operandRegs, isGiven]

theorem operandsGiven_gensec (s : State) : OperandsGiven .gensec s ↔ s.given.cap = true := by
  simp [OperandsGiven, operandRegs, isGiven]

/-! ## The reasons for a refusal -/

theorem firstUngiven_eq_none_iff (s : State) (rs : List RegName) :
    firstUngiven s rs = none ↔ ∀ r ∈ rs, isGiven s r = true := by
  induction rs with
  | nil => simp [firstUngiven]
  | cons r rs ih =>
    unfold firstUngiven
    rw [List.forall_mem_cons]
    split_ifs with h
    · simpa [h] using ih
    · simp [h]

theorem firstTooLong_eq_none_iff (s : State) (rs : List LengthReg) :
    firstTooLong s rs = none ↔ ∀ r ∈ rs, lengthValue s r ≤ Config.lenMax := by
  induction rs with
  | nil => simp [firstTooLong]
  | cons r rs ih =>
    unfold firstTooLong
    split_ifs with h
    · simp only [List.forall_mem_cons, false_iff, not_and]
      omega
    · rw [ih, List.forall_mem_cons]
      exact ⟨fun h' => ⟨by omega, h'⟩, fun h' => h'.2⟩

theorem firstUnwritten_eq_none_iff (s : State) (bs : List BufferId) :
    firstUnwritten s bs = none ↔ ∀ b ∈ bs, Filled s b := by
  induction bs with
  | nil => simp [firstUnwritten]
  | cons b bs ih =>
    unfold firstUnwritten
    rw [List.forall_mem_cons, Filled, written_iff_readRange]
    cases hf : filledSinceReset s b <;>
      cases h : Memory.readRange (buffer s b) 0 (bufferSize s b) <;> simp [ih]

/-- Two regions meet exactly when some address is a byte of both. -/
theorem regionsMeet_iff (a n b m : Nat) :
    regionsMeet a n b m = true ↔ ∃ i < n, ∃ j < m, a + i = b + j := by
  simp only [regionsMeet, Bool.and_eq_true, decide_eq_true_eq]
  constructor
  · rintro ⟨⟨⟨h1, h2⟩, h3⟩, h4⟩
    exact ⟨b - a, by omega, a - b, by omega, by omega⟩
  · rintro ⟨i, hi, j, hj, h⟩
    omega

/-- In three spaces of their own no buffers overlap. -/
theorem buffersOverlap_separate (s : State) (bs : List BufferId) :
    buffersOverlap .separate s bs = false := by
  cases bs <;> rfl

theorem overlapping_separate {E : Env} (h : E.binding = .separate) (s : State) :
    overlapping E s = none := by
  unfold overlapping
  rw [h, buffersOverlap_separate]
  rfl

theorem env_binding : Config.env.binding = .separate := rfl

/-- The start of a command is not refused exactly when it is ready, in three spaces of their own. -/
theorem startRefusal_eq_none_iff {E : Env} (hE : E.binding = .separate) (i : Instr) (s : State) :
    startRefusal E i s = none ↔ Ready i s := by
  unfold startRefusal Ready
  by_cases hp : s.phase = .idle
  · rw [if_neg (fun h => h hp)]
    simp only [Option.or_eq_none_iff, firstUngiven_eq_none_iff, firstTooLong_eq_none_iff,
      firstUnwritten_eq_none_iff, overlapping_separate hE]
    cases i <;> simp [hp, OperandsGiven, lengthRegs, inputBuffers, zeroStep, lengthValue, buffer, bufferSize, and_assoc]
  · simp [hp]

theorem started_ready {E : Env} (hE : E.binding = .separate) {i : Instr} {s : State} (h : Ready i s) (k : Answer) :
    started E i s k = k := by
  unfold started
  rw [(startRefusal_eq_none_iff hE i s).2 h]

theorem started_not_ready {E : Env} (hE : E.binding = .separate) {i : Instr} {s : State} (h : ¬ Ready i s)
    (k : Answer) : ∃ r, started E i s k = .refused r := by
  unfold started
  cases hr : startRefusal E i s with
  | none => exact absurd ((startRefusal_eq_none_iff hE i s).1 hr) h
  | some r => exact ⟨r, rfl⟩

/-- A start that is refused, is refused with that reason. -/
theorem started_refused {E : Env} {i : Instr} {s : State} {r : Refusal} (h : startRefusal E i s = some r)
    (k : Answer) : started E i s k = .refused r := by
  unfold started
  rw [h]

/-- A command that answers a next state was not refused. -/
theorem started_next {E : Env} {i : Instr} {s t : State} {k : Answer} (h : started E i s k = .next t) :
    startRefusal E i s = none ∧ k = .next t := by
  unfold started at h
  cases hr : startRefusal E i s with
  | none => rw [hr] at h; exact ⟨rfl, h⟩
  | some r => rw [hr] at h; cases h

/-- Overlapping regions refuse every command (rule R71). -/
theorem started_overlapping {E : Env} {s : State} (h : buffersOverlap E.binding s allBuffers = true) (i : Instr)
    (k : Answer) : ∃ r, started E i s k = .refused r := by
  have hne : startRefusal E i s ≠ none := by
    unfold startRefusal overlapping
    by_cases hp : s.phase = .idle <;> simp [hp, h]
  obtain ⟨r, hr⟩ := Option.ne_none_iff_exists'.1 hne
  exact ⟨r, started_refused hr k⟩

theorem startRefusal_busy (E : Env) (i : Instr) {s : State} (h : s.phase ≠ .idle) :
    startRefusal E i s = some .commandInProgress := by
  unfold startRefusal
  rw [if_pos h]

/-! ## What a command reads -/

theorem memReadAll_eq_ok_iff (s : State) (b : BufferId) (v : List Byte) :
    memReadAll s b = .ok v ↔ bufferSize s b = v.length ∧ HoldsFrom (buffer s b) 0 v := by
  unfold memReadAll
  cases h : Memory.readRange (buffer s b) 0 (bufferSize s b) with
  | none =>
    simp only [reduceCtorEq, false_iff]
    rintro ⟨h1, h2⟩
    have := (readRange_eq_some_iff (buffer s b) 0 (bufferSize s b) v).2 ⟨h1.symm, h2⟩
    rw [h] at this; cases this
  | some w =>
    have hw := (readRange_eq_some_iff _ _ _ _).1 h
    simp only [Except.ok.injEq]
    constructor
    · rintro rfl; exact ⟨hw.1.symm, hw.2⟩
    · rintro ⟨h1, h2⟩
      have := (readRange_eq_some_iff (buffer s b) 0 (bufferSize s b) v).2 ⟨h1.symm, h2⟩
      rw [h] at this; exact Option.some.inj this

theorem exists_memReadAll {s : State} {b : BufferId} (h : Written (buffer s b) (bufferSize s b)) :
    ∃ v, memReadAll s b = .ok v := by
  obtain ⟨v, hv⟩ := exists_readRange_of_written h
  exact ⟨v, by unfold memReadAll; rw [hv]⟩

theorem memRead_of_written {s : State} {b : BufferId} {i : Nat} (h : Written (buffer s b) (bufferSize s b))
    (hi : i < bufferSize s b) : ∃ v, Memory.read (buffer s b) i = some v ∧ memRead s b i = .ok v := by
  obtain ⟨v, hv⟩ := Option.isSome_iff_exists.1 (h i hi)
  exact ⟨v, hv, by unfold memRead; rw [if_pos hi, hv]⟩

theorem memRead_eq_ok {s : State} {b : BufferId} {i : Nat} {v : Byte} (h : memRead s b i = .ok v) :
    i < bufferSize s b ∧ Memory.read (buffer s b) i = some v := by
  unfold memRead at h
  split_ifs at h with hi
  cases hr : Memory.read (buffer s b) i with
  | none => rw [hr] at h; cases h
  | some w => rw [hr] at h; exact ⟨hi, by simpa using h⟩

@[simp] theorem orFault_ok {α : Type} (a : α) (k : α → Answer) : orFault (.ok a) k = k a := rfl
@[simp] theorem orFault_error {α : Type} (e : Fault) (k : α → Answer) : orFault (.error e) k = .fault e := rfl

/-- What goes on after a read answers a next state only if the read succeeded. -/
theorem orFault_next {α : Type} {r : Except Fault α} {k : α → Answer} {t : State} (h : orFault r k = .next t) :
    ∃ a, r = .ok a ∧ k a = .next t := by
  cases r with
  | ok a => exact ⟨a, rfl, h⟩
  | error e => cases h

/-! ## Readiness from what the buffers hold -/

theorem filled_of_holds {s : State} {b : BufferId} {v : List Byte} (hs : bufferSize s b = v.length)
    (h : HoldsFrom (buffer s b) 0 v) (hf : filledSinceReset s b = true) : Filled s b :=
  ⟨hf, by rw [hs]; exact written_of_holdsFrom h⟩

theorem filledSinceReset_ibuf (s : State) : filledSinceReset s .ibuf = true ↔ s.len.toNat ≤ s.given.ibuf := by
  simp [filledSinceReset]

theorem filledSinceReset_kbuf (s : State) : filledSinceReset s .kbuf = true ↔ s.keyLen.toNat ≤ s.given.kbuf := by
  simp [filledSinceReset]

theorem InputReady.ready_b32enc {s : State} {b : List Byte} (h : InputReady s b) : Ready .b32enc s := by
  obtain ⟨h1, h2, h3, h4, h5, hl, hc, hf⟩ := h
  exact ⟨h1, (operandsGiven_b32enc s).2 ⟨hl, hc⟩, by rw [h2]; exact h4, h5,
    filled_of_holds h2 h3 ((filledSinceReset_ibuf s).2 (h2 ▸ hf))⟩

theorem InputReady.ready_b32dec {s : State} {b : List Byte} (h : InputReady s b) : Ready .b32dec s :=
  h.ready_b32enc

theorem InputReady.memReadAll {s : State} {b : List Byte} (h : InputReady s b) : memReadAll s .ibuf = .ok b :=
  (memReadAll_eq_ok_iff s .ibuf b).2 ⟨h.2.1, h.2.2.1⟩

theorem HmacReady.ready {s : State} {key msg : List Byte} (h : HmacReady s key msg) : Ready .hmac s := by
  obtain ⟨h1, h2, h3, h4, h5, h6, h7, hk, hl, hfk, hfi⟩ := h
  exact ⟨h1, (operandsGiven_hmac s).2 ⟨hk, hl⟩, by rw [h2]; exact h6, by rw [h4]; exact h7,
    filled_of_holds h2 h3 ((filledSinceReset_kbuf s).2 (h2 ▸ hfk)),
    filled_of_holds h4 h5 ((filledSinceReset_ibuf s).2 (h4 ▸ hfi))⟩

theorem HmacReady.key {s : State} {key msg : List Byte} (h : HmacReady s key msg) : memReadAll s .kbuf = .ok key :=
  (memReadAll_eq_ok_iff s .kbuf key).2 ⟨h.2.1, h.2.2.1⟩

theorem HmacReady.msg {s : State} {key msg : List Byte} (h : HmacReady s key msg) : memReadAll s .ibuf = .ok msg :=
  (memReadAll_eq_ok_iff s .ibuf msg).2 ⟨h.2.2.2.1, h.2.2.2.2.1⟩

theorem TotpReady.ready {s : State} {key : List Byte} (h : TotpReady s key) : Ready .totp s := by
  obtain ⟨h1, h2, h3, h4, h5, hk, ht, hs, hd, hf⟩ := h
  exact ⟨h1, (operandsGiven_totp s).2 ⟨hk, ht, hs, hd⟩, by rw [h2]; exact h4, h5,
    filled_of_holds h2 h3 ((filledSinceReset_kbuf s).2 (h2 ▸ hf))⟩

theorem TotpReady.key {s : State} {key : List Byte} (h : TotpReady s key) : memReadAll s .kbuf = .ok key :=
  (memReadAll_eq_ok_iff s .kbuf key).2 ⟨h.2.1, h.2.2.1⟩

theorem secretReady_iff (s : State) : SecretReady s ↔ Ready .gensec s := by
  simp only [SecretReady, Ready, operandsGiven_gensec]
  tauto

end Sys2Proof.Machine
end

