-- ==== Sys2Proof/Laws/Exec.lean ====
section
/-! SUPPORT. What each command answers: its effect when it may start, a refusal otherwise, never a fault. -/

namespace Sys2Proof.Machine

/-! ## From readiness to the answer -/

theorem b32encWith_of_input {E : Env} (hE : E.binding = .separate) {s : State} {b : List Byte}
    (h : InputReady s b) : b32encWith E s = .next (encodeEffect b s) := by
  unfold b32encWith
  rw [started_ready hE h.ready_b32enc, h.memReadAll, orFault_ok]

theorem b32decWith_of_input {E : Env} (hE : E.binding = .separate) {s : State} {text : List Byte}
    (h : InputReady s text) : b32decWith E s = .next (decodeEffect text s) := by
  unfold b32decWith
  rw [started_ready hE h.ready_b32dec, h.memReadAll, orFault_ok]

theorem hmacWith_of_ready {E : Env} (hE : E.binding = .separate) {s : State} {key msg : List Byte}
    (h : HmacReady s key msg) : hmacWith E s = .next (hmacEffect E.hash key msg s) := by
  unfold hmacWith
  rw [started_ready hE h.ready, h.key, orFault_ok, h.msg, orFault_ok]

theorem totpWith_of_ready {E : Env} (hE : E.binding = .separate) {s : State} {key : List Byte}
    (h : TotpReady s key) : totpWith E s = .next (totpEffect E.hash key s) := by
  unfold totpWith
  rw [started_ready hE h.ready, h.key, orFault_ok]

theorem gensecWith_of_ready {E : Env} (hE : E.binding = .separate) {s : State} (h : SecretReady s) :
    gensecWith E s = .next (secretEffect (E.rand s.draws) (countDraw s)) := by
  unfold gensecWith
  rw [started_ready hE ((secretReady_iff s).1 h)]

theorem exec_b32enc_of_input {s : State} {b : List Byte} (h : InputReady s b) :
    exec .b32enc s = .next (encodeEffect b s) :=
  b32encWith_of_input env_binding h

theorem exec_b32dec_of_input {s : State} {text : List Byte} (h : InputReady s text) :
    exec .b32dec s = .next (decodeEffect text s) :=
  b32decWith_of_input env_binding h

theorem exec_hmac_of_ready {s : State} {key msg : List Byte} (h : HmacReady s key msg) :
    exec .hmac s = .next (hmacEffect Config.hash key msg s) :=
  hmacWith_of_ready env_binding h

theorem exec_totp_of_ready {s : State} {key : List Byte} (h : TotpReady s key) :
    exec .totp s = .next (totpEffect Config.hash key s) :=
  totpWith_of_ready env_binding h

theorem exec_gensec_of_ready {s : State} (h : SecretReady s) :
    exec .gensec s = .next (secretEffect (Config.rand s.draws) (countDraw s)) :=
  gensecWith_of_ready env_binding h

/-! ## What a ready state holds -/

theorem Ready.input {s : State} (h : Ready .b32enc s) : ∃ b, InputReady s b := by
  obtain ⟨h1, hg, h2, h3, hf, hw⟩ := h
  obtain ⟨b, hb⟩ := exists_readRange_of_written hw
  obtain ⟨hl, hh⟩ := (readRange_eq_some_iff _ _ _ _).1 hb
  obtain ⟨gl, gc⟩ := (operandsGiven_b32enc s).1 hg
  have hl' : b.length = s.len.toNat := hl
  have hf' := (filledSinceReset_ibuf s).1 hf
  exact ⟨b, h1, hl'.symm, hh, by omega, h3, gl, gc, by omega⟩

theorem Ready.hmac {s : State} (h : Ready .hmac s) : ∃ key msg, HmacReady s key msg := by
  obtain ⟨h1, hg, h2, h3, ⟨hfk, hwk⟩, hfi, hwi⟩ := h
  obtain ⟨key, hk⟩ := exists_readRange_of_written hwk
  obtain ⟨msg, hm⟩ := exists_readRange_of_written hwi
  obtain ⟨hkl, hkh⟩ := (readRange_eq_some_iff _ _ _ _).1 hk
  obtain ⟨hml, hmh⟩ := (readRange_eq_some_iff _ _ _ _).1 hm
  obtain ⟨gk, gl⟩ := (operandsGiven_hmac s).1 hg
  have hkl' : key.length = s.keyLen.toNat := hkl
  have hml' : msg.length = s.len.toNat := hml
  have hfk' := (filledSinceReset_kbuf s).1 hfk
  have hfi' := (filledSinceReset_ibuf s).1 hfi
  exact ⟨key, msg, h1, hkl'.symm, hkh, hml'.symm, hmh, by omega, by omega, gk, gl, by omega, by omega⟩

theorem Ready.totp {s : State} (h : Ready .totp s) : ∃ key, TotpReady s key := by
  obtain ⟨h1, hg, h2, h3, hf, hw⟩ := h
  obtain ⟨key, hk⟩ := exists_readRange_of_written hw
  obtain ⟨hkl, hkh⟩ := (readRange_eq_some_iff _ _ _ _).1 hk
  obtain ⟨gk, gt, gs, gd⟩ := (operandsGiven_totp s).1 hg
  have hkl' : key.length = s.keyLen.toNat := hkl
  have hf' := (filledSinceReset_kbuf s).1 hf
  exact ⟨key, h1, hkl'.symm, hkh, by omega, h3, gk, gt, gs, gd, by omega⟩

/-! ## From the answer back -/

theorem exec_not_ready {i : Instr} {s : State} (h : ¬ Ready i s) : ∃ r, exec i s = .refused r := by
  cases i <;> exact started_not_ready env_binding h _

theorem exec_next_ready {i : Instr} {s t : State} (h : exec i s = .next t) : Ready i s := by
  by_contra hn
  obtain ⟨r, hr⟩ := exec_not_ready hn
  rw [hr] at h; cases h

/-- `B32ENC` that answers a next state has its effect on the input the buffer holds. -/
theorem exec_b32enc_next {s t : State} (h : exec .b32enc s = .next t) :
    ∃ b, InputReady s b ∧ t = encodeEffect b s := by
  obtain ⟨b, hb⟩ := (exec_next_ready h).input
  rw [exec_b32enc_of_input hb] at h
  exact ⟨b, hb, by injection h with h; exact h.symm⟩

theorem exec_b32dec_next {s t : State} (h : exec .b32dec s = .next t) :
    ∃ text, InputReady s text ∧ t = decodeEffect text s := by
  have hr : Ready .b32dec s := exec_next_ready h
  obtain ⟨b, hb⟩ := Ready.input (s := s) hr
  rw [exec_b32dec_of_input hb] at h
  exact ⟨b, hb, by injection h with h; exact h.symm⟩

theorem exec_hmac_next {s t : State} (h : exec .hmac s = .next t) :
    ∃ key msg, HmacReady s key msg ∧ t = hmacEffect Config.hash key msg s := by
  obtain ⟨key, msg, hk⟩ := (exec_next_ready h).hmac
  rw [exec_hmac_of_ready hk] at h
  exact ⟨key, msg, hk, by injection h with h; exact h.symm⟩

theorem exec_totp_next {s t : State} (h : exec .totp s = .next t) :
    ∃ key, TotpReady s key ∧ t = totpEffect Config.hash key s := by
  obtain ⟨key, hk⟩ := (exec_next_ready h).totp
  rw [exec_totp_of_ready hk] at h
  exact ⟨key, hk, by injection h with h; exact h.symm⟩

theorem exec_gensec_next {s t : State} (h : exec .gensec s = .next t) :
    SecretReady s ∧ t = secretEffect (Config.rand s.draws) (countDraw s) := by
  have hr : SecretReady s := (secretReady_iff s).2 (exec_next_ready h)
  rw [exec_gensec_of_ready hr] at h
  exact ⟨hr, by injection h with h; exact h.symm⟩

/-! ## The shape of an effect: failure, or success with its output -/

/-- `B32ENC` fails for want of room or succeeds. -/
theorem encodeEffect_cases (b : List Byte) (s : State) :
    (s.cap.toNat < requiredCap b.length ∧ encodeEffect b s = raise .bufferTooSmall s)
      ∨ (requiredCap b.length ≤ s.cap.toNat ∧ encodeEffect b s = encodeSucceeds b s) := by
  unfold encodeEffect
  split_ifs with h
  · exact .inl ⟨h, rfl⟩
  · exact .inr ⟨by omega, rfl⟩

/-- What a successful decode leaves. -/
def decodedState (text : List Byte) (s : State) : State :=
  succeed (BitVec.ofNat 32 (dec text).length) { s with obuf := Memory.writeFrom s.obuf 0 (dec text) }

/-- `B32DEC` fails for want of room, fails at an invalid character, or succeeds. -/
theorem decodeEffect_cases (text : List Byte) (s : State) :
    (capacityExceeded text s.cap.toNat = true ∧ decodeEffect text s = raise .bufferTooSmall s)
      ∨ (capacityExceeded text s.cap.toNat = false ∧ firstInvalid text < text.length
          ∧ decodeEffect text s = raise .invalidCharacter s)
      ∨ (capacityExceeded text s.cap.toNat = false ∧ ¬ firstInvalid text < text.length
          ∧ decodeEffect text s = decodedState text s) := by
  unfold decodeEffect
  split_ifs with h1 h2
  · exact .inl ⟨h1, rfl⟩
  · exact .inr (.inl ⟨by simpa using h1, h2, rfl⟩)
  · exact .inr (.inr ⟨by simpa using h1, h2, rfl⟩)

/-- `TOTP` fails at its digit count or succeeds. -/
theorem totpEffect_cases (hash : List Byte → Digest) (key : List Byte) (s : State) :
    (8 < s.digits.toNat ∧ totpEffect hash key s = raise .invalidDigitCount s)
      ∨ (s.digits.toNat ≤ 8 ∧ totpEffect hash key s
          = succeed (BitVec.ofNat 32 (code hash key s.time.toNat s.tStep.toNat s.digits.toNat)) s) := by
  unfold totpEffect
  split_ifs with h
  · exact .inl ⟨h, rfl⟩
  · exact .inr ⟨by omega, rfl⟩

/-- `GENSEC` fails at the draw, fails for want of room, or succeeds. -/
theorem secretEffect_cases (d : Draw) (s : State) :
    (d = none ∧ secretEffect d s = raise .randomSourceFailure s)
      ∨ (∃ r, d = some r ∧ s.cap.toNat < 33 ∧ secretEffect d s = raise .bufferTooSmall s)
      ∨ ∃ r, d = some r ∧ 33 ≤ s.cap.toNat ∧ secretEffect d s = encodeSucceeds r.toList s := by
  cases d with
  | none => exact .inl ⟨rfl, rfl⟩
  | some r =>
    by_cases h : s.cap.toNat < 33
    · exact .inr (.inl ⟨r, rfl, h, if_pos h⟩)
    · exact .inr (.inr ⟨r, rfl, by omega, if_neg h⟩)

/-- A failure leaves `OBUF` as it was at and above `CAP`. -/
theorem raise_sameFrom (v : ErrorVariant) (s : State) : SameFrom s.cap.toNat s.obuf (raise v s).obuf := by
  rw [raise_obuf]
  split_ifs
  · exact sameFrom_spoil _ _ _
  · exact SameFrom.refl _ _

/-- No variant's code is 0. -/
theorem errorCode_ne_zero (v : ErrorVariant) : errorCode v ≠ 0#3 := by
  cases v <;> decide

theorem raise_err_ne_zero (v : ErrorVariant) (s : State) : ¬ (raise v s).err = 0#3 :=
  errorCode_ne_zero v

theorem keepsOperands_raise (v : ErrorVariant) (s : State) : KeepsOperands s (raise v s) := by
  simp [KeepsOperands]

theorem keepsOperands_encodeSucceeds (b : List Byte) (s : State) : KeepsOperands s (encodeSucceeds b s) := by
  simp [KeepsOperands, encodeSucceeds]

/-- What a successful encode leaves, for an input in the supported range. -/
theorem encodeSucceeds_spec (s : State) {b : List Byte} (h : b.length ≤ Config.lenMax) :
    (encodeSucceeds b s).result.toNat = 8 * ((b.length + 4) / 5)
      ∧ HoldsFrom (encodeSucceeds b s).obuf 0 (enc b ++ [0x00#8])
      ∧ SameFrom (8 * ((b.length + 4) / 5) + 1) s.obuf (encodeSucceeds b s).obuf := by
  have hmax : Config.lenMax < 2 ^ 31 := by decide
  refine ⟨?_, holdsFrom_writeFrom _ _ _, ?_⟩
  · simp [encodeSucceeds, enc_length, textLength_eq]; omega
  · have := sameFrom_writeFrom s.obuf (enc b ++ [nul])
    rwa [List.length_append, enc_length, textLength_eq] at this

/-- The length a successful decode reports, for a text in the supported range. -/
theorem decodedState_result (s : State) {text : List Byte} (h : text.length ≤ Config.lenMax) :
    (decodedState text s).result.toNat = 5 * (symbolValues text).length / 8 := by
  have hmax : Config.lenMax < 2 ^ 31 := by decide
  have hlen : (symbolValues text).length ≤ text.length := List.length_filterMap_le _ _
  simp [decodedState, dec_length]; omega

/-- A code is below the power of ten its digit count names. -/
theorem code_lt (hash : List Byte → Digest) (key : List Byte) (t s g : Nat) : code hash key t s g < 10 ^ g :=
  Nat.mod_lt _ (by positivity)

end Sys2Proof.Machine
end

