-- ==== Sys2Proof/Laws/PerInstr.lean ====
section
/-! SUPPORT. Statements for all commands, one lemma a constructor. -/

namespace Sys2Proof.Laws.Encoding

/-- A well-formed command's code is a well-formed command word, and the decoder reads the command back from it,
leaving what follows. -/
def Statement (i : Instr) : Prop :=
  i.wf = true → commandWordWf (encode i) = true ∧ ∀ rest : List Byte, decode (encode i :: rest) = .command i rest

theorem b32enc : Statement .b32enc := fun _ => ⟨rfl, fun _ => rfl⟩
theorem b32dec : Statement .b32dec := fun _ => ⟨rfl, fun _ => rfl⟩
theorem totp : Statement .totp := fun _ => ⟨rfl, fun _ => rfl⟩
theorem hmac : Statement .hmac := fun _ => ⟨rfl, fun _ => rfl⟩
theorem gensec : Statement .gensec := fun _ => ⟨rfl, fun _ => rfl⟩

end Sys2Proof.Laws.Encoding
end

