-- ==== Sys2Proof/Laws/Phases.lean ====
section
/-! SUPPORT. The sequencer phase by phase: which rule each phase fires, and what writing to `OBUF` does. -/

namespace Sys2Proof.Machine

/-! ## Which rule is fired -/

theorem phaseStep_eq (s : State) : phaseStep s = phaseStepWith Config.env s := rfl

theorem phaseStep_idle {s : State} (h : s.phase = .idle) : phaseStep s = .next s := by
  unfold phaseStep phaseStepWith; rw [h]

theorem phaseStep_encCheck {s : State} (h : s.phase = .encCheck) : phaseStep s = encCheck s := by
  unfold phaseStep phaseStepWith; rw [h]

theorem phaseStep_encAbsorb {s : State} (h : s.phase = .encAbsorb) : phaseStep s = encAbsorb s := by
  unfold phaseStep phaseStepWith; rw [h]

theorem phaseStep_encDrain {s : State} (h : s.phase = .encDrain) : phaseStep s = encDrain s := by
  unfold phaseStep phaseStepWith; rw [h]

theorem phaseStep_encTail {s : State} (h : s.phase = .encTail) : phaseStep s = encTail s := by
  unfold phaseStep phaseStepWith; rw [h]

theorem phaseStep_encPad {s : State} (h : s.phase = .encPad) : phaseStep s = encPad s := by
  unfold phaseStep phaseStepWith; rw [h]

theorem phaseStep_encTerm {s : State} (h : s.phase = .encTerm) : phaseStep s = encTerm s := by
  unfold phaseStep phaseStepWith; rw [h]

theorem phaseStep_decInit {s : State} (h : s.phase = .decInit) : phaseStep s = decInit s := by
  unfold phaseStep phaseStepWith; rw [h]

theorem phaseStep_decScan {s : State} (h : s.phase = .decScan) : phaseStep s = decScan s := by
  unfold phaseStep phaseStepWith; rw [h]

theorem phaseStep_decEnd {s : State} (h : s.phase = .decEnd) : phaseStep s = decEnd s := by
  unfold phaseStep phaseStepWith; rw [h]

theorem phaseStep_hmCmd {s : State} (h : s.phase = .hmCmd) : phaseStep s = hmCmd s := by
  unfold phaseStep phaseStepWith; rw [h]

theorem phaseStep_hmNorm {s : State} (h : s.phase = .hmNorm) : phaseStep s = hmNorm Config.env s := by
  unfold phaseStep phaseStepWith; rw [h]

theorem phaseStep_hmPads {s : State} (h : s.phase = .hmPads) : phaseStep s = hmPads s := by
  unfold phaseStep phaseStepWith; rw [h]

theorem phaseStep_hmInner {s : State} (h : s.phase = .hmInner) : phaseStep s = hmInner Config.env s := by
  unfold phaseStep phaseStepWith; rw [h]

theorem phaseStep_hmOuter {s : State} (h : s.phase = .hmOuter) : phaseStep s = hmOuter Config.env s := by
  unfold phaseStep phaseStepWith; rw [h]

theorem phaseStep_hmDone {s : State} (h : s.phase = .hmDone) : phaseStep s = hmDone s := by
  unfold phaseStep phaseStepWith; rw [h]

theorem phaseStep_toCheck {s : State} (h : s.phase = .toCheck) : phaseStep s = toCheck s := by
  unfold phaseStep phaseStepWith; rw [h]

theorem phaseStep_toCtr {s : State} (h : s.phase = .toCtr) : phaseStep s = toCtr s := by
  unfold phaseStep phaseStepWith; rw [h]

theorem phaseStep_toTrunc {s : State} (h : s.phase = .toTrunc) : phaseStep s = toTrunc s := by
  unfold phaseStep phaseStepWith; rw [h]

theorem phaseStep_gsRand {s : State} (h : s.phase = .gsRand) : phaseStep s = gsRand Config.env s := by
  unfold phaseStep phaseStepWith; rw [h]

theorem phaseStep_gsCheck {s : State} (h : s.phase = .gsCheck) : phaseStep s = gsCheck s := by
  unfold phaseStep phaseStepWith; rw [h]

/-! ## Writing one byte -/

/-- A byte below `CAP` is written. -/
theorem memWriteObuf_ok {s : State} {i : Nat} (h : i < s.cap.toNat) (v : Byte) :
    memWriteObuf s i v = .ok { s with obuf := Memory.write s.obuf i v } := by
  unfold memWriteObuf; rw [if_pos h]

/-- A byte that was written is below `CAP`, and nothing but `OBUF` changed. -/
theorem memWriteObuf_eq_ok {s t : State} {i : Nat} {v : Byte} (h : memWriteObuf s i v = .ok t) :
    i < s.cap.toNat ∧ t = { s with obuf := Memory.write s.obuf i v } := by
  unfold memWriteObuf at h
  split_ifs at h with hi
  exact ⟨hi, by injection h with h; exact h.symm⟩

/-- The state after `bytes` were written from `OCNT` on and counted. -/
def withOutput (bytes : List Byte) (s : State) : State :=
  { s with
    obuf := Memory.writeFrom s.obuf s.scratch.ocnt.toNat bytes
    scratch := { s.scratch with ocnt := s.scratch.ocnt + BitVec.ofNat 32 bytes.length } }

theorem putByte_ok {s : State} (h : s.scratch.ocnt.toNat < s.cap.toNat) (v : Byte) :
    putByte v s = .ok (withOutput [v] s) := by
  unfold putByte; rw [memWriteObuf_ok h]; rfl

theorem putByte_eq_ok {s t : State} {v : Byte} (h : putByte v s = .ok t) :
    s.scratch.ocnt.toNat < s.cap.toNat ∧ t = withOutput [v] s := by
  unfold putByte at h
  cases hw : memWriteObuf s s.scratch.ocnt.toNat v with
  | error e => rw [hw] at h; cases h
  | ok u =>
    rw [hw] at h
    obtain ⟨hi, rfl⟩ := memWriteObuf_eq_ok hw
    exact ⟨hi, by injection h with h; exact h.symm⟩

theorem withOutput_nil (s : State) : withOutput [] s = s := by
  simp [withOutput, Memory.writeFrom]

theorem withOutput_ocnt {s : State} {bytes : List Byte}
    (h : s.scratch.ocnt.toNat + bytes.length ≤ s.cap.toNat) :
    (withOutput bytes s).scratch.ocnt.toNat = s.scratch.ocnt.toNat + bytes.length := by
  have := s.cap.isLt
  simp only [withOutput, BitVec.toNat_add, BitVec.toNat_ofNat]
  omega

/-- Output in two parts. -/
theorem withOutput_append {s : State} {xs ys : List Byte}
    (h : s.scratch.ocnt.toNat + xs.length ≤ s.cap.toNat) :
    withOutput ys (withOutput xs s) = withOutput (xs ++ ys) s := by
  have ho := withOutput_ocnt h
  unfold withOutput at ho ⊢
  simp only at ho
  simp only [ho, writeFrom_append, List.length_append]
  congr 2
  rw [BitVec.add_assoc, ← BitVec.ofNat_add]

/-- `EmitSym` of some values, all below `CAP`: their symbols are written and counted. -/
theorem emitSyms_ok (vs : List (BitVec 5)) (s : State) (h : s.scratch.ocnt.toNat + vs.length ≤ s.cap.toNat) :
    emitSyms vs s = .ok (withOutput (vs.map alpha) s) := by
  induction vs generalizing s with
  | nil => simp [emitSyms, withOutput_nil]
  | cons v vs ih =>
    rw [List.length_cons] at h
    have h1 : s.scratch.ocnt.toNat + [alpha v].length ≤ s.cap.toNat := by simp; omega
    unfold emitSyms emitSym
    rw [putByte_ok (by omega)]
    show emitSyms vs (withOutput [alpha v] s) = _
    rw [ih _ (by rw [withOutput_ocnt h1]; simp [withOutput]; omega), withOutput_append h1]
    rfl

/-- `EmitSym` of some values that did not fault was all below `CAP`. -/
theorem emitSyms_eq_ok {vs : List (BitVec 5)} {s t : State} (h : emitSyms vs s = .ok t) :
    (vs = [] ∨ s.scratch.ocnt.toNat + vs.length ≤ s.cap.toNat) ∧ t = withOutput (vs.map alpha) s := by
  induction vs generalizing s with
  | nil => exact ⟨.inl rfl, by injection h with h; rw [← h]; exact (withOutput_nil s).symm⟩
  | cons v vs ih =>
    unfold emitSyms emitSym at h
    cases hp : putByte (alpha v) s with
    | error e => rw [hp] at h; cases h
    | ok u =>
      rw [hp] at h
      obtain ⟨hi, rfl⟩ := putByte_eq_ok hp
      have h1 : s.scratch.ocnt.toNat + [alpha v].length ≤ s.cap.toNat := by simp; omega
      obtain ⟨hc, rfl⟩ := ih h
      rw [withOutput_append h1]
      refine ⟨.inr ?_, rfl⟩
      rw [withOutput_ocnt h1] at hc
      rcases hc with rfl | hc
      · simpa using h1
      · simp only [withOutput, List.length_cons, List.length_nil] at hc ⊢; omega

/-- Output below `CAP` leaves `OBUF` as it was at and above `CAP`. -/
theorem withOutput_sameFrom {s : State} {bytes : List Byte}
    (h : bytes = [] ∨ s.scratch.ocnt.toNat + bytes.length ≤ s.cap.toNat) :
    SameFrom s.cap.toNat s.obuf (withOutput bytes s).obuf := by
  rcases h with rfl | h
  · rw [withOutput_nil]; exact SameFrom.refl _ _
  · intro a ha
    unfold withOutput
    simp only
    rw [read_writeFrom, if_neg (by omega)]

end Sys2Proof.Machine
end

