-- ==== Sys2Proof/Laws/Step.lean ====
section
/-! SUPPORT. What a step is in each situation, and how steps make a run. -/

namespace Sys2Proof.Machine

theorem step_idle {s : State} (h : s.phase = .idle) : step s = hostTurn s := by
  unfold step advance
  rw [if_pos h]

theorem step_running {s : State} (h : s.phase ≠ .idle) : step s = runningTurn s := by
  unfold step advance
  rw [if_neg h]

/-- In `IDLE` the host's next action is performed. -/
theorem step_idle_action {s : State} (h : s.phase = .idle) {a : HostAction} {rest : List HostAction}
    (hh : s.host = a :: rest) : step s = hostAct a { s with host := rest } := by
  rw [step_idle h]
  unfold hostTurn
  rw [hh]

theorem step_idle_nothing {s : State} (h : s.phase = .idle) (hh : s.host = []) : step s = .next s := by
  rw [step_idle h]
  unfold hostTurn
  rw [hh]

/-- Whether reset comes next depends on the host's list alone. -/
theorem NoResetNext.of_host {s t : State} (hn : NoResetNext s) (h : t.host = s.host) : NoResetNext t :=
  fun k rest => h ▸ hn k rest

/-- While a command runs and the host does not assert reset, a step is one phase rule. -/
theorem step_running_noReset {s : State} (h : s.phase ≠ .idle) (hn : NoResetNext s) : step s = phaseStep s := by
  rw [step_running h]
  unfold runningTurn
  split
  · rename_i rest hh; exact absurd hh (hn 0 rest)
  · rename_i k rest hh; exact absurd hh (hn (k + 1) rest)
  · rfl

/-- While a command runs a step is a reset, or one phase rule with at most the host's list changed. -/
theorem step_running_cases {s : State} (h : s.phase ≠ .idle) :
    (∃ rest, s.host = .reset 0 :: rest ∧ step s = .next (assertReset { s with host := rest }))
      ∨ ∃ host, step s = phaseStep { s with host := host } := by
  rw [step_running h]
  unfold runningTurn
  split
  · rename_i rest hh; exact .inl ⟨rest, hh, rfl⟩
  · exact .inr ⟨_, rfl⟩
  · exact .inr ⟨s.host, rfl⟩

/-! ## Runs -/

theorem run_zero (s : State) : Host.Core.run Sys2Proof.core 0 s = .next s := rfl

theorem run_succ {s t : State} (k : Nat) (h : step s = .next t) :
    Host.Core.run Sys2Proof.core (k + 1) s = Host.Core.run Sys2Proof.core k t := by
  have h' : Sys2Proof.core.step s = .next t := h
  simp only [Host.Core.run, h']

/-- A run that has come to `IDLE` has ended. -/
theorem endsAfter_zero {t : State} (h : t.phase = .idle) : EndsAfter 0 t t :=
  ⟨rfl, h, fun _ hj => absurd hj (Nat.not_lt_zero _)⟩

/-- A run begins with a step from a state that is not idle. -/
theorem endsAfter_succ {s u t : State} {k : Nat} (hp : s.phase ≠ .idle) (h : step s = .next u)
    (hu : EndsAfter k u t) : EndsAfter (k + 1) s t := by
  refine ⟨by rw [run_succ k h]; exact hu.1, hu.2.1, fun j hj => ?_⟩
  cases j with
  | zero => exact ⟨s, rfl, hp⟩
  | succ j =>
    obtain ⟨v, hv, hvp⟩ := hu.2.2 j (by omega)
    exact ⟨v, by rw [run_succ j h]; exact hv, hvp⟩

/-- The last step of a run. -/
theorem endsAfter_one {s t : State} (hp : s.phase ≠ .idle) (h : step s = .next t) (ht : t.phase = .idle) :
    EndsAfter 1 s t :=
  endsAfter_succ hp h (endsAfter_zero ht)

/-- A run begins with a phase rule when the host does not assert reset. -/
theorem endsAfter_phase {s u t : State} {k : Nat} (hp : s.phase ≠ .idle) (hn : NoResetNext s)
    (h : phaseStep s = .next u) (hu : EndsAfter k u t) : EndsAfter (k + 1) s t :=
  endsAfter_succ hp ((step_running_noReset hp hn).trans h) hu

end Sys2Proof.Machine
end

