-- ==== Sys2Proof/Tests/Slice0.lean ====
section
/-! SUPPORT. Small tests against the spec's own vectors (`95_test_vectors.md`), and for each obligation with
hypotheses a witness: a concrete state and operands that meet all of them. -/

namespace Sys2Proof.Tests

open Sys2Proof Sys2Proof.Machine

/-! ## Fixtures -/

/-- A machine with an input, a key and a capacity, all written since reset. -/
def machine (input key : List Byte) (cap : Word) : State :=
  { State.reset with
    len := BitVec.ofNat 32 input.length
    keyLen := BitVec.ofNat 32 key.length
    cap := cap
    given := { operandsGiven Given.nothing with ibuf := input.length, kbuf := key.length }
    ibuf := Memory.writeFrom [] 0 input
    kbuf := Memory.writeFrom [] 0 key }

/-- A machine set up for `TOTP`. -/
def timed (key : List Byte) (time tStep : DWord) (digits : Word) : State :=
  { machine [] key 0#32 with time := time, tStep := tStep, digits := digits }

/-- The test hash of `95_test_vectors.md` section 5. -/
def htoy (m : List Byte) : Digest :=
  let s := (m.foldl (fun (acc : Nat × Nat) x => (acc.1 + (acc.2 + 1) * x.toNat, acc.2 + 1)) (0, 0)).1
  Vector.ofFn fun i => BitVec.ofNat 8 (s + 31 * i.val + m.length)

/-- The parameters with the test hash and one answer of the random port. -/
def toyEnv (draw : Draw) : Env :=
  { hash := htoy, rand := fun _ => draw, binding := .separate }

/-- `RESULT`, `ERR` and the first `n` bytes of `OBUF` of a next state. -/
def outcome (n : Nat) : Answer → Option (Word × BitVec 3 × Option (List Byte))
  | .next t => some (t.result, t.err, Memory.readRange t.obuf 0 n)
  | .fault _ => none
  | .refused _ => none

/-- Whether an answer is a next state. -/
def completes : Answer → Bool
  | .next _ => true
  | .fault _ => false
  | .refused _ => false

/-- `"foobar"`. -/
def foobar : List Byte := [0x66#8, 0x6f#8, 0x6f#8, 0x62#8, 0x61#8, 0x72#8]

/-- `"MZXW6YTBOI======"`. -/
def foobarText : List Byte :=
  [0x4d#8, 0x5a#8, 0x58#8, 0x57#8, 0x36#8, 0x59#8, 0x54#8, 0x42#8]
  ++ [0x4f#8, 0x49#8, 0x3d#8, 0x3d#8, 0x3d#8, 0x3d#8, 0x3d#8, 0x3d#8]

/-- `"12345678901234567890"`. -/
def secret : List Byte :=
  [0x31#8, 0x32#8, 0x33#8, 0x34#8, 0x35#8, 0x36#8, 0x37#8, 0x38#8, 0x39#8, 0x30#8]
  ++ [0x31#8, 0x32#8, 0x33#8, 0x34#8, 0x35#8, 0x36#8, 0x37#8, 0x38#8, 0x39#8, 0x30#8]

/-- 20 bytes 0xff. -/
def allOnes : Vector Byte 20 := Vector.replicate 20 0xff#8

/-! ## Well-formed command words (rule R93) -/

theorem test_word_zero_refused : commandWordWf 0x00#8 = false := by decide
theorem test_word_six_refused : commandWordWf 0x06#8 = false := by decide
theorem test_word_high_bit_refused : commandWordWf 0x81#8 = false := by decide
theorem test_word_ones_refused : commandWordWf 0xff#8 = false := by decide
theorem test_word_five_accepted : commandWordWf 0x05#8 = true := by decide

/-! ## Decoding: words written out bit by bit from rule R91 -/

theorem test_decode_b32enc : decode [0b00000001#8] = .command .b32enc [] := by decide
theorem test_decode_b32dec : decode [0b00000010#8] = .command .b32dec [] := by decide
theorem test_decode_totp : decode [0b00000011#8] = .command .totp [] := by decide
theorem test_decode_hmac : decode [0b00000100#8] = .command .hmac [] := by decide
theorem test_decode_gensec : decode [0b00000101#8] = .command .gensec [] := by decide
theorem test_decode_reserved : decode [0b00000110#8] = .reservedCode 0x06#8 := by decide
theorem test_decode_nothing : decode [] = .noWord := by decide
theorem test_table_word : decodeTableWord 8 0x05 = some .gensec := by decide
theorem test_table_word_short : decodeTableWord 2 0x03 = some .totp := by decide

/-! ## One step after reset with a command word placed -/

theorem test_fetch_b32enc : completes (step (State.reset.withFetchWord 8 0x01)) = true := by decide +kernel
theorem test_fetch_gensec : completes (step (State.reset.withFetchWord 8 0x05)) = true := by decide +kernel
/-- The field of `TSTEP` is 0 at reset (log 1), which `TOTP` refuses (rule R232). -/
theorem test_fetch_totp : step (State.reset.withFetchWord 8 0x03) = .refused .zeroTimeStep := rfl
theorem test_fetch_reserved : step (State.reset.withFetchWord 8 0x06) = .refused (.reservedCommand 0x06#8) := rfl

/-! ## The commands (`95_test_vectors.md`) -/

/-- Section 1.1, last row; section 2.3: `CAP = 17`. -/
theorem test_b32enc_foobar :
    outcome 17 (b32encWith (toyEnv none) (machine foobar [] 17#32))
      = some (16#32, 0#3, some (foobarText ++ [0x00#8])) := by decide +kernel

/-- Section 2.3: `CAP = 16` has no room for the terminator. -/
theorem test_b32enc_no_room :
    outcome 0 (b32encWith (toyEnv none) (machine foobar [] 16#32)) = some (0xFFFFFFFF#32, 2#3, some []) := by
  decide +kernel

/-- Section 2.4: `"=M=Y="` gives 66. -/
theorem test_b32dec_padding_anywhere :
    outcome 1 (b32decWith (toyEnv none) (machine [0x3d#8, 0x4d#8, 0x3d#8, 0x59#8, 0x3d#8] [] 1#32))
      = some (1#32, 0#3, some [0x66#8]) := by decide +kernel

/-- Section 2.6: `"MZ!W6YTB"` with `CAP = 1`: the bad character is met first. -/
theorem test_b32dec_first_fault :
    outcome 0 (b32decWith (toyEnv none)
        (machine [0x4d#8, 0x5a#8, 0x21#8, 0x57#8, 0x36#8, 0x59#8, 0x54#8, 0x42#8] [] 1#32))
      = some (0xFFFFFFFF#32, 1#3, some []) := by decide +kernel

/-- Section 3.1, second row: `"key"`, `"msg"`. -/
theorem test_hmac_key_msg :
    (hmac htoy [0x6b#8, 0x65#8, 0x79#8] [0x6d#8, 0x73#8, 0x67#8]).toList
      = [0xfe#8, 0x1d#8, 0x3c#8, 0x5b#8, 0x7a#8, 0x99#8, 0xb8#8, 0xd7#8, 0xf6#8, 0x15#8]
        ++ [0x34#8, 0x53#8, 0x72#8, 0x91#8, 0xb0#8, 0xcf#8, 0xee#8, 0x0d#8, 0x2c#8, 0x4b#8] := by decide +kernel

/-- Section 3.1, fourth row: 65 bytes are hashed; the first four digest bytes. -/
theorem test_hmac_long_key :
    ((hmac htoy ((List.range 65).map (BitVec.ofNat 8)) [0x01#8]).toList).take 4
      = [0x2e#8, 0x4d#8, 0x6c#8, 0x8b#8] := by decide +kernel

/-- Section 4.3, first row. -/
theorem test_totp_row_one :
    outcome 0 (totpWith (toyEnv none) (timed secret 59#64 30#64 8#32)) = some (99974144#32, 0#3, some []) := by
  decide +kernel

/-- Section 4.4: `DIGITS = 9`. -/
theorem test_totp_nine_digits :
    outcome 0 (totpWith (toyEnv none) (timed secret 59#64 30#64 9#32)) = some (0xFFFFFFFF#32, 3#3, some []) := by
  decide +kernel

/-- Section 6, fourth row: 32 times `7`. -/
theorem test_gensec_ones :
    outcome 33 (gensecWith (toyEnv (some allOnes)) (machine [] [] 33#32))
      = some (32#32, 0#3, some (List.replicate 32 0x37#8 ++ [0x00#8])) := by decide +kernel

/-- Section 6: a failed draw wins over a small capacity (rule R275). -/
theorem test_gensec_draw_first :
    outcome 0 (gensecWith (toyEnv none) (machine [] [] 0#32)) = some (0xFFFFFFFF#32, 4#3, some []) := by
  decide +kernel

/-- Section 2.2: 21 steps; section 2.5: ten; `70_reset_and_hazards.md` rule R336: 28 for `GENSEC`. -/
theorem test_step_counts :
    stepCount .b32enc foobar none (machine foobar [] 17#32) = 21
      ∧ stepCount .b32dec (foobarText.take 8) none (machine (foobarText.take 8) [] 5#32) = 10
      ∧ stepCount .gensec [] (some allOnes) (machine [] [] 33#32) = 28 := by decide +kernel

/-- Section 4.1, third last row: `05 f5 e1 00` at offset 15 is 10^8, and gives 0 with 8 digits. -/
theorem test_extractor_top :
    (truncMask (truncField (Vector.ofFn fun i =>
        if i.val = 15 then 0x05#8 else if i.val = 16 then 0xf5#8 else if i.val = 17 then 0xe1#8
        else if i.val = 19 then 0x0f#8 else 0x00#8) 15#4)).toNat = 100000000 := by decide +kernel

/-- Section 8: `B32ENC` straight after reset, with `LEN` never written (item U8). -/
theorem test_after_reset_refused : exec .b32enc State.reset = .refused (.unwrittenRegister .len) := rfl

/-- Section 8: a command that would read a byte the host never wrote (item U8). -/
theorem test_unwritten_refused :
    exec .b32enc { machine [] [] 9#32 with len := 1#32 } = .refused (.unwrittenByte .ibuf) := rfl

/-- `60_exceptions.md` rule R303, U8: after `LD IBUF`, a reset, `WR LEN` and `WR CAP`, the byte loaded was not written since
reset. -/
theorem test_unwritten_since_reset_refused :
    let s := assertReset (machine [0x66#8] [] 9#32)
    exec .b32enc { s with len := 1#32, cap := 9#32, given := { s.given with len := true, cap := true } }
      = .refused (.unwrittenByte .ibuf) := rfl

/-- `70_reset_and_hazards.md` rule R330: `OBUF[0..CAP-1]` of an abandoned command is any value, of `HMAC` as well, and the
byte at `CAP` is untouched. -/
theorem test_abandoned_hmac_obuf :
    let t := assertReset { machine [] [] 1#32 with phase := .hmInner, obuf := [(0, 0x41#8), (1, 0x42#8)] }
    Memory.read t.obuf 0 = some (freeObuf 0 0) ∧ Memory.read t.obuf 1 = some 0x42#8 := ⟨rfl, rfl⟩

/-- After a reset and another load of the byte `B32ENC` runs. -/
theorem test_reloaded_runs :
    let s := loadBuffer .ibuf [0x66#8] (assertReset (machine [0x66#8] [] 9#32))
    completes (exec .b32enc { s with len := 1#32, cap := 9#32, given := { s.given with len := true, cap := true } })
      = true := by decide +kernel

/-- Section 8: `LEN` above `LENMAX` (item U4). -/
theorem test_length_refused :
    exec .b32dec { machine [] [] 0#32 with len := 0x80000000#32 } = .refused (.lengthAboveMax .len) := rfl

/-- Section 8: `OBUF` bound over `IBUF[0..LEN-1]`, any command (item U6): `GENSEC`, which reads neither. -/
theorem test_overlap_refused :
    gensecWith { toyEnv (some allOnes) with binding := .mapped 0 64 0 } (machine [0x66#8] [] 33#32)
      = .refused .overlappingBuffers := rfl

/-! ## Witnesses: states and operands that meet the hypotheses of the obligations -/

theorem inputReady_f (cap : Word) (h : cap.toNat ≤ Config.lenMax) :
    InputReady (machine [0x66#8] [] cap) [0x66#8] :=
  ⟨rfl, rfl, (by decide : HoldsFrom (Memory.writeFrom [] 0 [0x66#8]) 0 [0x66#8]), by decide, h, rfl, rfl, Nat.le_refl _⟩

theorem inputReady_empty (cap : Word) (h : cap.toNat ≤ Config.lenMax) : InputReady (machine [] [] cap) [] :=
  ⟨rfl, rfl, (by decide : HoldsFrom [] 0 []), by decide, h, rfl, rfl, Nat.le_refl _⟩

/-- `"MY"`. -/
def my : List Byte := [0x4d#8, 0x59#8]

theorem inputReady_my (cap : Word) (h : cap.toNat ≤ Config.lenMax) : InputReady (machine my [] cap) my :=
  ⟨rfl, rfl, (by decide : HoldsFrom (Memory.writeFrom [] 0 my) 0 my), by decide, h, rfl, rfl, Nat.le_refl _⟩

theorem hmacReady_key (n : Nat) (h : n = 64 ∨ n = 65) :
    HmacReady (machine [0x01#8] (List.replicate n 0x61#8) 0#32) (List.replicate n 0x61#8) [0x01#8] := by
  rcases h with rfl | rfl
  · exact ⟨rfl, rfl, by decide +kernel, rfl, by decide, by decide, by decide, rfl, rfl, Nat.le_refl _, Nat.le_refl _⟩
  · exact ⟨rfl, rfl, by decide +kernel, rfl, by decide, by decide, by decide, rfl, rfl, Nat.le_refl _, Nat.le_refl _⟩

theorem totpReady_k (time tStep : DWord) (digits : Word) (h : tStep ≠ 0#64) :
    TotpReady (timed [0x6b#8] time tStep digits) [0x6b#8] :=
  ⟨rfl, rfl, (by decide : HoldsFrom (Memory.writeFrom [] 0 [0x6b#8]) 0 [0x6b#8]), by decide, h, rfl, rfl, rfl, rfl, Nat.le_refl _⟩

theorem secretReady_cap (cap : Word) (h : cap.toNat ≤ Config.lenMax) : SecretReady (machine [] [] cap) :=
  ⟨rfl, h, rfl⟩

theorem noReset (b key : List Byte) (cap : Word) : NoResetNext (machine b key cap) := by
  intro k rest h; cases h

/-! Command words. -/

theorem witness_DecodeEncodeAgree :
    Instr.wf .gensec = true ∧ decode [0x05#8, 0xaa#8] = .command .gensec [0xaa#8] := by decide

theorem witness_ReservedCodesRefused :
    (0x00#8 = 0x00#8 ∨ 0x06 ≤ (0x00#8).toNat) ∧ 0x06 ≤ (0x06#8).toNat ∧ 0x06 ≤ (0xff#8).toNat
      ∧ ({ State.reset with host := [.command 0x06#8] } : State).phase = .idle
      ∧ ({ State.reset with host := [.start 0xff#8] } : State).phase = .idle := by decide

theorem witness_StepRunsDecodedCommand :
    ({ State.reset with host := [.command 0x04#8] } : State).phase = .idle
      ∧ decode [0x04#8] = .command .hmac [] ∧ Instr.wf .hmac = true := by decide

/-- Ready for every command: an input of one byte, a key of one byte, a time step of 30, room for 33 bytes. -/
def allReady : State :=
  { machine [0x41#8] [0x6b#8] 33#32 with time := 59#64, tStep := 30#64, digits := 6#32 }

theorem allReady_ready (i : Instr) : Ready i allReady := by
  cases i
  · exact ⟨rfl, by decide, by decide, by decide, by decide⟩
  · exact ⟨rfl, by decide, by decide, by decide, by decide⟩
  · exact ⟨rfl, by decide, by decide, by decide, by decide⟩
  · exact ⟨rfl, by decide, by decide, by decide, by decide, by decide⟩
  · exact ⟨rfl, by decide, (by decide : allReady.cap.toNat ≤ Config.lenMax)⟩

theorem witness_StartSetsFirstPhase (i : Instr) :
    ∃ s : State, s.host = .start (encode i) :: [] ∧ Ready i s :=
  ⟨{ allReady with host := [.start (encode i)] }, rfl, by cases i <;> exact allReady_ready _⟩

/-! Tables: the ends of each range. -/

theorem witness_AlphabetTable :
    (0#5).toNat ≤ 25 ∧ (25#5).toNat ≤ 25 ∧ 26 ≤ (26#5).toNat ∧ 26 ≤ (31#5).toNat := by decide

theorem witness_InverseTable :
    (0x41 ≤ (0x41#8).toNat ∧ (0x5a#8).toNat ≤ 0x5A) ∧ (0x32 ≤ (0x32#8).toNat ∧ (0x37#8).toNat ≤ 0x37)
      ∧ (0x31#8).toNat ≤ 0x31 ∧ 0x38 ≤ (0x38#8).toNat ∧ (0x3c#8).toNat ≤ 0x3C
      ∧ 0x3E ≤ (0x3e#8).toNat ∧ (0x40#8).toNat ≤ 0x40 ∧ 0x5B ≤ (0x5b#8).toNat
      ∧ inv 0x37#8 = .symbol 31#5 := by decide

theorem witness_PowerTable : pow10 0 = some 1#27 ∧ pow10 8 = some 100000000#27 ∧ pow10 9 = none := by decide

/-! `Enc` and `Dec`. -/

theorem witness_EncodeLengthLaw :
    ∃ t, exec .b32enc (machine [0x66#8] [] 9#32) = .next t ∧ t.err = 0#3 :=
  ⟨_, exec_b32enc_of_input (inputReady_f 9#32 (by decide)), rfl⟩

theorem witness_PaddingByRemainder :
    (foobar.take 1).length % 5 = 1 ∧ (foobar.take 2).length % 5 = 2 ∧ (foobar.take 3).length % 5 = 3
      ∧ (foobar.take 4).length % 5 = 4 ∧ (foobar.take 5).length % 5 = 0 := by decide

/-- In `DEC_SCAN`, with `=` as the character to be read. -/
def atPadding : State :=
  { machine [0x3d#8] [] 0#32 with phase := .decScan }

theorem witness_PaddingContributesNothing :
    atPadding.phase = .decScan ∧ atPadding.scratch.iidx.toNat < atPadding.len.toNat
      ∧ Memory.read atPadding.ibuf atPadding.scratch.iidx.toNat = some 0x3D#8 := by decide

/-- What `B32ENC` of `"f"` leaves, given to `B32DEC`. -/
theorem witness_InverseLaw :
    ∃ t u : State, InputReady (machine [0x66#8] [] 9#32) [0x66#8]
      ∧ exec .b32enc (machine [0x66#8] [] 9#32) = .next t ∧ t.err = 0#3
      ∧ u.phase = .idle ∧ u.given.len = true ∧ u.given.cap = true ∧ u.len = t.result
      ∧ (∀ k < t.result.toNat, Memory.read u.ibuf k = Memory.read t.obuf k) ∧ t.result.toNat ≤ u.given.ibuf
      ∧ [0x66#8].length ≤ u.cap.toNat ∧ u.cap.toNat ≤ Config.lenMax := by
  have h := inputReady_f 9#32 (by decide)
  let t := encodeEffect [0x66#8] (machine [0x66#8] [] 9#32)
  exact ⟨t, { machine (List.replicate 8 0x00#8) [] 1#32 with len := t.result, ibuf := t.obuf }, h, exec_b32enc_of_input h,
    rfl, rfl, rfl, rfl, rfl, fun _ _ => rfl, by decide, by decide, by decide⟩

/-! `B32ENC` and `B32DEC`. -/

theorem witness_EncodeComputes :
    InputReady (machine [0x66#8] [] 9#32) [0x66#8] ∧ InputReady (machine [0x66#8] [] 8#32) [0x66#8] :=
  ⟨inputReady_f 9#32 (by decide), inputReady_f 8#32 (by decide)⟩

theorem witness_EncodeEmptyInput :
    (InputReady (machine [] [] 1#32) [] ∧ 1 ≤ (machine [] [] 1#32).cap.toNat)
      ∧ InputReady (machine [] [] 0#32) [] ∧ (machine [] [] 0#32).cap.toNat = 0 :=
  ⟨⟨inputReady_empty 1#32 (by decide), by decide⟩, inputReady_empty 0#32 (by decide), by decide⟩

/-- `"MY"` with room for one byte and for none, and `"M!"`. -/
theorem witness_DecodeComputes :
    (InputReady (machine my [] 1#32) my ∧ (∀ i < 2, inv (my.getD i 0#8) ≠ .invalid) ∧ 2 ≤ my.length)
      ∧ (InputReady (machine my [] 0#32) my ∧ Overflows my 0 2)
      ∧ InputReady (machine [0x4d#8, 0x21#8] [] 0#32) [0x4d#8, 0x21#8]
      ∧ inv ([0x4d#8, 0x21#8].getD 1 0#8) = .invalid ∧ inv ([0x4d#8, 0x21#8].getD 0 0#8) ≠ .invalid :=
  ⟨⟨inputReady_my 1#32 (by decide), by decide, by decide⟩,
    ⟨inputReady_my 0#32 (by decide), 1, by decide, ⟨24#5, by decide⟩, by decide⟩,
    ⟨rfl, rfl, by decide, by decide, by decide, rfl, rfl, by decide⟩, by decide, by decide⟩

/-- `"M!"` with room, and `"MY"` without room for its one byte. -/
theorem witness_DecodeReportsFirstFault :
    (InputReady (machine [0x4d#8, 0x21#8] [] 0#32) ([0x4d#8] ++ 0x21#8 :: []) ∧ inv 0x21#8 = .invalid
        ∧ (∀ d ∈ [0x4d#8], inv d ≠ .invalid) ∧ 5 * (symbolValues [0x4d#8]).length / 8 ≤ 0)
      ∧ InputReady (machine my [] 0#32) ([0x4d#8] ++ 0x59#8 :: []) ∧ inv 0x59#8 = .symbol 24#5
        ∧ (machine my [] 0#32).cap.toNat < 5 * ((symbolValues [0x4d#8]).length + 1) / 8 :=
  ⟨⟨⟨rfl, rfl, by decide, by decide, by decide, rfl, rfl, by decide⟩, by decide, by decide, by decide⟩,
    inputReady_my 0#32 (by decide), by decide, by decide⟩

/-- In `ENC_ABSORB`, with three octets of `"foobar"` absorbed: the next fills the window. -/
def windowNext : State :=
  { machine foobar [] 17#32 with
    phase := .encAbsorb
    scratch := { Scratch.reset with acc := 0x666f6f#32, pend := 24#5, iidx := 3#32 } }

/-- The window taken; and not taken, with 16 bits pending before. -/
theorem witness_AbsorbStep :
    (windowNext.phase = .encAbsorb ∧ windowNext.scratch.pend.toNat + 8 = 32
        ∧ windowNext.scratch.ocnt.toNat + 5 ≤ windowNext.cap.toNat)
      ∧ ({ windowNext with scratch := { windowNext.scratch with pend := 16#5 } } : State).scratch.pend.toNat + 8 < 25 := by
  decide

theorem witness_AbsorbStep_read : sourceRead windowNext = .ok 0x62#8 := rfl

/-- `95_test_vectors.md` section 2.2, step 4: five symbols are out and 7 bits pending. -/
theorem test_window_of_25 :
    (match phaseStepWith (toyEnv none) windowNext with
      | .next t => some (t.scratch.acc, t.scratch.pend, t.scratch.ocnt, Memory.readRange t.obuf 0 5)
      | .fault _ => none
      | .refused _ => none)
      = some (0x62#32, 7#5, 5#32, some [0x4d#8, 0x5a#8, 0x58#8, 0x57#8, 0x36#8]) := by decide +kernel

/-- In `DEC_SCAN` with `c` as the character to be read and `p` bits pending. -/
def scanNext (c : Byte) (p : BitVec 5) (cap : Word) : State :=
  { machine [c] [] cap with phase := .decScan, scratch := { Scratch.reset with pend := p } }

theorem witness_ScanStep :
    ((scanNext 0x21#8 0#5 0#32).phase = .decScan ∧ inv 0x21#8 = .invalid)
      ∧ inv 0x3d#8 = .padding ∧ inv 0x5a#8 = .symbol 25#5
      ∧ (scanNext 0x5a#8 2#5 0#32).scratch.pend.toNat + 5 < 8
      ∧ (8 ≤ (scanNext 0x5a#8 3#5 0#32).scratch.pend.toNat + 5
          ∧ (scanNext 0x5a#8 3#5 0#32).cap.toNat ≤ (scanNext 0x5a#8 3#5 0#32).scratch.ocnt.toNat)
      ∧ ((scanNext 0x5a#8 7#5 1#32).scratch.pend.toNat ≤ 7
          ∧ (scanNext 0x5a#8 7#5 1#32).scratch.ocnt.toNat < (scanNext 0x5a#8 7#5 1#32).cap.toNat)
      ∧ Memory.read (scanNext 0x5a#8 7#5 1#32).ibuf 0 = some 0x5a#8 := by decide

/-- `95_test_vectors.md` section 2.5, second row: `Z` after `ACC = 0xC`, `PEND = 5` writes 66 and leaves `ACC = 1`,
`PEND = 2`. -/
theorem test_decoder_flush :
    (match phaseStepWith (toyEnv none)
        { scanNext 0x5a#8 5#5 5#32 with scratch := { Scratch.reset with acc := 0xC#32, pend := 5#5 } } with
      | .next t => some (t.scratch.acc, t.scratch.pend, t.scratch.ocnt, Memory.readRange t.obuf 0 1)
      | .fault _ => none
      | .refused _ => none) = some (1#32, 2#5, 1#32, some [0x66#8]) := by decide +kernel

/-! `HMAC`. -/

theorem witness_HmacComputes :
    HmacReady (machine [0x01#8] (List.replicate 64 0x61#8) 0#32) (List.replicate 64 0x61#8) [0x01#8]
      ∧ HmacReady (machine [0x01#8] (List.replicate 65 0x61#8) 0#32) (List.replicate 65 0x61#8) [0x01#8] :=
  ⟨hmacReady_key 64 (.inl rfl), hmacReady_key 65 (.inr rfl)⟩

theorem witness_KeyNormalised (n : Nat) (h : n = 64 ∨ n = 65) :
    ∃ s : State, s.phase = .hmNorm ∧ s.keyLen.toNat = (List.replicate n 0x61#8).length
      ∧ HoldsFrom s.kbuf 0 (List.replicate n 0x61#8) :=
  ⟨{ machine [0x01#8] (List.replicate n 0x61#8) 0#32 with phase := .hmNorm }, rfl,
    (hmacReady_key n h).2.1, (hmacReady_key n h).2.2.1⟩

/-! `TOTP`: the ends of the digit range, and the ends of a window. -/

theorem witness_TotpComputes :
    (TotpReady (timed [0x6b#8] 59#64 30#64 0#32) [0x6b#8] ∧ (timed [0x6b#8] 59#64 30#64 0#32).digits.toNat ≤ 8)
      ∧ TotpReady (timed [0x6b#8] 59#64 30#64 8#32) [0x6b#8]
      ∧ (timed [0x6b#8] 59#64 30#64 8#32).digits.toNat ≤ 8 :=
  ⟨⟨totpReady_k _ _ _ (by decide), by decide⟩, totpReady_k _ _ _ (by decide), by decide⟩

theorem witness_TotpRejectsDigitCount :
    (TotpReady (timed [0x6b#8] 59#64 30#64 9#32) [0x6b#8] ∧ 8 < (timed [0x6b#8] 59#64 30#64 9#32).digits.toNat)
      ∧ TotpReady (timed [0x6b#8] 59#64 30#64 0xFFFFFFFF#32) [0x6b#8]
      ∧ (timed [0x6b#8] 59#64 30#64 0xFFFFFFFF#32).digits.toInt < 0 :=
  ⟨⟨totpReady_k _ _ _ (by decide), by decide⟩, totpReady_k _ _ _ (by decide), by decide⟩

theorem witness_TotpWindowLaw :
    (TotpReady (timed [0x6b#8] 30#64 30#64 6#32) [0x6b#8] ∧ (59#64).toNat / (30#64).toNat = (30#64).toNat / (30#64).toNat)
      ∧ 30#64 ≠ 0#64 ∧ (30#64).toNat = 1 * (30#64).toNat ∧ (29#64).toNat + 1 = (30#64).toNat :=
  ⟨⟨totpReady_k _ _ _ (by decide), by decide⟩, by decide, by decide, by decide⟩

theorem witness_CodeRange :
    ∃ t, exec .totp (timed [0x6b#8] 59#64 30#64 8#32) = .next t ∧ t.err = 0#3 :=
  ⟨_, exec_totp_of_ready (totpReady_k _ _ _ (by decide)), rfl⟩

theorem witness_ZeroDigitsGiveZero :
    TotpReady (timed [0x6b#8] 59#64 30#64 0#32) [0x6b#8] ∧ (timed [0x6b#8] 59#64 30#64 0#32).digits = 0#32 :=
  ⟨totpReady_k _ _ _ (by decide), rfl⟩

theorem witness_CounterSerialised :
    ({ timed [] 59#64 30#64 6#32 with phase := .toCtr } : State).phase = .toCtr
      ∧ ({ timed [] 59#64 30#64 6#32 with phase := .toCtr } : State).tStep ≠ 0#64 :=
  ⟨rfl, by decide⟩

/-! `GENSEC`. -/

theorem witness_SecretGenerated : SecretReady (machine [] [] 32#32) ∧ SecretReady (machine [] [] 33#32) :=
  ⟨secretReady_cap 32#32 (by decide), secretReady_cap 33#32 (by decide)⟩

theorem witness_SecretRoundTrip :
    ∃ t u : State, (toyEnv (some allOnes)).binding = .separate ∧ (toyEnv (some allOnes)).rand 0 = some allOnes
      ∧ SecretReady (machine [] [] 33#32) ∧ 33 ≤ (machine [] [] 33#32).cap.toNat
      ∧ gensecWith (toyEnv (some allOnes)) (machine [] [] 33#32) = .next t
      ∧ u.phase = .idle ∧ u.given.len = true ∧ u.given.cap = true ∧ u.len = 32#32
      ∧ (∀ k < 32, Memory.read u.ibuf k = Memory.read t.obuf k) ∧ 32 ≤ u.given.ibuf
      ∧ 20 ≤ u.cap.toNat ∧ u.cap.toNat ≤ Config.lenMax := by
  have h := secretReady_cap 33#32 (by decide)
  let t := encodeSucceeds allOnes.toList (countDraw (machine [] [] 33#32))
  exact ⟨t, { machine (List.replicate 32 0x00#8) [] 20#32 with ibuf := t.obuf }, rfl, rfl, h, by decide,
    gensecWith_of_ready rfl h, rfl, rfl, rfl, rfl, fun _ _ => rfl, by decide, by decide, by decide⟩

/-! Completion, errors, frames: every command answers a next state somewhere, and may fail to start somewhere. -/

theorem witness_CompletesExactlyWhenReady :
    (∀ i : Instr, Ready i allReady) ∧ (∀ i : Instr, ¬ Ready i State.reset)
      ∧ Ready .gensec (machine [] [] 0x7FFFFFFF#32) ∧ ¬ Ready .gensec (machine [] [] 0x80000000#32) := by
  refine ⟨allReady_ready, fun i h => ?_,
    ⟨rfl, by decide, (by decide : (machine [] [] 0x7FFFFFFF#32).cap.toNat ≤ Config.lenMax)⟩,
    fun h => absurd (h.2.2 : _ ≤ Config.lenMax) (by decide)⟩
  cases i <;> exact absurd h.2.1 (by decide)

/-- For `ErrorCodesByCommand`, `ResultValues`, `CommandFrame`, `OutputBufferFrame` and `CapacityRule`: each command answers a
next state, with success for all but `GENSEC` (whose draw is free), and `B32ENC`, `B32DEC` and `TOTP` also with failure. -/
theorem witness_next :
    (∃ t, exec .b32enc (machine [0x66#8] [] 9#32) = .next t ∧ t.err = 0#3)
      ∧ (∃ t, exec .b32enc (machine [0x66#8] [] 8#32) = .next t ∧ t.err ≠ 0#3)
      ∧ (∃ t, exec .b32dec (machine my [] 1#32) = .next t ∧ t.err = 0#3)
      ∧ (∃ t, exec .b32dec (machine my [] 0#32) = .next t ∧ t.err ≠ 0#3)
      ∧ (∃ t, exec .totp (timed [0x6b#8] 59#64 30#64 8#32) = .next t ∧ t.err = 0#3)
      ∧ (∃ t, exec .totp (timed [0x6b#8] 59#64 30#64 9#32) = .next t ∧ t.err ≠ 0#3)
      ∧ (∃ t, exec .hmac (machine [0x01#8] (List.replicate 64 0x61#8) 0#32) = .next t ∧ t.err = 0#3)
      ∧ ∃ t, exec .gensec (machine [] [] 33#32) = .next t :=
  ⟨⟨_, exec_b32enc_of_input (inputReady_f 9#32 (by decide)), rfl⟩,
    ⟨_, exec_b32enc_of_input (inputReady_f 8#32 (by decide)), by decide +kernel⟩,
    ⟨_, exec_b32dec_of_input (inputReady_my 1#32 (by decide)), by decide +kernel⟩,
    ⟨_, exec_b32dec_of_input (inputReady_my 0#32 (by decide)), by decide +kernel⟩,
    ⟨_, exec_totp_of_ready (totpReady_k _ _ _ (by decide)), rfl⟩,
    ⟨_, exec_totp_of_ready (totpReady_k _ _ _ (by decide)), by decide +kernel⟩,
    ⟨_, exec_hmac_of_ready (hmacReady_key 64 (.inl rfl)), rfl⟩,
    ⟨_, exec_gensec_of_ready (secretReady_cap 33#32 (by decide))⟩⟩

/-- The same for a `GENSEC` that fails: with `CAP = 32` it does for every draw. -/
theorem witness_next_gensec_fails :
    ∃ t, exec .gensec (machine [] [] 32#32) = .next t ∧ ¬ t.err = 0#3 := by
  refine ⟨_, exec_gensec_of_ready (secretReady_cap 32#32 (by decide)), ?_⟩
  rcases secretEffect_cases (Config.rand (machine [] [] 32#32).draws) (countDraw (machine [] [] 32#32))
    with ⟨_, e⟩ | ⟨_, _, _, e⟩ | ⟨_, _, h, _⟩
  · rw [e]; exact raise_err_ne_zero _ _
  · rw [e]; exact raise_err_ne_zero _ _
  · exact absurd h (by decide)

/-- For `CapacityRule` and `PhaseTransitions`: a phase rule that answers a next state. -/
theorem witness_phase : ∃ t, phaseStep atPadding = .next t ∧ t.phase = .decEnd := by
  refine ⟨_, (phaseStep_decScan rfl).trans rfl, rfl⟩

/-! Refused situations. -/

theorem witness_ZeroStepRefused :
    (State.reset.phase = .idle ∧ State.reset.tStep = 0#64)
      ∧ (machine [] [] 0#32).phase = .idle ∧ (machine [] [] 0#32).tStep = 0#64
      ∧ OperandsGiven .totp (machine [] [] 0#32) ∧ (machine [] [] 0#32).keyLen.toNat ≤ 2147483647 := by decide

theorem witness_MeaninglessStartsRefused :
    atPadding.phase ≠ .idle
      ∧ (State.reset.given.len = false ∧ State.reset.given.cap = false ∧ State.reset.given.keyLen = false
        ∧ State.reset.given.time = false ∧ State.reset.given.tStep = false ∧ State.reset.given.digits = false)
      ∧ 2147483647 < ({ State.reset with len := 0x80000000#32 } : State).len.toNat
      ∧ 2147483647 < ({ State.reset with cap := 0x80000000#32 } : State).cap.toNat
      ∧ 2147483647 < ({ State.reset with keyLen := 0xFFFFFFFF#32 } : State).keyLen.toNat
      ∧ (State.reset.given.ibuf < ({ State.reset with len := 1#32 } : State).len.toNat
        ∧ State.reset.given.kbuf < ({ State.reset with keyLen := 1#32 } : State).keyLen.toNat)
      ∧ (0 < ({ State.reset with len := 1#32 } : State).len.toNat ∧ Memory.read State.reset.ibuf 0 = none)
      ∧ 0 < ({ State.reset with keyLen := 1#32 } : State).keyLen.toNat
      ∧ Memory.read State.reset.kbuf 0 = none := by decide

/-- Five input bytes, a key of one byte, nine bytes of output. -/
def crowded : State :=
  machine (List.replicate 5 0x41#8) [0x6b#8] 9#32

/-- `OBUF`, then `KBUF`, begins at the last input byte; and `OBUF` begins at the key's byte. -/
theorem witness_OverlapRefused :
    ((∃ E : Env, E.binding = .mapped 0 64 4) ∧ 4 < crowded.len.toNat ∧ 0 < crowded.cap.toNat ∧ 0 + 4 = 4 + 0)
      ∧ ((∃ E : Env, E.binding = .mapped 0 4 64) ∧ 4 < crowded.len.toNat ∧ 0 < crowded.keyLen.toNat ∧ 0 + 4 = 4 + 0)
      ∧ (∃ E : Env, E.binding = .mapped 0 64 64) ∧ 0 < crowded.keyLen.toNat ∧ 0 < crowded.cap.toNat
        ∧ 64 + 0 = 64 + 0 :=
  ⟨⟨⟨{ toyEnv none with binding := .mapped 0 64 4 }, rfl⟩, by decide⟩,
    ⟨⟨{ toyEnv none with binding := .mapped 0 4 64 }, rfl⟩, by decide⟩,
    ⟨{ toyEnv none with binding := .mapped 0 64 64 }, rfl⟩, by decide⟩

/-! The step level. -/

theorem witness_EncoderRunIsCommand :
    InputReady (machine [0x66#8] [] 9#32) [0x66#8] ∧ NoResetNext (machine [0x66#8] [] 9#32) :=
  ⟨inputReady_f 9#32 (by decide), noReset _ _ _⟩

theorem witness_DecoderRunIsCommand :
    InputReady (machine my [] 0#32) my ∧ NoResetNext (machine my [] 0#32) :=
  ⟨inputReady_my 0#32 (by decide), noReset _ _ _⟩

theorem witness_SecretRunIsCommand :
    SecretReady (machine [] [] 33#32) ∧ NoResetNext (machine [] [] 33#32) :=
  ⟨secretReady_cap 33#32 (by decide), noReset _ _ _⟩

theorem witness_HmacRunIsCommand :
    HmacReady (machine [0x01#8] (List.replicate 65 0x61#8) 0#32) (List.replicate 65 0x61#8) [0x01#8]
      ∧ NoResetNext (machine [0x01#8] (List.replicate 65 0x61#8) 0#32) :=
  ⟨hmacReady_key 65 (.inr rfl), noReset _ _ _⟩

theorem witness_TotpRunIsCommand :
    TotpReady (timed [0x6b#8] 59#64 30#64 9#32) [0x6b#8] ∧ NoResetNext (timed [0x6b#8] 59#64 30#64 9#32) :=
  ⟨totpReady_k _ _ _ (by decide), by intro k rest h; cases h⟩

/-! The machine. -/

/-- In `ENC_ABSORB`, with two octets of `"foobar"` absorbed. -/
def absorbing : State :=
  { machine foobar [] 17#32 with
    phase := .encAbsorb
    scratch := { Scratch.reset with acc := 0x666f#32, pend := 16#5, iidx := 2#32 } }

theorem witness_Inv : Inv absorbing :=
  ⟨by decide, by decide, by decide, ⟨by decide, by decide⟩,
    ⟨by decide, by decide, by decide, by decide, by decide⟩, fun _ => by decide, by decide, by decide⟩

/-- In `DEC_SCAN`, with `"M"` read. -/
def scanning : State :=
  { machine my [] 1#32 with
    phase := .decScan
    scratch := { Scratch.reset with acc := 0xC#32, pend := 5#5, iidx := 1#32 } }

theorem witness_Inv_decoder : Inv scanning :=
  ⟨by decide, by decide, by decide, ⟨by decide, by decide⟩, ⟨by decide, by decide, by decide, by decide⟩, by decide,
    by decide⟩

theorem witness_StepKeepsInvariant : Inv scanning ∧ ∃ t, step scanning = .next t :=
  ⟨witness_Inv_decoder, _,
    (step_running_noReset (by decide) (by intro k rest h; cases h)).trans ((phaseStep_decScan rfl).trans rfl)⟩

theorem witness_RunningNeverStops : (Inv absorbing ∧ absorbing.phase ≠ .idle) ∧ Inv scanning ∧ scanning.phase ≠ .idle :=
  ⟨⟨witness_Inv, by decide⟩, witness_Inv_decoder, by decide⟩

/-- The state after reset with one host action to do. -/
def doing (a : HostAction) : State :=
  { State.reset with host := [a] }

/-- For `HostWritesRegister`, whose clauses differ in the action alone. -/
theorem witness_HostWritesRegister (a : HostAction) : (doing a).phase = .idle ∧ (doing a).host = a :: [] :=
  ⟨rfl, rfl⟩

theorem witness_HostLoadFillsBuffer (b : BufferId) :
    (doing (.load b [0x00#8])).phase = .idle ∧ (doing (.load b [0x00#8])).host = .load b [0x00#8] :: [] :=
  ⟨rfl, rfl⟩

/-- Each read where there is a value, and where there is none. -/
theorem witness_HostReadsReport (a : HostAction) :
    (∃ s : State, s.phase = .idle ∧ s.host = a :: [] ∧ s.given.outcome = true ∧ s.given.dig = true
        ∧ HoldsFrom s.obuf 0 [0x41#8])
      ∧ (doing a).phase = .idle ∧ (doing a).host = a :: [] ∧ (doing a).given.outcome = false
        ∧ (doing a).given.dig = false ∧ Memory.read (doing a).obuf 0 = none :=
  ⟨⟨{ doing a with given := { Given.nothing with outcome := true, dig := true }, obuf := [(0, 0x41#8)] },
      rfl, rfl, rfl, rfl, (by decide : HoldsFrom [(0, 0x41#8)] 0 [0x41#8])⟩, rfl, rfl, rfl, rfl, rfl⟩

/-- `RD RESULT` straight after reset runs and is given no value (rule R337, item U8). -/
theorem test_read_after_reset :
    step (doing .readResult) = .next { State.reset with seen := [.result none] } := rfl

theorem witness_AssertedReset :
    ({ absorbing with host := [.reset 0] } : State).host = .reset 0 :: []
      ∧ ({ State.reset with host := [.reset 0] } : State).phase = .idle := by decide

theorem witness_BytePrimitives : Memory.wf [(0, 0x41#8), (2, 0x42#8)] ∧ (1 : Nat) ≠ 0 := by decide

end Sys2Proof.Tests
end

namespace Sys2Proof.Machine

/-! ## The bits of a quintet -/

/-- The bits of a number above its low ones are the bits of the number. -/
theorem mod_two_pow_div_mod (v : Nat) {m w p : Nat} (h : m + w ≤ p) :
    v % 2 ^ p / 2 ^ m % 2 ^ w = v / 2 ^ m % 2 ^ w := by
  have hp : 2 ^ p = 2 ^ m * 2 ^ (p - m) := by rw [← pow_add]; congr 1; omega
  rw [hp, Nat.mod_mul_right_div_self, Nat.mod_mod_of_dvd _ (Nat.pow_dvd_pow 2 (by omega))]

/-- A remainder is below every power of two from its modulus on. -/
theorem mod_two_pow_lt (v : Nat) {p n : Nat} (h : p ≤ n) : v % 2 ^ p < 2 ^ n :=
  (Nat.mod_lt v (by positivity)).trans_le (Nat.pow_le_pow_right (by norm_num) h)

/-- Digits appended below a remainder. -/
theorem mod_two_pow_mul_add (v p : Nat) {w x : Nat} (hx : x < 2 ^ w) :
    v % 2 ^ p * 2 ^ w + x = (v * 2 ^ w + x) % 2 ^ (p + w) := by
  rw [Nat.add_comm p w, pow_add, Nat.mod_mul, Nat.mul_add_mod_self_right, Nat.mod_eq_of_lt hx, Nat.mul_comm v,
    Nat.mul_add_div (by positivity), Nat.div_eq_of_lt hx, Nat.add_zero, Nat.add_comm, Nat.mul_comm]

/-- Quintet `k` is read off the first `i` octets when they hold all five of its bits. -/
theorem quintet_toNat_of_take (b : List Byte) {i k : Nat} (hi : i ≤ b.length) (hk : 5 * (k + 1) ≤ 8 * i) :
    (quintet b k).toNat = beValue (b.take i) / 2 ^ (8 * i - 5 * (k + 1)) % 32 := by
  have hq := symbolCount_eq b.length
  have hm : 5 * (symbolCount b.length - 1 - k)
      = 8 * (b.length - i) + (8 * i - 5 * (k + 1)) + (5 * symbolCount b.length - 8 * b.length) := by omega
  rw [quintet_toNat, beValue_take, Nat.div_div_eq_div_mul, ← pow_add, hm, pow_add _ _ (5 * _ - _),
    Nat.mul_div_mul_right _ _ (by positivity)]

/-- The last quintet where the bits run out: those left, with zero bits below them (rule R136). -/
theorem quintet_toNat_last (b : List Byte) {j : Nat} (h : 5 * j < 8 * b.length) (h' : 8 * b.length < 5 * j + 5) :
    (quintet b j).toNat = beValue b * 2 ^ (5 - (8 * b.length - 5 * j)) % 32 := by
  have hq := symbolCount_eq b.length
  rw [quintet_toNat, show symbolCount b.length = j + 1 by omega,
    show 5 * (j + 1) - 8 * b.length = 5 - (8 * b.length - 5 * j) by omega]
  simp

/-! ## The text character by character -/

/-- The next `m` characters of the text, while it is symbols. -/
theorem enc_take_symbols (b : List Byte) {j m : Nat} (h : j + m ≤ symbolCount b.length) :
    (enc b).take (j + m) = (enc b).take j ++ (List.range m).map fun k => alpha (quintet b (j + k)) := by
  rw [List.take_add]
  congr 1
  have hlen := enc_length b
  have hle := symbolCount_le_textLength b.length
  refine List.ext_getElem (by simp; omega) fun k h1 h2 => ?_
  have hk : k < m := by simpa using h2
  rw [List.getElem_take, List.getElem_drop, List.getElem_map, List.getElem_range]
  simp only [enc_eq]
  rw [List.getElem_append_left (by simp; omega)]
  simp

/-- The next character of the text, once it is padding. -/
theorem enc_take_padding (b : List Byte) {j : Nat} (h : symbolCount b.length ≤ j) (h' : j < textLength b.length) :
    (enc b).take (j + 1) = (enc b).take j ++ [padChar] := by
  have hj : j < (enc b).length := by rw [enc_length]; exact h'
  rw [← List.take_concat_get' _ j hj]
  congr 2
  simp only [enc_eq]
  rw [List.getElem_append_right (by simpa using h), List.getElem_replicate]

/-! ## The encoder's accumulator -/

/-- The accumulator when `i` octets are absorbed and `j` symbols emitted: the bits pending, and nothing above them
(rule R23). -/
def encoderAcc (b : List Byte) (i j : Nat) : Word :=
  BitVec.ofNat 32 (beValue (b.take i) % 2 ^ (8 * i - 5 * j))

theorem encoderAcc_toNat (b : List Byte) {i j : Nat} (h : 8 * i - 5 * j ≤ 32) :
    (encoderAcc b i j).toNat = beValue (b.take i) % 2 ^ (8 * i - 5 * j) :=
  Nat.mod_eq_of_lt (mod_two_pow_lt _ h)

/-- With no bits pending the accumulator is 0. -/
theorem encoderAcc_eq_zero (b : List Byte) {i j : Nat} (h : 8 * i ≤ 5 * j) : encoderAcc b i j = 0#32 := by
  unfold encoderAcc
  rw [Nat.sub_eq_zero_of_le h, pow_zero, Nat.mod_one]

/-- A word shifted left by fewer bits than it has free, with a smaller number below. -/
theorem shiftLeft_or_toNat {w : Nat} (a : Word) (v : BitVec w) (h : a.toNat * 2 ^ w + 2 ^ w ≤ 2 ^ 32) :
    ((a <<< w) ||| v.setWidth 32).toNat = a.toNat * 2 ^ w + v.toNat := by
  have hv := v.isLt
  rw [BitVec.toNat_or, BitVec.toNat_shiftLeft, BitVec.toNat_setWidth, Nat.shiftLeft_eq,
    Nat.mod_eq_of_lt (by omega), Nat.mod_eq_of_lt (by omega), ← Nat.shiftLeft_eq,
    ← Nat.shiftLeft_add_eq_or_of_lt hv, Nat.shiftLeft_eq]

/-- One more octet enters below the pending bits (rule R133). -/
theorem encoderAcc_absorb (b : List Byte) {i j : Nat} (hi : i < b.length) (hj : 5 * j ≤ 8 * i)
    (hp : 8 * i - 5 * j ≤ 24) :
    (encoderAcc b i j <<< 8) ||| b[i].setWidth 32 = encoderAcc b (i + 1) j := by
  have hlt : beValue (b.take i) % 2 ^ (8 * i - 5 * j) < 2 ^ 24 := mod_two_pow_lt _ hp
  have ha := encoderAcc_toNat b (show 8 * i - 5 * j ≤ 32 by omega)
  apply BitVec.eq_of_toNat_eq
  rw [shiftLeft_or_toNat _ _ (by rw [ha]; omega), ha, encoderAcc_toNat b (by omega),
    ← List.take_concat_get' b i hi, beValue_snoc, show 8 * (i + 1) - 5 * j = 8 * i - 5 * j + 8 by omega,
    show (256 : Nat) = 2 ^ 8 by norm_num, ← mod_two_pow_mul_add _ _ b[i].isLt]

/-- The low bits of a word, as a remainder. -/
theorem lowBits_toNat {p : Nat} (a : Word) (h : p < 32) : (lowBits p a).toNat = a.toNat % 2 ^ p := by
  have hlt : 2 ^ p < 2 ^ 32 := Nat.pow_lt_pow_right (by norm_num) h
  unfold lowBits
  rw [BitVec.toNat_and, BitVec.toNat_ofNat, Nat.mod_eq_of_lt (by omega), Nat.and_two_pow_sub_one_eq_mod]

/-- Masking to the bits still pending after `m` more symbols (rules R134 and R135). -/
theorem lowBits_encoderAcc (b : List Byte) {i j p : Nat} (m : Nat) (hp : 8 * i - 5 * j ≤ 32) (hm : 0 < m)
    (h : p + 5 * m = 8 * i - 5 * j) : lowBits p (encoderAcc b i j) = encoderAcc b i (j + m) := by
  apply BitVec.eq_of_toNat_eq
  rw [lowBits_toNat _ (by omega), encoderAcc_toNat b hp, encoderAcc_toNat b (by omega),
    Nat.mod_mod_of_dvd _ (Nat.pow_dvd_pow 2 (by omega)), show 8 * i - 5 * (j + m) = p by omega]

/-- Five bits of a word, as a quotient and a remainder. -/
theorem fiveBits_toNat (a : Word) : (BitVec.setWidth 5 (a &&& 0x1F#32)).toNat = a.toNat % 32 := by
  rw [BitVec.toNat_setWidth, BitVec.toNat_and]
  have := Nat.and_two_pow_sub_one_eq_mod a.toNat 5
  norm_num at this ⊢
  omega

/-- A complete quintet of the pending bits is the text's next symbol but `k` (rules R134 and R135). -/
theorem encoderAcc_quintet (b : List Byte) {i j : Nat} (k : Nat) (hi : i ≤ b.length) (hp : 8 * i - 5 * j ≤ 32)
    (h : 5 * (j + k + 1) ≤ 8 * i) :
    BitVec.setWidth 5 ((encoderAcc b i j >>> (8 * i - 5 * j - 5 * (k + 1))) &&& 0x1F#32) = quintet b (j + k) := by
  apply BitVec.eq_of_toNat_eq
  rw [fiveBits_toNat, BitVec.toNat_ushiftRight, Nat.shiftRight_eq_div_pow, encoderAcc_toNat b hp,
    quintet_toNat_of_take b hi h, show (32 : Nat) = 2 ^ 5 by norm_num, mod_two_pow_div_mod _ (by omega),
    show 8 * i - 5 * j - 5 * (k + 1) = 8 * i - 5 * (j + k + 1) by omega]

/-- Fewer than five pending bits, with zeros below, are the text's last symbol (rule R136). -/
theorem encoderAcc_last (b : List Byte) {j : Nat} (h : 5 * j < 8 * b.length) (h' : 8 * b.length < 5 * j + 5) :
    BitVec.setWidth 5 ((encoderAcc b b.length j <<< (5 - (8 * b.length - 5 * j))) &&& 0x1F#32) = quintet b j := by
  generalize hz : 5 - (8 * b.length - 5 * j) = z
  have hp : 8 * b.length - 5 * j = 5 - z := by omega
  have hpow : 2 ^ (5 - z) * 2 ^ z = 32 := by rw [← pow_add, show 5 - z + z = 5 by omega]; norm_num
  apply BitVec.eq_of_toNat_eq
  rw [fiveBits_toNat, BitVec.toNat_shiftLeft, Nat.shiftLeft_eq, encoderAcc_toNat b (by omega),
    quintet_toNat_last b h h', hz, hp, List.take_length, Nat.mod_mod_of_dvd _ (by norm_num),
    ← Nat.mul_mod_mul_right, hpow, Nat.mod_mod]

/-- The five quintets of a full window are the text's next five symbols (rule R134). -/
theorem windowQuintets_encoderAcc (b : List Byte) {i j : Nat} (hi : i ≤ b.length) (hp : 8 * i - 5 * j ≤ 32)
    (h : 25 ≤ 8 * i - 5 * j) :
    windowQuintets (encoderAcc b i j) (8 * i - 5 * j) = (List.range 5).map fun k => quintet b (j + k) := by
  refine List.map_congr_left fun k hk => ?_
  have hk := List.mem_range.1 hk
  exact encoderAcc_quintet b k hi hp (by omega)

end Sys2Proof.Machine

namespace Sys2Proof.Machine

/-! ## The encoder's runs -/

/-- What the encoder reads: `b` is the content of the input `ESEL` selects (rule R45). -/
def Feeds (s : State) (b : List Byte) : Prop :=
  if s.scratch.esel = 0#1 then s.len.toNat = b.length ∧ HoldsFrom s.ibuf 0 b else s.scratch.rnd.toList = b

/-- The state of an encoder run that began in `s`, in phase `ph`, when `i` octets of `b` are absorbed and `j`
characters of the text are written. -/
def encoderAt (b : List Byte) (i j : Nat) (ph : Phase) (s : State) : State :=
  { s with
    phase := ph
    obuf := Memory.writeFrom s.obuf 0 ((enc b).take j)
    scratch :=
      { s.scratch with
        acc := encoderAcc b i j
        pend := BitVec.ofNat 5 (8 * i - 5 * j)
        iidx := BitVec.ofNat 32 i
        ocnt := BitVec.ofNat 32 j } }

/-- The state with `IIDX` at `i`. -/
def withIndex (i : Nat) (s : State) : State :=
  { s with scratch := { s.scratch with iidx := BitVec.ofNat 32 i } }

@[simp] theorem encoderAt_cap (b : List Byte) (i j : Nat) (ph : Phase) (s : State) :
    (encoderAt b i j ph s).cap = s.cap := rfl
@[simp] theorem encoderAt_obuf (b : List Byte) (i j : Nat) (ph : Phase) (s : State) :
    (encoderAt b i j ph s).obuf = Memory.writeFrom s.obuf 0 ((enc b).take j) := rfl
@[simp] theorem encoderAt_acc (b : List Byte) (i j : Nat) (ph : Phase) (s : State) :
    (encoderAt b i j ph s).scratch.acc = encoderAcc b i j := rfl
@[simp] theorem encoderAt_iidx (b : List Byte) (i j : Nat) (ph : Phase) (s : State) :
    (encoderAt b i j ph s).scratch.iidx = BitVec.ofNat 32 i := rfl
@[simp] theorem encoderAt_ocnt (b : List Byte) (i j : Nat) (ph : Phase) (s : State) :
    (encoderAt b i j ph s).scratch.ocnt = BitVec.ofNat 32 j := rfl

/-- The encoder's input length is the number of octets it is fed. -/
theorem Feeds.sourceLength {s : State} {b : List Byte} (h : Feeds s b) : sourceLength s = b.length := by
  unfold Feeds at h
  unfold Machine.sourceLength
  split_ifs at h ⊢
  · exact h.1
  · rw [← h, Vector.length_toList]

/-- The octet the encoder reads next. -/
theorem Feeds.sourceRead {s : State} {b : List Byte} (h : Feeds s b) {i : Nat} (hi : i < b.length)
    (hidx : s.scratch.iidx.toNat = i) : sourceRead s = .ok b[i] := by
  subst hidx
  unfold Feeds at h
  unfold Machine.sourceRead
  split_ifs at h ⊢
  · obtain ⟨hlen, hb⟩ := h
    simp only [memRead, bufferSize, buffer, hlen, if_pos hi, read_of_holdsFrom hb hi]
  · subst h
    simp only [dif_pos (show s.scratch.iidx.toNat < 20 by simpa using hi), Vector.getElem_toList]

theorem emitSyms_singleton (v : BitVec 5) (s : State) : emitSyms [v] s = emitSym v s := by
  simp only [emitSyms]
  cases emitSym v s <;> rfl

section
variable {b : List Byte} {s : State} (hf : Feeds s b) (hcap : requiredCap b.length ≤ s.cap.toNat)
include hcap

/-- No index of the run is beyond 32 bits. -/
theorem textLength_lt_of_room : textLength b.length < 2 ^ 32 ∧ b.length < 2 ^ 32 := by
  rw [requiredCap_eq] at hcap
  rw [textLength_eq]
  omega

theorem encoderAt_ocnt_toNat (i : Nat) {j : Nat} (ph : Phase) (hj : j ≤ textLength b.length) :
    (encoderAt b i j ph s).scratch.ocnt.toNat = j := by
  have := (textLength_lt_of_room hcap).1
  exact Nat.mod_eq_of_lt (by omega)

/-- Writing the next characters of the text takes the run on to where they are written. -/
theorem setAcc_withOutput_encoderAt {i i' j : Nat} {vs : List Byte} (ph ph' : Phase)
    (hj : j ≤ textLength b.length) (hvs : (enc b).take (j + vs.length) = (enc b).take j ++ vs) :
    setAcc (encoderAcc b i' (j + vs.length)) (8 * i' - 5 * (j + vs.length)) ph'
        (withOutput vs (withIndex i' (encoderAt b i j ph s)))
      = encoderAt b i' (j + vs.length) ph' s := by
  have hocnt : (BitVec.ofNat 32 j).toNat = j := encoderAt_ocnt_toNat hcap i ph hj
  have hlen : ((enc b).take j).length = j := by rw [List.length_take, enc_length]; omega
  have hobuf : Memory.writeFrom (Memory.writeFrom s.obuf 0 ((enc b).take j)) j vs
      = Memory.writeFrom s.obuf 0 ((enc b).take (j + vs.length)) := by
    rw [hvs, writeFrom_append, hlen, Nat.zero_add]
  simp only [setAcc, withOutput, withIndex, encoderAt_obuf, encoderAt_ocnt, hocnt, hobuf, ← BitVec.ofNat_add]
  rfl

/-! ### One phase rule -/

/-- `ENC_TERM`: the NUL after the whole text, and success. -/
theorem phaseStep_encTerm_encoderAt :
    phaseStep (encoderAt b b.length (textLength b.length) .encTerm s) = .next (encodeSucceeds b s) := by
  have hocnt := encoderAt_ocnt_toNat hcap b.length .encTerm le_rfl
  have hroom : textLength b.length < s.cap.toNat := hcap
  rw [phaseStep_encTerm rfl]
  unfold encTerm
  rw [hocnt, memWriteObuf_ok (by simpa using hroom), orFault_ok]
  have htake : (enc b).take (textLength b.length) = enc b := List.take_of_length_le (enc_length b).le
  have hsnoc := writeFrom_snoc s.obuf 0 (enc b) nul
  rw [enc_length, Nat.zero_add] at hsnoc
  unfold encodeSucceeds
  simp only [encoderAt_obuf, htake, ← hsnoc, encoderAt_ocnt, enc_length]
  rfl

/-- `ENC_PAD` writes one `=` while the text is not complete. -/
theorem phaseStep_encPad_encoderAt {j : Nat} (hj : symbolCount b.length ≤ j) (hj' : j < textLength b.length) :
    phaseStep (encoderAt b b.length j .encPad s) = .next (encoderAt b b.length (j + 1) .encPad s) := by
  have hq := symbolCount_eq b.length
  have ht := textLength_eq b.length
  have hroom : textLength b.length < s.cap.toNat := hcap
  have hocnt := encoderAt_ocnt_toNat hcap b.length .encPad hj'.le
  rw [phaseStep_encPad rfl]
  unfold encPad
  rw [hocnt, if_pos (by omega), putByte_ok (by rw [hocnt]; exact hj'.trans hroom), orFault_ok]
  have h := setAcc_withOutput_encoderAt hcap (i := b.length) (i' := b.length) (vs := [padChar]) .encPad .encPad hj'.le
    (enc_take_padding b hj hj')
  rw [List.length_singleton, encoderAcc_eq_zero b (by omega), show 8 * b.length - 5 * (j + 1) = 0 by omega] at h
  rw [← h]
  unfold encoderAt
  rw [encoderAcc_eq_zero b (by omega), show 8 * b.length - 5 * j = 0 by omega]
  rfl

theorem phaseStep_encPad_done :
    phaseStep (encoderAt b b.length (textLength b.length) .encPad s)
      = .next (encoderAt b b.length (textLength b.length) .encTerm s) := by
  rw [phaseStep_encPad rfl]
  unfold encPad
  rw [encoderAt_ocnt_toNat hcap b.length .encPad le_rfl, if_neg (by rw [textLength_eq]; omega)]
  rfl

/-- The next `m` symbols of the text are emitted and counted. -/
theorem emitSyms_encoderAt {i i' j m : Nat} {vs : List (BitVec 5)} {ph : Phase} (ph' : Phase)
    (hj : j + m ≤ symbolCount b.length) (hvs : vs = (List.range m).map fun k => quintet b (j + k)) :
    ∃ t, emitSyms vs (withIndex i' (encoderAt b i j ph s)) = .ok t
      ∧ setAcc (encoderAcc b i' (j + m)) (8 * i' - 5 * (j + m)) ph' t = encoderAt b i' (j + m) ph' s := by
  have hle := symbolCount_le_textLength b.length
  have hroom : textLength b.length < s.cap.toNat := hcap
  have hocnt := encoderAt_ocnt_toNat hcap i ph (show j ≤ textLength b.length by omega)
  have hlen : (vs.map alpha).length = m := by simp [hvs]
  have hfits : (encoderAt b i j ph s).scratch.ocnt.toNat + vs.length ≤ s.cap.toNat := by
    rw [hocnt, ← List.length_map alpha, hlen]; omega
  refine ⟨_, emitSyms_ok _ _ hfits, ?_⟩
  have h := setAcc_withOutput_encoderAt hcap (i := i) (i' := i') (vs := vs.map alpha) ph ph'
    (show j ≤ textLength b.length by omega)
    (by rw [hlen, hvs, List.map_map]; exact enc_take_symbols b hj)
  rwa [hlen] at h

/-- The next symbol of the text is emitted and counted. -/
theorem emitSym_encoderAt {i j : Nat} {v : BitVec 5} {ph : Phase} (ph' : Phase) (hj : j < symbolCount b.length)
    (hv : v = quintet b j) :
    ∃ t, emitSym v (encoderAt b i j ph s) = .ok t
      ∧ setAcc (encoderAcc b i (j + 1)) (8 * i - 5 * (j + 1)) ph' t = encoderAt b i (j + 1) ph' s := by
  obtain ⟨t, ht, hset⟩ := emitSyms_encoderAt hcap (i := i) (i' := i) (m := 1) (ph := ph) ph' hj
    (show [v] = _ by simp [hv])
  exact ⟨t, (emitSyms_singleton _ _).symm.trans ht, hset⟩

/-- `ENC_TAIL`: the bits left over if there are any, and every symbol is written. -/
theorem phaseStep_encTail_encoderAt {j : Nat} (hj : 5 * j ≤ 8 * b.length) (hj' : 8 * b.length < 5 * j + 5) :
    phaseStep (encoderAt b b.length j .encTail s)
      = .next (encoderAt b b.length (symbolCount b.length) .encPad s) := by
  have hq := symbolCount_eq b.length
  have hpend : (encoderAt b b.length j .encTail s).scratch.pend.toNat = 8 * b.length - 5 * j :=
    Nat.mod_eq_of_lt (by omega)
  rw [phaseStep_encTail rfl]
  unfold encTail
  rw [hpend]
  by_cases hp : 1 ≤ 8 * b.length - 5 * j
  · have hqj : symbolCount b.length = j + 1 := by omega
    obtain ⟨t, ht, hset⟩ := emitSym_encoderAt hcap (i := b.length) (ph := .encTail) .encPad (show j < _ by omega)
      (encoderAcc_last b (by omega) hj')
    rw [encoderAcc_eq_zero b (by omega), show 8 * b.length - 5 * (j + 1) = 0 by omega] at hset
    rw [if_pos hp, hqj, ← hset]
    simp only [encoderAt_acc, ht, orFault_ok]
  · have hqj : symbolCount b.length = j := by omega
    rw [if_neg hp, hqj]
    unfold encoderAt
    rw [encoderAcc_eq_zero b (by omega), show 8 * b.length - 5 * j = 0 by omega]
    rfl

/-- `ENC_DRAIN` emits a complete quintet while there is one. -/
theorem phaseStep_encDrain_encoderAt {j : Nat} (hj : 5 * (j + 1) ≤ 8 * b.length)
    (hp : 8 * b.length - 5 * j ≤ 24) :
    phaseStep (encoderAt b b.length j .encDrain s) = .next (encoderAt b b.length (j + 1) .encDrain s) := by
  have hq := symbolCount_eq b.length
  have hpend : (encoderAt b b.length j .encDrain s).scratch.pend.toNat = 8 * b.length - 5 * j :=
    Nat.mod_eq_of_lt (by omega)
  obtain ⟨t, ht, hset⟩ := emitSym_encoderAt hcap (i := b.length) (ph := .encDrain) .encDrain (show j < _ by omega)
    (encoderAcc_quintet b 0 le_rfl (by omega) (by omega))
  rw [phaseStep_encDrain rfl]
  unfold encDrain
  rw [hpend, if_pos (by omega), ← hset]
  simp only [encoderAt_acc, Nat.zero_add, Nat.mul_one] at ht ⊢
  rw [ht, orFault_ok, lowBits_encoderAcc b 1 (by omega) (by omega) (by omega)]
  rfl

omit hcap in
theorem phaseStep_encDrain_done {j : Nat} (hp : 8 * b.length - 5 * j < 5) :
    phaseStep (encoderAt b b.length j .encDrain s) = .next (encoderAt b b.length j .encTail s) := by
  have hpend : (encoderAt b b.length j .encDrain s).scratch.pend.toNat = 8 * b.length - 5 * j :=
    Nat.mod_eq_of_lt (by omega)
  rw [phaseStep_encDrain rfl]
  unfold encDrain
  rw [hpend, if_neg (by omega)]
  rfl

/-- The symbols emitted when `i` octets are absorbed: five for each full window. -/
def windowSymbols (i : Nat) : Nat :=
  5 * (8 * i / 25)

include hf in
/-- `ENC_ABSORB`: one octet, and five symbols when the window is full. -/
theorem phaseStep_encAbsorb_encoderAt {i : Nat} (hi : i < b.length) :
    phaseStep (encoderAt b i (windowSymbols i) .encAbsorb s)
      = .next (encoderAt b (i + 1) (windowSymbols (i + 1)) (if i + 1 < b.length then .encAbsorb else .encDrain) s) := by
  have hj : windowSymbols i = 5 * (8 * i / 25) := rfl
  have hj1 : windowSymbols (i + 1) = 5 * (8 * (i + 1) / 25) := rfl
  generalize windowSymbols i = j at hj ⊢
  generalize windowSymbols (i + 1) = j1 at hj1 ⊢
  obtain ⟨hlt, hlt'⟩ := textLength_lt_of_room hcap
  have hq := symbolCount_eq b.length
  have hle := symbolCount_le_textLength b.length
  have hpend : (encoderAt b i j .encAbsorb s).scratch.pend.toNat = 8 * i - 5 * j := Nat.mod_eq_of_lt (by omega)
  have hidx : (encoderAt b i j .encAbsorb s).scratch.iidx.toNat = i := Nat.mod_eq_of_lt (by omega)
  have hidx1 : (BitVec.ofNat 32 (i + 1)).toNat = i + 1 := Nat.mod_eq_of_lt (by omega)
  have hfe : Feeds (encoderAt b i j .encAbsorb s) b := hf
  rw [phaseStep_encAbsorb rfl]
  unfold encAbsorb
  rw [hfe.sourceRead hi hidx, orFault_ok]
  simp only [hpend, hfe.sourceLength, encoderAt_acc, encoderAt_iidx,
    encoderAcc_absorb b hi (show 5 * j ≤ 8 * i by omega) (by omega), ← BitVec.ofNat_add, hidx1,
    show 8 * i - 5 * j + 8 = 8 * (i + 1) - 5 * j by omega]
  by_cases hw : 25 ≤ 8 * (i + 1) - 5 * j
  · obtain ⟨t, ht, hset⟩ := emitSyms_encoderAt hcap (i := i) (i' := i + 1) (ph := .encAbsorb)
      (if i + 1 < b.length then .encAbsorb else .encDrain) (show j + 5 ≤ symbolCount b.length by omega)
      (windowQuintets_encoderAcc b (by omega) (by omega) hw)
    rw [if_pos hw, show j1 = j + 5 by omega, ← hset, lowBits_encoderAcc b 5 (by omega) (by omega) (by omega),
      show 8 * (i + 1) - 5 * j - 25 = 8 * (i + 1) - 5 * (j + 5) by omega]
    exact congrArg (orFault · _) ht
  · rw [if_neg hw, show j1 = j by omega]
    rfl
end

end Sys2Proof.Machine

namespace Sys2Proof.Machine

/-! ### The phases in a row -/

/-- A phase rule of an encoder run, and the rest of the run. -/
theorem endsAfter_encoderAt {b : List Byte} {i j k m : Nat} {ph : Phase} {s u t : State} (hn : NoResetNext s)
    (hp : ph ≠ .idle) (h : phaseStep (encoderAt b i j ph s) = .next u) (hu : EndsAfter k u t) (hm : m = k + 1) :
    EndsAfter m (encoderAt b i j ph s) t :=
  hm ▸ endsAfter_phase hp (hn.of_host rfl) h hu

section
variable {b : List Byte} {s : State} (hf : Feeds s b) (hcap : requiredCap b.length ≤ s.cap.toNat) (hn : NoResetNext s)
include hcap hn

/-- From `ENC_PAD` on: `e` padding characters, the exit, the terminator. -/
theorem endsAfter_encPad (e : Nat) {j : Nat} (hj : symbolCount b.length ≤ j) (he : j + e = textLength b.length) :
    EndsAfter (e + 1 + 1) (encoderAt b b.length j .encPad s) (encodeSucceeds b s) := by
  induction e generalizing j with
  | zero =>
    obtain rfl : j = textLength b.length := by omega
    have hterm := endsAfter_encoderAt hn (by decide) (phaseStep_encTerm_encoderAt hcap) (endsAfter_zero rfl) rfl
    exact endsAfter_encoderAt hn (by decide) (phaseStep_encPad_done hcap) hterm rfl
  | succ e ih =>
    exact endsAfter_encoderAt hn (by decide) (phaseStep_encPad_encoderAt hcap hj (by omega))
      (ih (by omega) (by omega)) rfl

/-- From `ENC_DRAIN` on: `d` complete quintets, the exit, the tail and the padding. -/
theorem endsAfter_encDrain (d : Nat) {j : Nat} (hd : 5 * (j + d) ≤ 8 * b.length)
    (hd' : 8 * b.length < 5 * (j + d) + 5) (hp : 8 * b.length - 5 * j ≤ 24) :
    EndsAfter (d + 1 + 1 + (paddingCount b.length + 1) + 1) (encoderAt b b.length j .encDrain s)
      (encodeSucceeds b s) := by
  induction d generalizing j with
  | zero =>
    have hpad : symbolCount b.length + paddingCount b.length = textLength b.length :=
      Nat.add_sub_cancel' (symbolCount_le_textLength b.length)
    have htail := endsAfter_encoderAt hn (by decide) (phaseStep_encTail_encoderAt hcap hd hd')
      (endsAfter_encPad hcap hn _ le_rfl hpad) rfl
    exact endsAfter_encoderAt hn (by decide) (phaseStep_encDrain_done (by omega)) htail (by omega)
  | succ d ih =>
    exact endsAfter_encoderAt hn (by decide) (phaseStep_encDrain_encoderAt hcap (by omega) hp)
      (ih (by omega) (by omega) (by omega)) (by omega)

include hf

/-- With `k` octets still to be absorbed. -/
theorem endsAfter_encAbsorb (k : Nat) {i : Nat} (hk : i + k = b.length) :
    EndsAfter (k + (drainedSymbols b.length + 1) + 1 + (paddingCount b.length + 1) + 1)
      (encoderAt b i (windowSymbols i) (if i < b.length then .encAbsorb else .encDrain) s)
      (encodeSucceeds b s) := by
  induction k generalizing i with
  | zero =>
    obtain rfl : i = b.length := by omega
    have hw : windowSymbols b.length = 5 * (8 * b.length / 25) := rfl
    have hd : drainedSymbols b.length = 8 * b.length % 25 / 5 := rfl
    rw [if_neg (by omega), Nat.zero_add]
    exact endsAfter_encDrain hcap hn _ (by omega) (by omega) (by omega)
  | succ k ih =>
    rw [if_pos (by omega)]
    exact endsAfter_encoderAt hn (by decide) (phaseStep_encAbsorb_encoderAt hf hcap (by omega))
      (ih (by omega)) (by omega)

/-- The encoder phases after the check take `encoderSteps` steps and end in success (rule R336). -/
theorem endsAfter_encoderSteps :
    EndsAfter (encoderSteps b.length) (encoderAt b 0 0 (if 0 < b.length then .encAbsorb else .encDrain) s)
      (encodeSucceeds b s) :=
  endsAfter_encAbsorb hf hcap hn b.length (Nat.zero_add _)
end

theorem startEncoder_encoderAt (b : List Byte) (e : BitVec 1) (ph : Phase) (s : State) :
    { startEncoder e s with phase := ph } = encoderAt b 0 0 ph (startEncoder e s) := by
  unfold encoderAt
  rw [encoderAcc_eq_zero b (by omega)]
  rfl

theorem phaseStep_encCheck_enter (s : State) {b : List Byte} (hlen : s.len.toNat = b.length) :
    phaseStep (enter .b32enc s)
      = .next (if requiredCap b.length > s.cap.toNat then raise .bufferTooSmall s
          else encoderAt b 0 0 (if 0 < b.length then .encAbsorb else .encDrain)
            (startEncoder 0#1 (enter .b32enc s))) := by
  rw [phaseStep_encCheck rfl, ← startEncoder_encoderAt]
  unfold encCheck
  simp only [enter_len, enter_cap, hlen]
  split_ifs <;> rfl

theorem stepCount_b32enc (b : List Byte) (d : Draw) (s : State) :
    stepCount .b32enc b d s = if requiredCap b.length > s.cap.toNat then 1 else 1 + encoderSteps b.length := rfl

/-- Settles O46: the check, then the encoder phases on `IBUF`. -/
theorem encoderRunIsCommand : Obligations.EncoderRunIsCommand := by
  intro s b hb hn
  refine ⟨_, exec_b32enc_of_input hb, ?_⟩
  obtain ⟨-, hlen, hholds, -⟩ := hb
  have hne : (enter .b32enc s).phase ≠ .idle := nofun
  have hnE : NoResetNext (enter .b32enc s) := hn.of_host rfl
  have hcheck := phaseStep_encCheck_enter s hlen
  rw [stepCount_b32enc]
  obtain ⟨hc, ht⟩ | ⟨hc, ht⟩ := encodeEffect_cases b s
  · rw [if_pos hc] at hcheck ⊢
    rw [ht]
    exact endsAfter_phase hne hnE hcheck (endsAfter_zero rfl)
  · rw [if_neg (Nat.not_lt.2 hc)] at hcheck ⊢
    rw [ht, Nat.add_comm]
    have hf : Feeds (startEncoder 0#1 (enter .b32enc s)) b := ⟨hlen, hholds⟩
    exact endsAfter_phase hne hnE hcheck (endsAfter_encoderSteps hf hc hnE)

/-- The state after a draw `r`, before the capacity is looked at. -/
def drawn (r : Vector Byte 20) (s : State) : State :=
  { countDraw s with phase := .gsCheck, scratch := { s.scratch with rnd := r } }

theorem phaseStep_gsRand_enter (s : State) :
    phaseStep (enter .gensec s)
      = .next (match Config.rand s.draws with
        | none => raise .randomSourceFailure (countDraw s)
        | some r => drawn r s) := by
  rw [phaseStep_gsRand rfl]
  unfold gsRand
  simp only [enter_draws, show Config.env.rand = Config.rand from rfl]
  cases Config.rand s.draws <;> rfl

theorem phaseStep_gsCheck_drawn (r : Vector Byte 20) (s : State) :
    phaseStep (drawn r s)
      = .next (if s.cap.toNat < secretCap then raise .bufferTooSmall (countDraw s)
          else encoderAt r.toList 0 0 .encAbsorb (startEncoder 1#1 (drawn r s))) := by
  rw [phaseStep_gsCheck rfl, ← startEncoder_encoderAt]
  unfold gsCheck
  simp only [show (drawn r s).cap = s.cap from rfl]
  split_ifs <;> rfl

theorem stepCount_gensec_some (input : List Byte) (r : Vector Byte 20) (s : State) :
    stepCount .gensec input (some r) s = if s.cap.toNat < secretCap then 2 else 2 + encoderSteps 20 := rfl

/-- Settles O48: the draw, the check, then the encoder phases on `RND`. -/
theorem secretRunIsCommand : Obligations.SecretRunIsCommand := by
  intro s hs hn
  refine ⟨_, exec_gensec_of_ready hs, ?_⟩
  have hne : (enter .gensec s).phase ≠ .idle := nofun
  have hnE : NoResetNext (enter .gensec s) := hn.of_host rfl
  have hrand := phaseStep_gsRand_enter s
  obtain ⟨hd, ht⟩ | ⟨r, hd, hc, ht⟩ | ⟨r, hd, hc, ht⟩ := secretEffect_cases (Config.rand s.draws) (countDraw s)
  · rw [hd] at hrand
    rw [ht, hd]
    exact endsAfter_phase hne hnE hrand (endsAfter_zero rfl)
  all_goals
    have hneD : (drawn r s).phase ≠ .idle := nofun
    have hnD : NoResetNext (drawn r s) := hn.of_host rfl
    have hcheck := phaseStep_gsCheck_drawn r s
    rw [hd] at hrand
    rw [ht, hd, stepCount_gensec_some]
  · have hc : s.cap.toNat < secretCap := hc
    rw [if_pos hc] at hcheck ⊢
    exact endsAfter_phase hne hnE hrand (endsAfter_phase hneD hnD hcheck (endsAfter_zero rfl))
  · have hc : secretCap ≤ s.cap.toNat := hc
    rw [if_neg (Nat.not_lt.2 hc)] at hcheck ⊢
    have hlen : r.toList.length = 20 := Vector.length_toList
    have hf : Feeds (startEncoder 1#1 (drawn r s)) r.toList := rfl
    have hrun := endsAfter_encoderSteps hf (by rw [hlen]; exact hc) hnD
    rw [hlen] at hrun
    rw [Nat.add_comm]
    exact endsAfter_phase hne hnE hrand (endsAfter_phase hneD hnD hcheck hrun)

end Sys2Proof.Machine

namespace Sys2Proof.Machine

/-! ## The decoder's accumulator -/

/-- The accumulator when the symbols `vs` are read: the bits pending, and nothing above them (rule R23). -/
def decoderAcc (vs : List (BitVec 5)) : Word :=
  BitVec.ofNat 32 (digitsValue vs % 2 ^ (5 * vs.length % 8))

/-- With one more symbol below them, the pending bits are the low bits of the symbols' integer (rule R173). -/
theorem shiftIn_decoderAcc_toNat (vs : List (BitVec 5)) (v : BitVec 5) :
    (shiftIn (decoderAcc vs) v).toNat = digitsValue (vs ++ [v]) % 2 ^ (5 * vs.length % 8 + 5) := by
  have hlt : digitsValue vs % 2 ^ (5 * vs.length % 8) < 2 ^ 8 :=
    mod_two_pow_lt _ (by omega)
  have hacc : (decoderAcc vs).toNat = digitsValue vs % 2 ^ (5 * vs.length % 8) := Nat.mod_eq_of_lt (by omega)
  unfold shiftIn
  rw [shiftLeft_or_toNat _ _ (by rw [hacc]; omega), hacc, mod_two_pow_mul_add _ _ v.isLt, digitsValue_snoc,
    show (32 : Nat) = 2 ^ 5 by norm_num]

/-- Fewer than eight bits stay pending. -/
theorem shiftIn_decoderAcc (vs : List (BitVec 5)) (v : BitVec 5) (h : 5 * vs.length % 8 + 5 < 8) :
    shiftIn (decoderAcc vs) v = decoderAcc (vs ++ [v]) := by
  apply BitVec.eq_of_toNat_eq
  rw [shiftIn_decoderAcc_toNat, decoderAcc, List.length_append, List.length_singleton,
    show 5 * (vs.length + 1) % 8 = 5 * vs.length % 8 + 5 by omega]
  exact (Nat.mod_eq_of_lt (mod_two_pow_lt _ (by omega))).symm

/-- After an octet is flushed the bits below it stay pending (rule R174). -/
theorem lowBits_shiftIn_decoderAcc (vs : List (BitVec 5)) (v : BitVec 5) (h : 8 ≤ 5 * vs.length % 8 + 5) :
    lowBits (5 * vs.length % 8 + 5 - 8) (shiftIn (decoderAcc vs) v) = decoderAcc (vs ++ [v]) := by
  apply BitVec.eq_of_toNat_eq
  rw [lowBits_toNat _ (by omega), shiftIn_decoderAcc_toNat, Nat.mod_mod_of_dvd _ (Nat.pow_dvd_pow 2 (by omega)),
    decoderAcc, List.length_append, List.length_singleton,
    show 5 * (vs.length + 1) % 8 = 5 * vs.length % 8 + 5 - 8 by omega]
  exact (Nat.mod_eq_of_lt (mod_two_pow_lt _ (by omega))).symm

/-! ## The octets symbol by symbol -/

/-- One more symbol changes none of the octets before it. -/
theorem octetsOf_snoc_take (vs : List (BitVec 5)) (v : BitVec 5) :
    (octetsOf (vs ++ [v])).take (5 * vs.length / 8) = octetsOf vs := by
  refine List.ext_getElem (by simp [octetsOf_length]; omega) fun k h1 h2 => ?_
  have hk : k < 5 * vs.length / 8 := by rwa [octetsOf_length] at h2
  apply BitVec.eq_of_toNat_eq
  rw [List.getElem_take, octetsOf_getElem_toNat, octetsOf_getElem_toNat, digitsValue_snoc, List.length_append,
    List.length_singleton, show 5 * (vs.length + 1) - 8 * (k + 1) = 5 + (5 * vs.length - 8 * (k + 1)) by omega,
    pow_add, ← Nat.div_div_eq_div_mul, show (2 : Nat) ^ 5 = 32 by norm_num, Nat.mul_comm _ 32,
    Nat.mul_add_div (by norm_num), Nat.div_eq_of_lt v.isLt, Nat.add_zero]

theorem octetsOf_snoc_of_lt (vs : List (BitVec 5)) (v : BitVec 5) (h : 5 * vs.length % 8 + 5 < 8) :
    octetsOf (vs ++ [v]) = octetsOf vs := by
  rw [← octetsOf_snoc_take vs v, List.take_of_length_le]
  rw [octetsOf_length, List.length_append, List.length_singleton]
  omega

/-- A symbol that makes eight bits pending adds the octet of the upper eight (rule R174). -/
theorem octetsOf_snoc_of_le (vs : List (BitVec 5)) (v : BitVec 5) (h : 8 ≤ 5 * vs.length % 8 + 5) :
    octetsOf (vs ++ [v])
      = octetsOf vs ++ [BitVec.setWidth 8 (shiftIn (decoderAcc vs) v >>> (5 * vs.length % 8 + 5 - 8))] := by
  have hlen : (octetsOf (vs ++ [v])).length = 5 * vs.length / 8 + 1 := by
    rw [octetsOf_length, List.length_append, List.length_singleton]; omega
  have hk : 5 * vs.length / 8 < (octetsOf (vs ++ [v])).length := by omega
  rw [← List.take_of_length_le hlen.le, ← List.take_concat_get' _ _ hk, octetsOf_snoc_take]
  congr 2
  apply BitVec.eq_of_toNat_eq
  rw [octetsOf_getElem_toNat, BitVec.toNat_setWidth, BitVec.toNat_ushiftRight, Nat.shiftRight_eq_div_pow,
    shiftIn_decoderAcc_toNat, mod_two_pow_div_mod _ (by omega), List.length_append, List.length_singleton,
    show 5 * (vs.length + 1) - 8 * (5 * vs.length / 8 + 1) = 5 * vs.length % 8 + 5 - 8 by omega,
    show (256 : Nat) = 2 ^ 8 by norm_num]

/-! ## One character of a decoder run -/

/-- The state of a decoder run that began in `s`, in phase `ph`, when `i` characters are read and the symbols
among them are `vs`. -/
def decoderAt (vs : List (BitVec 5)) (i : Nat) (ph : Phase) (s : State) : State :=
  { s with
    phase := ph
    obuf := Memory.writeFrom s.obuf 0 (octetsOf vs)
    scratch :=
      { s.scratch with
        acc := decoderAcc vs
        pend := BitVec.ofNat 5 (5 * vs.length % 8)
        iidx := BitVec.ofNat 32 i
        ocnt := BitVec.ofNat 32 (5 * vs.length / 8) } }

@[simp] theorem decoderAt_phase (vs : List (BitVec 5)) (i : Nat) (ph : Phase) (s : State) :
    (decoderAt vs i ph s).phase = ph := rfl
@[simp] theorem decoderAt_cap (vs : List (BitVec 5)) (i : Nat) (ph : Phase) (s : State) :
    (decoderAt vs i ph s).cap = s.cap := rfl
@[simp] theorem decoderAt_len (vs : List (BitVec 5)) (i : Nat) (ph : Phase) (s : State) :
    (decoderAt vs i ph s).len = s.len := rfl
@[simp] theorem decoderAt_ibuf (vs : List (BitVec 5)) (i : Nat) (ph : Phase) (s : State) :
    (decoderAt vs i ph s).ibuf = s.ibuf := rfl
@[simp] theorem decoderAt_obuf (vs : List (BitVec 5)) (i : Nat) (ph : Phase) (s : State) :
    (decoderAt vs i ph s).obuf = Memory.writeFrom s.obuf 0 (octetsOf vs) := rfl
@[simp] theorem decoderAt_acc (vs : List (BitVec 5)) (i : Nat) (ph : Phase) (s : State) :
    (decoderAt vs i ph s).scratch.acc = decoderAcc vs := rfl
@[simp] theorem decoderAt_pend (vs : List (BitVec 5)) (i : Nat) (ph : Phase) (s : State) :
    (decoderAt vs i ph s).scratch.pend = BitVec.ofNat 5 (5 * vs.length % 8) := rfl
@[simp] theorem decoderAt_iidx (vs : List (BitVec 5)) (i : Nat) (ph : Phase) (s : State) :
    (decoderAt vs i ph s).scratch.iidx = BitVec.ofNat 32 i := rfl
@[simp] theorem decoderAt_ocnt (vs : List (BitVec 5)) (i : Nat) (ph : Phase) (s : State) :
    (decoderAt vs i ph s).scratch.ocnt = BitVec.ofNat 32 (5 * vs.length / 8) := rfl

/-- A failure forgets what the run has written. -/
theorem raise_decoderAt {v : ErrorVariant} (hv : spoilsObuf v = true) {vs : List (BitVec 5)} {s : State}
    (hfit : 5 * vs.length / 8 ≤ s.cap.toNat) (i : Nat) (ph : Phase) : raise v (decoderAt vs i ph s) = raise v s := by
  have hspoil := spoil_writeFrom s.obuf (n := s.cap.toNat) (octetsOf vs) (freeObuf s.fresh)
    (show 0 + (octetsOf vs).length ≤ _ by rw [octetsOf_length]; omega)
  unfold raise
  simp only [hv, if_true]
  unfold decoderAt
  rw [hspoil]
  rfl

/-- A symbol is absorbed, and its octet written, unless that octet is beyond the capacity. -/
theorem decSymbol_decoderAt {vs : List (BitVec 5)} {s : State} (hfit : 5 * vs.length / 8 ≤ s.cap.toNat)
    (v : BitVec 5) (i : Nat) (ph ph' : Phase) :
    decSymbol v ph' (decoderAt vs i ph s)
      = .next (if s.cap.toNat < 5 * (vs.length + 1) / 8 then raise .bufferTooSmall s
          else decoderAt (vs ++ [v]) i ph' s) := by
  have hpend : (BitVec.ofNat 5 (5 * vs.length % 8)).toNat = 5 * vs.length % 8 := Nat.mod_eq_of_lt (by omega)
  have hocnt : (BitVec.ofNat 32 (5 * vs.length / 8)).toNat = 5 * vs.length / 8 := Nat.mod_eq_of_lt (by omega)
  have hlen : (octetsOf vs).length = 5 * vs.length / 8 := octetsOf_length vs
  have hlen' : (vs ++ [v]).length = vs.length + 1 := List.length_append
  unfold decSymbol
  simp only [decoderAt_pend, decoderAt_acc, decoderAt_ocnt, decoderAt_cap, hpend, hocnt]
  by_cases hp : 8 ≤ 5 * vs.length % 8 + 5
  · rw [if_pos hp]
    by_cases hc : s.cap.toNat ≤ 5 * vs.length / 8
    · rw [if_pos hc, if_pos (by omega), raise_decoderAt rfl hfit]
    · have hobuf := writeFrom_snoc s.obuf 0 (octetsOf vs)
        (BitVec.setWidth 8 (shiftIn (decoderAcc vs) v >>> (5 * vs.length % 8 + 5 - 8)))
      rw [← octetsOf_snoc_of_le vs v hp, hlen, Nat.zero_add] at hobuf
      rw [if_neg hc, if_neg (by omega), memWriteObuf_ok (s := decoderAt vs i ph s) (Nat.lt_of_not_le hc),
        orFault_ok, lowBits_shiftIn_decoderAcc vs v hp, decoderAt_obuf, ← hobuf]
      unfold decoderAt
      rw [hlen', show 5 * vs.length % 8 + 5 - 8 = 5 * (vs.length + 1) % 8 by omega,
        show 5 * (vs.length + 1) / 8 = 5 * vs.length / 8 + 1 by omega, BitVec.ofNat_add]
  · rw [if_neg hp, if_neg (by omega), shiftIn_decoderAcc vs v (by omega)]
    unfold decoderAt
    rw [octetsOf_snoc_of_lt vs v (by omega), hlen', show 5 * vs.length % 8 + 5 = 5 * (vs.length + 1) % 8 by omega,
      show 5 * (vs.length + 1) / 8 = 5 * vs.length / 8 by omega]

end Sys2Proof.Machine

namespace Sys2Proof.Machine

/-! ## The characters in a row -/

/-- The symbols of a text with one more character. -/
theorem symbolValues_take_snoc (text : List Byte) {i : Nat} (h : i < text.length) :
    symbolValues (text.take (i + 1)) = symbolValues (text.take i) ++ (symbolValue text[i]).toList := by
  rw [← List.take_concat_get' text i h, symbolValues_append]
  rfl

/-- The phase in which character `i` is read, or the end of the text is found. -/
def scanPhase (text : List Byte) (i : Nat) : Phase :=
  if i < text.length then .decScan else .decEnd

/-- The state of a decoder run on `text` that began in `s`, when `i` characters are read without a fault. -/
def decodingAt (text : List Byte) (i : Nat) (s : State) : State :=
  decoderAt (symbolValues (text.take i)) i (scanPhase text i) s

/-- The decoder stops at this character: `Invalid`, or a symbol that completes an octet beyond the capacity. -/
def stopsAt (text : List Byte) (cap i : Nat) : Bool :=
  exceedsAt text cap i || decide (inv (text.getD i nul) = .invalid)

theorem stopsAt_iff (text : List Byte) (cap : Nat) {i : Nat} (hi : i < text.length) :
    stopsAt text cap i = true ↔ exceedsAt text cap i = true ∨ inv text[i] = .invalid := by
  unfold stopsAt
  rw [List.getD_eq_getElem _ _ hi, Bool.or_eq_true, decide_eq_true_iff]

theorem stopsAt_eq_false_iff (text : List Byte) (cap : Nat) {i : Nat} (hi : i < text.length) :
    stopsAt text cap i = false ↔ exceedsAt text cap i = false ∧ inv text[i] ≠ .invalid := by
  rw [← Bool.not_eq_true, stopsAt_iff text cap hi, not_or, Bool.not_eq_true]

/-- Only a symbol exceeds the capacity. -/
theorem exceedsAt_of_not_symbol {text : List Byte} (cap : Nat) {i : Nat} (hi : i < text.length)
    (h : symbolValue text[i] = none) : exceedsAt text cap i = false := by
  unfold exceedsAt
  rw [List.getD_eq_getElem _ _ hi, h]
  rfl

/-- The decoder stops at the first such character, or at the end of the text. -/
theorem decodeStop_cases (text : List Byte) (cap : Nat) :
    (∀ a < decodeStop text cap, stopsAt text cap a = false)
      ∧ (decodeStop text cap = text.length
          ∨ decodeStop text cap < text.length ∧ stopsAt text cap (decodeStop text cap) = true) := by
  have hdef : decodeStop text cap = ((List.range text.length).find? (stopsAt text cap)).getD text.length := rfl
  cases hfind : (List.range text.length).find? (stopsAt text cap) with
  | none =>
    rw [hfind] at hdef
    rw [hdef]
    exact ⟨fun a ha => by simpa using List.find?_eq_none.1 hfind a (List.mem_range.2 ha), .inl rfl⟩
  | some k =>
    rw [hfind] at hdef
    rw [hdef]
    obtain ⟨hk, hmem, hbefore⟩ := List.find?_range_eq_some.1 hfind
    exact ⟨fun a ha => by simpa using hbefore a ha, .inr ⟨List.mem_range.1 hmem, hk⟩⟩

/-- As long as the decoder has not stopped, what is written fits. -/
theorem fits_of_not_stopsAt {text : List Byte} {cap i : Nat} (hi : i ≤ text.length)
    (h : ∀ a < i, stopsAt text cap a = false) : 5 * (symbolValues (text.take i)).length / 8 ≤ cap := by
  by_contra hgt
  obtain ⟨a, ha, hex⟩ := (exists_exceedsAt_iff text cap i).2 (Nat.lt_of_not_le hgt)
  have hstop := (stopsAt_iff text cap (ha.trans_le hi)).2 (.inl hex)
  rw [h a ha] at hstop
  cases hstop

section
variable {text : List Byte} {s : State} (hlen : s.len.toNat = text.length) (hholds : HoldsFrom s.ibuf 0 text)
include hlen hholds

/-- `DEC_SCAN` on one character, class by class (rule R172). -/
theorem phaseStep_decScan_decodingAt {i : Nat} (hi : i < text.length)
    (hfit : 5 * (symbolValues (text.take i)).length / 8 ≤ s.cap.toNat) :
    phaseStep (decodingAt text i s)
      = .next (match inv text[i] with
        | .invalid => raise .invalidCharacter s
        | .padding => decodingAt text (i + 1) s
        | .symbol _ =>
          if exceedsAt text s.cap.toNat i then raise .bufferTooSmall s else decodingAt text (i + 1) s) := by
  have hidx : (BitVec.ofNat 32 i).toNat = i := Nat.mod_eq_of_lt (by omega)
  have hidx1 : (BitVec.ofNat 32 (i + 1)).toNat = i + 1 := Nat.mod_eq_of_lt (by omega)
  have hread : memRead (decodingAt text i s) .ibuf (decodingAt text i s).scratch.iidx.toNat = .ok text[i] := by
    simp [memRead, bufferSize, buffer, decodingAt, hlen, hidx, hi, read_of_holdsFrom hholds hi]
  have hiidx : (decodingAt text i s).scratch.iidx + 1#32 = BitVec.ofNat 32 (i + 1) := (BitVec.ofNat_add i 1).symm
  have hphase : (if i + 1 < (decodingAt text i s).len.toNat then Phase.decScan else .decEnd)
      = scanPhase text (i + 1) := by
    rw [show (decodingAt text i s).len.toNat = text.length from hlen]; rfl
  have hsnoc := symbolValues_take_snoc text hi
  rw [phaseStep_decScan (if_pos hi)]
  unfold decScan
  simp only [hread, orFault_ok, hiidx, hidx1, hphase]
  cases hc : inv text[i] with
  | invalid => exact congrArg _ (raise_decoderAt rfl hfit (i + 1) _)
  | padding =>
    have hs : symbolValues (text.take (i + 1)) = symbolValues (text.take i) := by
      rw [hsnoc, symbolValue, hc]; exact List.append_nil _
    simp only [decodingAt, hs]
    rfl
  | symbol v =>
    have hv : symbolValue text[i] = some v := by rw [symbolValue, hc]
    have hex : exceedsAt text s.cap.toNat i = true
        ↔ s.cap.toNat < 5 * ((symbolValues (text.take i)).length + 1) / 8 := by
      rw [exceedsAt_iff, List.getD_eq_getElem _ _ hi, hsnoc, hv, List.length_append]
      simp
    have hstep := decSymbol_decoderAt hfit v (i + 1) (scanPhase text i) (scanPhase text (i + 1))
    simp only [hex, decodingAt, hsnoc, hv]
    exact hstep

/-- A character at which the decoder does not stop is read. -/
theorem phaseStep_decodingAt_goOn {i : Nat} (hi : i < text.length)
    (hgo : ∀ a ≤ i, stopsAt text s.cap.toNat a = false) :
    phaseStep (decodingAt text i s) = .next (decodingAt text (i + 1) s) := by
  have hnext := phaseStep_decScan_decodingAt hlen hholds hi
    (fits_of_not_stopsAt hi.le fun a ha => hgo a ha.le)
  obtain ⟨hex, hinv⟩ := (stopsAt_eq_false_iff _ _ hi).1 (hgo i le_rfl)
  rw [hnext]
  cases hc : inv text[i] with
  | invalid => exact absurd hc hinv
  | padding => rfl
  | symbol v => simp [hex]

variable (hn : NoResetNext s)
include hn

/-- `m` characters at which the decoder does not stop, and the rest of the run. -/
theorem endsAfter_decodingAt {t : State} {k : Nat} (m : Nat) {i : Nat} (him : i + m ≤ text.length)
    (hgo : ∀ a < i + m, stopsAt text s.cap.toNat a = false) (hend : EndsAfter k (decodingAt text (i + m) s) t) :
    EndsAfter (m + k) (decodingAt text i s) t := by
  induction m generalizing i with
  | zero => rwa [Nat.zero_add]
  | succ m ih =>
    have hne : (decodingAt text i s).phase ≠ .idle := by
      simp [decodingAt, scanPhase, show i < text.length by omega]
    rw [show m + 1 + k = m + k + 1 by omega]
    refine endsAfter_phase hne (hn.of_host rfl)
      (phaseStep_decodingAt_goOn hlen hholds (by omega) fun a ha => hgo a (by omega)) ?_
    exact ih (i := i + 1) (by omega) (fun a ha => hgo a (by omega)) (by rwa [show i + 1 + m = i + (m + 1) by omega])

end

/-- `DEC_END` after the whole text: success (rule R178). -/
theorem phaseStep_decEnd_decodingAt (text : List Byte) (s : State) :
    phaseStep (decodingAt text text.length s) = .next (decodedState text s) := by
  rw [phaseStep_decEnd (if_neg (lt_irrefl _))]
  unfold decEnd decodingAt decodedState
  rw [List.take_length, decoderAt_ocnt, dec_length]
  rfl

theorem phaseStep_decInit_enter {text : List Byte} {s : State} (hlen : s.len.toNat = text.length) :
    phaseStep (enter .b32dec s) = .next (decodingAt text 0 (enter .b32dec s)) := by
  rw [phaseStep_decInit rfl]
  unfold decInit
  rw [enter_len, hlen, decodingAt, List.take_zero, show symbolValues [] = [] from rfl]
  rfl

/-! ## The command level at the character where the run stops -/

@[simp] theorem decodeEffect_phase (text : List Byte) (s : State) : (decodeEffect text s).phase = .idle := by
  obtain ⟨-, h⟩ | ⟨-, -, h⟩ | ⟨-, -, h⟩ := decodeEffect_cases text s <;> rw [h] <;> rfl

/-- No character of a text is one to stop at: the decode succeeds. -/
theorem decodeEffect_of_no_stop {text : List Byte} {s : State}
    (h : ∀ a < text.length, stopsAt text s.cap.toNat a = false) : decodeEffect text s = decodedState text s := by
  have hinv : firstInvalid text = text.length := by
    rw [firstInvalid_eq_length_iff]
    intro c hc
    obtain ⟨a, ha, rfl⟩ := List.getElem_of_mem hc
    exact ((stopsAt_eq_false_iff _ _ ha).1 (h a ha)).2
  have hcap : ¬ capacityExceeded text s.cap.toNat = true := by
    rw [capacityExceeded_iff, hinv]
    exact Nat.not_lt.2 (fits_of_not_stopsAt le_rfl h)
  unfold decodeEffect
  rw [if_neg hcap, if_neg (by omega)]
  rfl

/-- A symbol beyond the capacity, with no character to stop at before it: the decode fails for want of room. -/
theorem decodeEffect_of_exceedsAt {text : List Byte} {s : State} {i : Nat} (hi : i < text.length)
    (h : ∀ a < i, stopsAt text s.cap.toNat a = false) (hex : exceedsAt text s.cap.toNat i = true)
    (hinv : inv text[i] ≠ .invalid) : decodeEffect text s = raise .bufferTooSmall s := by
  have hlt : i < firstInvalid text := by
    refine List.lt_findIdx_of_not hi fun a ha => ?_
    obtain rfl | hlt := Nat.eq_or_lt_of_le ha
    · simpa using hinv
    · simpa using ((stopsAt_eq_false_iff _ _ (hlt.trans hi)).1 (h a hlt)).2
  have hcap : capacityExceeded text s.cap.toNat = true := by
    rw [capacityExceeded_iff, ← exists_exceedsAt_iff]
    exact ⟨i, hlt, hex⟩
  unfold decodeEffect
  rw [if_pos hcap]

/-- An `Invalid` character, with no character to stop at before it: the decode fails at it. -/
theorem decodeEffect_of_invalid {text : List Byte} {s : State} {i : Nat} (hi : i < text.length)
    (h : ∀ a < i, stopsAt text s.cap.toNat a = false) (hinv : inv text[i] = .invalid) :
    decodeEffect text s = raise .invalidCharacter s := by
  have heq : firstInvalid text = i := by
    refine (List.findIdx_eq hi).2 ⟨by simpa using hinv, fun a ha => ?_⟩
    simpa using ((stopsAt_eq_false_iff _ _ (ha.trans hi)).1 (h a ha)).2
  have hcap : ¬ capacityExceeded text s.cap.toNat = true := by
    rw [capacityExceeded_iff, heq]
    exact Nat.not_lt.2 (fits_of_not_stopsAt hi.le h)
  unfold decodeEffect
  rw [if_neg hcap, if_pos (by omega)]

/-- Where the decoder stops, the phase rule leaves what the command level gives. -/
theorem phaseStep_decodingAt_stop {text : List Byte} {s : State} (hlen : s.len.toNat = text.length)
    (hholds : HoldsFrom s.ibuf 0 text) {i : Nat} (hi : i < text.length)
    (hbefore : ∀ a < i, stopsAt text s.cap.toNat a = false) (hstop : stopsAt text s.cap.toNat i = true) :
    phaseStep (decodingAt text i s) = .next (decodeEffect text s) := by
  rw [phaseStep_decScan_decodingAt hlen hholds hi
    (fits_of_not_stopsAt hi.le hbefore)]
  rw [stopsAt_iff _ _ hi] at hstop
  cases hc : inv text[i] with
  | invalid => rw [decodeEffect_of_invalid hi hbefore hc]
  | padding =>
    have hex := exceedsAt_of_not_symbol s.cap.toNat hi (show symbolValue text[i] = none by rw [symbolValue, hc])
    simp [hex, hc] at hstop
  | symbol v =>
    have hex : exceedsAt text s.cap.toNat i = true := by
      simpa [hc] using hstop
    rw [decodeEffect_of_exceedsAt hi hbefore hex (by simp [hc])]
    simp [hex]

/-- Settles O47: the characters before the one at which the decoder stops, and the step that stops it. -/
theorem decoderRunIsCommand : Obligations.DecoderRunIsCommand := by
  intro s text htext hn
  refine ⟨_, exec_b32dec_of_input htext, ?_⟩
  obtain ⟨-, hlen, hholds, -⟩ := htext
  have hne : (enter .b32dec s).phase ≠ .idle := nofun
  have hnE : NoResetNext (enter .b32dec s) := hn.of_host rfl
  have hinit := phaseStep_decInit_enter (s := s) hlen
  have hgoOn {k t} (m : Nat) := endsAfter_decodingAt (s := enter .b32dec s) hlen hholds hnE (k := k) (t := t) m (i := 0)
  simp only [Nat.zero_add] at hgoOn
  show EndsAfter (decoderSteps text s.cap.toNat) _ _
  unfold decoderSteps
  obtain ⟨hbefore, hend | ⟨hlt, hstop⟩⟩ := decodeStop_cases text s.cap.toNat
  · rw [hend] at hbefore
    rw [if_neg (by omega), decodeEffect_of_no_stop hbefore, Nat.add_assoc, Nat.add_comm]
    have hlast : EndsAfter 1 (decodingAt text text.length (enter .b32dec s)) (decodedState text s) :=
      endsAfter_phase (by simp [decodingAt, scanPhase]) (hnE.of_host rfl) (phaseStep_decEnd_decodingAt _ _)
        (endsAfter_zero rfl)
    exact endsAfter_phase hne hnE hinit (hgoOn _ le_rfl hbefore hlast)
  · rw [if_pos hlt, Nat.add_comm]
    generalize decodeStop text s.cap.toNat = i at *
    have hlast : EndsAfter 1 (decodingAt text i (enter .b32dec s)) (decodeEffect text s) :=
      endsAfter_phase (by simp [decodingAt, scanPhase, hlt]) (hnE.of_host rfl)
        (phaseStep_decodingAt_stop (s := enter .b32dec s) hlen hholds hlt hbefore hstop)
        (endsAfter_zero (decodeEffect_phase _ _))
    exact endsAfter_phase hne hnE hinit (hgoOn _ hlt.le hbefore hlast)

end Sys2Proof.Machine

namespace Sys2Proof.Machine

/-! ## The key block and the pads as byte sequences -/

/-- The block of a key is the key normalised (rules R202 and R208). -/
theorem normBlock_toList (hash : List Byte → Digest) (key : List Byte) :
    (if key.length > 64 then hashedBlock (hash key) else paddedBlock key).toList = normKey hash key := by
  unfold normKey
  split_ifs with h
  · refine List.ext_getElem (by simp) fun k h1 h2 => ?_
    rw [Vector.getElem_toList, List.getElem_append]
    by_cases hd : k < 20
    · simp [hashedBlock, hd]
    · simp [hashedBlock, hd, -List.reduceReplicate]
  · refine List.ext_getElem (by simp; omega) fun k h1 h2 => ?_
    rw [Vector.getElem_toList, List.getElem_append]
    by_cases hkey : k < key.length <;> simp [paddedBlock, hkey]

theorem padBlock_toList (k : Vector Byte 64) (pad : Byte) : (padBlock k pad).toList = k.toList.map (· ^^^ pad) := by
  refine List.ext_getElem (by simp) fun i h1 h2 => ?_
  simp [padBlock]

/-! ## The HMAC phases -/

/-- The key block of `key`. -/
def keyBlock (key : List Byte) : Vector Byte 64 :=
  if key.length > 64 then hashedBlock (Config.hash key) else paddedBlock key

/-- The scratch of an HMAC run on `key` and `msg` when its digest is there. -/
def digestedScratch (key msg : List Byte) (sc : Scratch) : Scratch :=
  let ipad := padBlock (keyBlock key) 0x36#8
  { sc with
    kblk := keyBlock key
    ipad := ipad
    opad := padBlock (keyBlock key) 0x5c#8
    idig := Config.hash (ipad.toList ++ msg)
    digest := hmac Config.hash key msg }

/-- The state of an HMAC run on `key` and `msg` when its digest is there. -/
def digested (key msg : List Byte) (s : State) : State :=
  { s with
    phase := if s.scratch.hsel = 0#1 then .hmDone else .toTrunc
    scratch := digestedScratch key msg s.scratch }

/-- What the two hashes make of the pads is `Hmac` (rules R201, R204 and R205). -/
theorem hash_pads_eq_hmac (key msg : List Byte) :
    Config.hash ((padBlock (keyBlock key) 0x5c#8).toList
        ++ (Config.hash ((padBlock (keyBlock key) 0x36#8).toList ++ msg)).toList)
      = hmac Config.hash key msg := by
  have hk : (keyBlock key).toList = normKey Config.hash key := normBlock_toList Config.hash key
  rw [padBlock_toList, padBlock_toList, hk]
  rfl

/-- Four phases normalise the key, form the pads and hash twice. -/
theorem endsAfter_hmNorm {key msg : List Byte} {s t : State} {k : Nat} (hp : s.phase = .hmNorm) (hn : NoResetNext s)
    (hkey : memReadAll s .kbuf = .ok key) (hmsg : message s = .ok msg) (hend : EndsAfter k (digested key msg s) t) :
    EndsAfter (k + 4) s t := by
  have hlen : s.keyLen.toNat = key.length := ((memReadAll_eq_ok_iff s .kbuf key).1 hkey).1
  have hnorm : phaseStep s = .next { s with phase := .hmPads, scratch := { s.scratch with kblk := keyBlock key } } := by
    rw [phaseStep_hmNorm hp]
    unfold hmNorm
    rw [hkey, orFault_ok, hlen]
    rfl
  refine endsAfter_phase (by simp [hp]) hn hnorm ?_
  refine endsAfter_phase nofun (hn.of_host rfl) (phaseStep_hmPads rfl) ?_
  refine endsAfter_phase nofun (hn.of_host rfl) ((phaseStep_hmInner rfl).trans (congrArg (orFault · _) hmsg)) ?_
  refine endsAfter_phase nofun (hn.of_host rfl) (phaseStep_hmOuter rfl) ?_
  have hdigest := hash_pads_eq_hmac key msg
  unfold digested digestedScratch at hend
  rw [← hdigest] at hend
  exact hend

/-- Settles O49: the phases that make the digest, between the entry and the exit. -/
theorem hmacRunIsCommand : Obligations.HmacRunIsCommand := by
  intro s key msg hs hn
  refine ⟨_, exec_hmac_of_ready hs, ?_⟩
  refine endsAfter_phase nofun (hn.of_host rfl) (phaseStep_hmCmd rfl) ?_
  refine endsAfter_hmNorm (k := 1) rfl (hn.of_host rfl) hs.key hs.msg ?_
  exact endsAfter_phase nofun (hn.of_host rfl) (phaseStep_hmDone rfl) (endsAfter_zero rfl)

/-! ## The dynamic code extractor -/

theorem offsetField_toNat (d : Digest) : (offsetField d).toNat = truncOffset d := by
  unfold offsetField truncOffset
  rw [BitVec.toNat_setWidth, show (0x0F : Nat) = 2 ^ 4 - 1 by norm_num, Nat.and_two_pow_sub_one_eq_mod]

/-- A byte shifted up to its place in a 32-bit word. -/
theorem shiftedByte_toNat (x : Byte) {n : Nat} (hn : n ≤ 24) : (x.setWidth 32 <<< n).toNat = x.toNat <<< n := by
  have hlt := x.isLt
  have hx : x.toNat <<< n < 2 ^ 32 :=
    calc x.toNat <<< n = x.toNat * 2 ^ n := Nat.shiftLeft_eq ..
      _ < 2 ^ 8 * 2 ^ n := Nat.mul_lt_mul_of_pos_right hlt (by positivity)
      _ = 2 ^ (8 + n) := (pow_add ..).symm
      _ ≤ 2 ^ 32 := Nat.pow_le_pow_right (by norm_num) (by omega)
  rw [BitVec.toNat_shiftLeft, BitVec.toNat_setWidth, Nat.mod_eq_of_lt (show x.toNat < 2 ^ 32 by omega),
    Nat.mod_eq_of_lt hx]

/-- The mask keeps the low 31 bits. -/
theorem truncMask_toNat (p : Word) : (truncMask p).toNat = p.toNat % 2 ^ 31 := by
  unfold truncMask
  rw [BitVec.toNat_setWidth, BitVec.toNat_and, show (0x7FFFFFFF#32).toNat = 2 ^ 31 - 1 from rfl,
    Nat.and_two_pow_sub_one_eq_mod, Nat.mod_mod]

/-- Four bytes as a big-endian word, with bit 31 cleared. -/
theorem truncMask_bytes_toNat (a b c d : Byte) :
    (truncMask ((a.setWidth 32 <<< 24) ||| (b.setWidth 32 <<< 16) ||| (c.setWidth 32 <<< 8) ||| d.setWidth 32)).toNat
      = ((a.toNat &&& 0x7F) <<< 24) ||| (b.toNat <<< 16) ||| (c.toNat <<< 8) ||| d.toNat := by
  have ha : a.toNat <<< 24 % 2 ^ 31 = (a.toNat &&& 0x7F) <<< 24 := by
    rw [Nat.shiftLeft_eq, Nat.shiftLeft_eq, show (0x7F : Nat) = 2 ^ 7 - 1 by norm_num,
      Nat.and_two_pow_sub_one_eq_mod]
    omega
  have hb : b.toNat <<< 16 % 2 ^ 31 = b.toNat <<< 16 := by have := b.isLt; rw [Nat.shiftLeft_eq]; omega
  have hc : c.toNat <<< 8 % 2 ^ 31 = c.toNat <<< 8 := by have := c.isLt; rw [Nat.shiftLeft_eq]; omega
  have hd : (d.setWidth 32).toNat % 2 ^ 31 = d.toNat := by have := d.isLt; rw [BitVec.toNat_setWidth]; omega
  rw [truncMask_toNat, BitVec.toNat_or, BitVec.toNat_or, BitVec.toNat_or, Nat.or_mod_two_pow, Nat.or_mod_two_pow,
    Nat.or_mod_two_pow, shiftedByte_toNat a (by norm_num), shiftedByte_toNat b (by norm_num),
    shiftedByte_toNat c (by norm_num), ha, hb, hc, hd]

/-- The masked field is `tv` (rules R236 and R237). -/
theorem truncMask_truncField_toNat (d : Digest) :
    (truncMask (truncField d (offsetField d))).toNat = truncValue d := by
  unfold truncField truncValue
  simp only [truncMask_bytes_toNat, offsetField_toNat]

/-- `POW10[d]` is `10^d` (rule R101). -/
theorem pow10_of_le {d : Nat} (h : d ≤ 8) : ∃ m, pow10 d = some m ∧ m.toNat = 10 ^ d := by
  interval_cases d <;> exact ⟨_, rfl, rfl⟩

/-- The counter of the step level is the counter of the command level (rules R98 and R233). -/
theorem be8_udiv_toList (t s : DWord) : (be8 (t / s)).toList = counterBytes t.toNat s.toNat := by
  unfold counterBytes
  rw [BitVec.udiv_def]

/-- `TO_TRUNC` on the digest of the key and the counter: the code, and success (rule R238). -/
theorem phaseStep_toTrunc_digested {key : List Byte} {s : State} (hd : s.digits.toNat ≤ 8) (hh : s.scratch.hsel = 1#1)
    (hctr : s.scratch.ctr.toList = counterBytes s.time.toNat s.tStep.toNat) :
    phaseStep (digested key s.scratch.ctr.toList s)
      = .next (succeed (BitVec.ofNat 32 (code Config.hash key s.time.toNat s.tStep.toNat s.digits.toNat)) s) := by
  obtain ⟨m, hm, hpow⟩ := pow10_of_le hd
  have hdigits : (digested key s.scratch.ctr.toList s).digits = s.digits := rfl
  have hdigest : (digested key s.scratch.ctr.toList s).scratch.digest = hmac Config.hash key s.scratch.ctr.toList := rfl
  rw [phaseStep_toTrunc (if_neg (by rw [hh]; decide))]
  unfold toTrunc
  simp only [hdigits, hm, hdigest, truncMask_truncField_toNat, hpow]
  rw [hctr]
  rfl

/-- Settles O50: the digit check and the counter, the digest, and its truncation. -/
theorem totpRunIsCommand : Obligations.TotpRunIsCommand := by
  intro s key hs hn
  refine ⟨_, exec_totp_of_ready hs, ?_⟩
  have hcheck : phaseStep (enter .totp s) = toCheck (enter .totp s) := phaseStep_toCheck rfl
  unfold toCheck at hcheck
  rw [enter_digits] at hcheck
  obtain ⟨hd, ht⟩ | ⟨hd, ht⟩ := totpEffect_cases Config.hash key s
  · rw [if_pos hd] at hcheck ⊢
    rw [ht]
    exact endsAfter_phase nofun (hn.of_host rfl) hcheck (endsAfter_zero rfl)
  · rw [if_neg (Nat.not_lt.2 hd)] at hcheck ⊢
    rw [ht]
    have hz : s.tStep ≠ 0#64 := by obtain ⟨-, -, -, -, hz, -⟩ := hs; exact hz
    refine endsAfter_phase nofun (hn.of_host rfl) hcheck ?_
    refine endsAfter_phase nofun (hn.of_host rfl) ((phaseStep_toCtr rfl).trans (if_neg hz)) ?_
    refine endsAfter_hmNorm (k := 1) rfl (hn.of_host rfl) hs.key rfl ?_
    refine endsAfter_phase nofun (hn.of_host rfl) (phaseStep_toTrunc_digested hd rfl ?_) (endsAfter_zero rfl)
    exact be8_udiv_toList s.time s.tStep

end Sys2Proof.Machine

namespace Sys2Proof.Machine

/-! ## Statelessness -/

/-- The state with what earlier commands left replaced: the scratch, `RESULT`, `ERR`, and whether they were written. -/
def withRemains (sc : Scratch) (r : Word) (e : BitVec 3) (o : Bool) (s : State) : State :=
  { s with scratch := sc, result := r, err := e, given := { s.given with outcome := o } }

section
variable (sc : Scratch) (r : Word) (e : BitVec 3) (o : Bool) (s : State)

theorem memReadAll_withRemains (b : BufferId) : memReadAll (withRemains sc r e o s) b = memReadAll s b := by
  cases b <;> rfl

/-- No reason for a refusal looks at what earlier commands left. -/
theorem startRefusal_withRemains (E : Env) (i : Instr) :
    startRefusal E i (withRemains sc r e o s) = startRefusal E i s := by
  have hfilled (bs : List BufferId) : firstUnwritten (withRemains sc r e o s) bs = firstUnwritten s bs := by
    induction bs with
    | nil => rfl
    | cons b bs ih => unfold firstUnwritten; rw [ih]; cases b <;> rfl
  unfold startRefusal
  rw [hfilled]
  cases i <;> rfl

theorem started_withRemains (E : Env) (i : Instr) (k : Answer) :
    started E i (withRemains sc r e o s) k = started E i s k := by
  unfold started
  rw [startRefusal_withRemains]

/-! Each effect ends in a completion, which overwrites everything that earlier commands left (rules R296 and R297). -/

theorem encodeEffect_withRemains (b : List Byte) :
    encodeEffect b (withRemains sc r e o s) = encodeEffect b s := rfl

theorem decodeEffect_withRemains (text : List Byte) :
    decodeEffect text (withRemains sc r e o s) = decodeEffect text s := rfl

theorem totpEffect_withRemains (hash : List Byte → Digest) (key : List Byte) :
    totpEffect hash key (withRemains sc r e o s) = totpEffect hash key s := rfl

theorem hmacEffect_withRemains (hash : List Byte → Digest) (key msg : List Byte) :
    hmacEffect hash key msg (withRemains sc r e o s) = hmacEffect hash key msg s := rfl

theorem secretEffect_withRemains (d : Draw) :
    secretEffect d (countDraw (withRemains sc r e o s)) = secretEffect d (countDraw s) := by
  cases d <;> rfl

/-- No command depends on what earlier commands left. -/
theorem exec_withRemains (i : Instr) : exec i (withRemains sc r e o s) = exec i s := by
  cases i with
  | b32enc =>
    simp only [exec, execB32enc, b32encWith, started_withRemains, memReadAll_withRemains, encodeEffect_withRemains]
  | b32dec =>
    simp only [exec, execB32dec, b32decWith, started_withRemains, memReadAll_withRemains, decodeEffect_withRemains]
  | totp => simp only [exec, execTotp, totpWith, started_withRemains, memReadAll_withRemains, totpEffect_withRemains]
  | hmac => simp only [exec, execHmac, hmacWith, started_withRemains, memReadAll_withRemains, hmacEffect_withRemains]
  | gensec =>
    simp only [exec, execGensec, gensecWith, started_withRemains, secretEffect_withRemains]
    rfl
end

/-- Settles O41: neither the reasons for a refusal nor an effect look at what earlier commands left. -/
theorem commandsAreStateless : Obligations.CommandsAreStateless :=
  fun i s scratch result err outcome => exec_withRemains scratch result err outcome s i

end Sys2Proof.Machine

namespace Sys2Proof.Machine

/-! ## Reset, the host's register writes, and what a command leaves unchanged -/

/-- Settles O52: each item is the value `State.reset` gives it, and no register is marked in `Given.nothing`. -/
theorem resetLeavesIdle : Obligations.ResetLeavesIdle :=
  ⟨rfl, rfl, rfl, rfl, rfl, rfl, fun r => by cases r <;> rfl⟩

/-- Settles O56: in `IDLE` the step is the host's next action, and each write's action is the update named. -/
theorem hostWritesRegister : Obligations.HostWritesRegister :=
  fun _ _ _ _ hp => ⟨step_idle_action hp, step_idle_action hp, step_idle_action hp, step_idle_action hp,
    step_idle_action hp, step_idle_action hp⟩

/-- From `s` to `t` only the outcome, `OBUF`, `PHASE`, the scratch and the count of free values can differ. -/
def OutcomeOnly (s t : State) : Prop :=
  KeepsOperands s t ∧ t.dig = s.dig ∧ t.given = { s.given with outcome := true } ∧ t.draws = s.draws

theorem outcomeOnly_raise (v : ErrorVariant) (s : State) : OutcomeOnly s (raise v s) :=
  ⟨keepsOperands_raise v s, rfl, rfl, rfl⟩

theorem outcomeOnly_succeed (r : Word) (s : State) : OutcomeOnly s (succeed r s) := by
  simp [OutcomeOnly, KeepsOperands]

theorem outcomeOnly_encodeSucceeds (b : List Byte) (s : State) : OutcomeOnly s (encodeSucceeds b s) :=
  ⟨keepsOperands_encodeSucceeds b s, rfl, rfl, rfl⟩

theorem outcomeOnly_decodedState (text : List Byte) (s : State) : OutcomeOnly s (decodedState text s) := by
  simp [OutcomeOnly, KeepsOperands, decodedState]

theorem outcomeOnly_encodeEffect (b : List Byte) (s : State) : OutcomeOnly s (encodeEffect b s) := by
  obtain ⟨-, h⟩ | ⟨-, h⟩ := encodeEffect_cases b s <;> rw [h]
  · exact outcomeOnly_raise _ _
  · exact outcomeOnly_encodeSucceeds _ _

theorem outcomeOnly_decodeEffect (text : List Byte) (s : State) : OutcomeOnly s (decodeEffect text s) := by
  obtain ⟨-, h⟩ | ⟨-, -, h⟩ | ⟨-, -, h⟩ := decodeEffect_cases text s <;> rw [h]
  · exact outcomeOnly_raise _ _
  · exact outcomeOnly_raise _ _
  · exact outcomeOnly_decodedState _ _

/-- A `TOTP` also leaves `OBUF`: its one failure spoils no buffer (log 4). -/
theorem outcomeOnly_totpEffect (hash : List Byte → Digest) (key : List Byte) (s : State) :
    OutcomeOnly s (totpEffect hash key s) ∧ (totpEffect hash key s).obuf = s.obuf := by
  obtain ⟨-, h⟩ | ⟨-, h⟩ := totpEffect_cases hash key s <;> rw [h]
  · exact ⟨outcomeOnly_raise _ _, rfl⟩
  · exact ⟨outcomeOnly_succeed _ _, rfl⟩

theorem outcomeOnly_secretEffect (d : Draw) (s : State) : OutcomeOnly s (secretEffect d s) := by
  obtain ⟨-, h⟩ | ⟨r, -, -, h⟩ | ⟨r, -, -, h⟩ := secretEffect_cases d s <;> rw [h]
  · exact outcomeOnly_raise _ _
  · exact outcomeOnly_raise _ _
  · exact outcomeOnly_encodeSucceeds _ _

/-- Settles O38: an effect changes the outcome only, but that `HMAC` writes `DIG` and `GENSEC` counts a draw first. -/
theorem commandFrame : Obligations.CommandFrame := by
  intro i s t h
  cases i with
  | b32enc =>
    obtain ⟨b, -, rfl⟩ := exec_b32enc_next h
    obtain ⟨hkeep, hdig, hgiven, hdraws⟩ := outcomeOnly_encodeEffect b s
    exact ⟨hkeep, nofun, fun _ => hdig, hgiven, hdraws⟩
  | b32dec =>
    obtain ⟨text, -, rfl⟩ := exec_b32dec_next h
    obtain ⟨hkeep, hdig, hgiven, hdraws⟩ := outcomeOnly_decodeEffect text s
    exact ⟨hkeep, nofun, fun _ => hdig, hgiven, hdraws⟩
  | totp =>
    obtain ⟨key, -, rfl⟩ := exec_totp_next h
    obtain ⟨⟨hkeep, hdig, hgiven, hdraws⟩, hobuf⟩ := outcomeOnly_totpEffect Config.hash key s
    exact ⟨hkeep, fun _ => hobuf, fun _ => hdig, hgiven, hdraws⟩
  | hmac =>
    obtain ⟨key, msg, -, rfl⟩ := exec_hmac_next h
    simp [KeepsOperands]
  | gensec =>
    obtain ⟨-, rfl⟩ := exec_gensec_next h
    obtain ⟨hkeep, hdig, hgiven, hdraws⟩ := outcomeOnly_secretEffect (Config.rand s.draws) (countDraw s)
    exact ⟨hkeep, nofun, fun _ => hdig, hgiven, hdraws⟩

end Sys2Proof.Machine

namespace Sys2Proof.Machine

/-! ## What each phase rule can do

One inversion lemma for each rule that reads, writes or branches: if it answers a next state, that state is one of
these. -/

/-- One more input byte is read. -/
def advanced (s : State) : State :=
  { s with scratch := { s.scratch with iidx := s.scratch.iidx + 1#32 } }

/-- The accumulator when an octet entered below the pending bits (rule R133). -/
def absorbedAcc (o : Byte) (s : State) : Word :=
  (s.scratch.acc <<< 8) ||| o.setWidth 32

/-- The phase after an octet is absorbed, `u` being the state in which it is counted. -/
def absorbPhase (u : State) : Phase :=
  if u.scratch.iidx.toNat < sourceLength u then .encAbsorb else .encDrain

/-- The phase after a character is read, `u` being the state in which it is counted. -/
def scanNextPhase (u : State) : Phase :=
  if u.scratch.iidx.toNat < u.len.toNat then .decScan else .decEnd

theorem encCheck_next {s t : State} (h : encCheck s = .next t) :
    t = raise .bufferTooSmall s
      ∨ (requiredCap s.len.toNat ≤ s.cap.toNat
          ∧ t = { startEncoder 0#1 s with phase := absorbPhase (startEncoder 0#1 s) }) := by
  unfold encCheck at h
  simp only at h
  split at h
  next => exact .inl (Host.Outcome.next.inj h).symm
  next hroom => exact .inr ⟨Nat.le_of_not_lt hroom, (Host.Outcome.next.inj h).symm⟩

theorem emitSym_eq_ok {s t : State} {v : BitVec 5} (h : emitSym v s = .ok t) :
    s.scratch.ocnt.toNat < s.cap.toNat ∧ t = withOutput [alpha v] s :=
  putByte_eq_ok h

theorem encAbsorb_eq (s : State) :
    encAbsorb s = orFault (sourceRead s) fun o =>
      if 25 ≤ s.scratch.pend.toNat + 8 then
        orFault (emitSyms (windowQuintets (absorbedAcc o s) (s.scratch.pend.toNat + 8)) (advanced s)) fun u =>
          .next (setAcc (lowBits (s.scratch.pend.toNat + 8 - 25) (absorbedAcc o s)) (s.scratch.pend.toNat + 8 - 25)
            (absorbPhase (advanced s)) u)
      else .next (setAcc (absorbedAcc o s) (s.scratch.pend.toNat + 8) (absorbPhase (advanced s)) (advanced s)) := rfl

theorem encAbsorb_next {s t : State} (h : encAbsorb s = .next t) :
    ∃ o,
      (s.scratch.pend.toNat + 8 < 25
          ∧ t = setAcc (absorbedAcc o s) (s.scratch.pend.toNat + 8) (absorbPhase (advanced s)) (advanced s))
        ∨ ∃ bytes, bytes.length = 5 ∧ 25 ≤ s.scratch.pend.toNat + 8
          ∧ s.scratch.ocnt.toNat + bytes.length ≤ s.cap.toNat
          ∧ t = setAcc (lowBits (s.scratch.pend.toNat + 8 - 25) (absorbedAcc o s)) (s.scratch.pend.toNat + 8 - 25)
              (absorbPhase (advanced s)) (withOutput bytes (advanced s)) := by
  rw [encAbsorb_eq] at h
  obtain ⟨o, -, h⟩ := orFault_next h
  refine ⟨o, ?_⟩
  by_cases hw : 25 ≤ s.scratch.pend.toNat + 8
  · rw [if_pos hw] at h
    obtain ⟨u, hu, h⟩ := orFault_next h
    obtain ⟨hroom, rfl⟩ := emitSyms_eq_ok hu
    refine .inr ⟨_, rfl, hw, ?_, (Host.Outcome.next.inj h).symm⟩
    exact hroom.resolve_left nofun
  · rw [if_neg hw] at h
    exact .inl ⟨Nat.lt_of_not_le hw, (Host.Outcome.next.inj h).symm⟩

theorem encDrain_next {s t : State} (h : encDrain s = .next t) :
    (∃ c, 5 ≤ s.scratch.pend.toNat ∧ s.scratch.ocnt.toNat < s.cap.toNat
        ∧ t = setAcc (lowBits (s.scratch.pend.toNat - 5) s.scratch.acc) (s.scratch.pend.toNat - 5) .encDrain
            (withOutput [c] s))
      ∨ (s.scratch.pend.toNat < 5 ∧ t = { s with phase := .encTail }) := by
  unfold encDrain at h
  split_ifs at h with hp
  · obtain ⟨u, hu, h⟩ := orFault_next h
    obtain ⟨hroom, rfl⟩ := emitSym_eq_ok hu
    exact .inl ⟨_, hp, hroom, (Host.Outcome.next.inj h).symm⟩
  · exact .inr ⟨Nat.lt_of_not_le hp, (Host.Outcome.next.inj h).symm⟩

theorem encTail_next {s t : State} (h : encTail s = .next t) :
    (∃ c, 1 ≤ s.scratch.pend.toNat ∧ s.scratch.ocnt.toNat < s.cap.toNat
        ∧ t = setAcc 0#32 0 .encPad (withOutput [c] s))
      ∨ (s.scratch.pend.toNat = 0 ∧ t = setAcc 0#32 0 .encPad s) := by
  unfold encTail at h
  split_ifs at h with hp
  · obtain ⟨u, hu, h⟩ := orFault_next h
    obtain ⟨hroom, rfl⟩ := emitSym_eq_ok hu
    exact .inl ⟨_, hp, hroom, (Host.Outcome.next.inj h).symm⟩
  · exact .inr ⟨by omega, (Host.Outcome.next.inj h).symm⟩

theorem encPad_next {s t : State} (h : encPad s = .next t) :
    (s.scratch.ocnt.toNat % 8 ≠ 0 ∧ s.scratch.ocnt.toNat < s.cap.toNat
        ∧ t = { withOutput [padChar] s with phase := .encPad })
      ∨ (s.scratch.ocnt.toNat % 8 = 0 ∧ t = { s with phase := .encTerm }) := by
  unfold encPad at h
  split_ifs at h with hm
  · obtain ⟨u, hu, h⟩ := orFault_next h
    obtain ⟨hroom, rfl⟩ := putByte_eq_ok hu
    exact .inl ⟨hm, hroom, (Host.Outcome.next.inj h).symm⟩
  · exact .inr ⟨not_not.1 hm, (Host.Outcome.next.inj h).symm⟩

theorem encTerm_next {s t : State} (h : encTerm s = .next t) :
    s.scratch.ocnt.toNat < s.cap.toNat
      ∧ t = succeed s.scratch.ocnt { s with obuf := Memory.write s.obuf s.scratch.ocnt.toNat nul } := by
  obtain ⟨u, hu, h⟩ := orFault_next h
  obtain ⟨hroom, rfl⟩ := memWriteObuf_eq_ok hu
  exact ⟨hroom, (Host.Outcome.next.inj h).symm⟩

theorem decSymbol_next {v : BitVec 5} {ph : Phase} {s t : State} (h : decSymbol v ph s = .next t) :
    t = raise .bufferTooSmall s
      ∨ (∃ c, 8 ≤ s.scratch.pend.toNat + 5 ∧ s.scratch.ocnt.toNat < s.cap.toNat
          ∧ t = setAcc (lowBits (s.scratch.pend.toNat + 5 - 8) (shiftIn s.scratch.acc v))
              (s.scratch.pend.toNat + 5 - 8) ph (withOutput [c] s))
      ∨ (s.scratch.pend.toNat + 5 < 8
          ∧ t = setAcc (shiftIn s.scratch.acc v) (s.scratch.pend.toNat + 5) ph s) := by
  unfold decSymbol at h
  simp only at h
  split_ifs at h with hp hc
  · exact .inl (Host.Outcome.next.inj h).symm
  · obtain ⟨u, hu, h⟩ := orFault_next h
    obtain ⟨hroom, rfl⟩ := memWriteObuf_eq_ok hu
    exact .inr (.inl ⟨_, hp, hroom, (Host.Outcome.next.inj h).symm⟩)
  · exact .inr (.inr ⟨Nat.lt_of_not_le hp, (Host.Outcome.next.inj h).symm⟩)

theorem decScan_next {s t : State} (h : decScan s = .next t) :
    ∃ c, s.scratch.iidx.toNat < s.len.toNat ∧ Memory.read s.ibuf s.scratch.iidx.toNat = some c
      ∧ ((inv c = .invalid ∧ t = raise .invalidCharacter (advanced s))
        ∨ (inv c = .padding ∧ t = { advanced s with phase := scanNextPhase (advanced s) })
        ∨ ∃ v, inv c = .symbol v ∧ decSymbol v (scanNextPhase (advanced s)) (advanced s) = .next t) := by
  obtain ⟨c, hc, h⟩ := orFault_next h
  obtain ⟨hlt, hread⟩ := memRead_eq_ok hc
  refine ⟨c, hlt, hread, ?_⟩
  simp only at h
  cases hinv : inv c with
  | invalid => rw [hinv] at h; exact .inl ⟨rfl, (Host.Outcome.next.inj h).symm⟩
  | padding => rw [hinv] at h; exact .inr (.inl ⟨rfl, (Host.Outcome.next.inj h).symm⟩)
  | symbol v => rw [hinv] at h; exact .inr (.inr ⟨v, rfl, h⟩)

theorem hmNorm_next {E : Env} {s t : State} (h : hmNorm E s = .next t) :
    ∃ block, t = { s with phase := .hmPads, scratch := { s.scratch with kblk := block } } := by
  obtain ⟨key, -, h⟩ := orFault_next h
  exact ⟨_, (Host.Outcome.next.inj h).symm⟩

theorem hmInner_next {E : Env} {s t : State} (h : hmInner E s = .next t) :
    ∃ d, t = { s with phase := .hmOuter, scratch := { s.scratch with idig := d } } := by
  obtain ⟨msg, -, h⟩ := orFault_next h
  exact ⟨_, (Host.Outcome.next.inj h).symm⟩

theorem toCheck_next {s t : State} (h : toCheck s = .next t) :
    (8 < s.digits.toNat ∧ t = raise .invalidDigitCount s)
      ∨ (s.digits.toNat ≤ 8 ∧ t = { s with phase := .toCtr }) := by
  unfold toCheck at h
  split_ifs at h with hd
  · exact .inl ⟨hd, (Host.Outcome.next.inj h).symm⟩
  · exact .inr ⟨Nat.le_of_not_lt hd, (Host.Outcome.next.inj h).symm⟩

theorem toCtr_next {s t : State} (h : toCtr s = .next t) :
    t = { s with phase := .hmNorm, scratch := { s.scratch with ctr := be8 (s.time / s.tStep), hsel := 1#1 } } := by
  unfold toCtr at h
  split_ifs at h
  exact (Host.Outcome.next.inj h).symm

theorem toTrunc_next {s t : State} (h : toTrunc s = .next t) :
    ∃ r off tv, t = succeed r { s with scratch := { s.scratch with off := off, tv := tv } } := by
  unfold toTrunc at h
  simp only at h
  split at h
  · cases h
  · exact ⟨_, _, _, (Host.Outcome.next.inj h).symm⟩

theorem gsRand_next {E : Env} {s t : State} (h : gsRand E s = .next t) :
    t = raise .randomSourceFailure (countDraw s) ∨ ∃ r, t = drawn r s := by
  unfold gsRand at h
  simp only at h
  split at h
  · exact .inl (Host.Outcome.next.inj h).symm
  · exact .inr ⟨_, (Host.Outcome.next.inj h).symm⟩

theorem gsCheck_next {s t : State} (h : gsCheck s = .next t) :
    t = raise .bufferTooSmall s
      ∨ (secretCap ≤ s.cap.toNat ∧ t = { startEncoder 1#1 s with phase := .encAbsorb }) := by
  unfold gsCheck at h
  split_ifs at h with hc
  · exact .inl (Host.Outcome.next.inj h).symm
  · exact .inr ⟨Nat.le_of_not_lt hc, (Host.Outcome.next.inj h).symm⟩

end Sys2Proof.Machine

namespace Sys2Proof.Machine

/-! ## The two parts of the invariant -/

/-- The part of the invariant that speaks of the buffers, whatever the phase. -/
def BuffersInv (s : State) : Prop :=
  Memory.wf s.ibuf ∧ Memory.wf s.kbuf ∧ Memory.wf s.obuf ∧ GivenInv s

theorem inv_iff (s : State) : Inv s ↔ BuffersInv s ∧ PhaseInv s := by
  unfold Inv BuffersInv
  tauto

/-- `IDLE` promises nothing. -/
theorem inv_of_idle {s : State} (h : BuffersInv s) (hp : s.phase = .idle) : Inv s := by
  refine (inv_iff s).2 ⟨h, ?_⟩
  unfold PhaseInv
  rw [hp]
  trivial

theorem BuffersInv.withObuf {s : State} (h : BuffersInv s) {m : Memory} (hm : Memory.wf m) :
    BuffersInv { s with obuf := m } := by
  obtain ⟨hi, hk, -, hg⟩ := h
  exact ⟨hi, hk, hm, hg⟩

theorem BuffersInv.obuf_wf {s : State} (h : BuffersInv s) : Memory.wf s.obuf := by
  obtain ⟨-, -, ho, -⟩ := h
  exact ho

theorem BuffersInv.withOutput {s : State} (h : BuffersInv s) (bytes : List Byte) : BuffersInv (withOutput bytes s) :=
  h.withObuf (writeFrom_wf h.obuf_wf _ bytes)

/-! ### Completions, whole commands and reset -/

theorem inv_succeed {s : State} (h : BuffersInv s) (r : Word) : Inv (succeed r s) :=
  inv_of_idle h rfl

theorem inv_raise {s : State} (h : BuffersInv s) (v : ErrorVariant) : Inv (raise v s) := by
  have ho : Memory.wf (raise v s).obuf := by
    rw [raise_obuf]
    split_ifs
    · exact spoil_wf h.obuf_wf _ _
    · exact h.obuf_wf
  exact inv_of_idle (h.withObuf ho) rfl

theorem inv_encodeSucceeds {s : State} (h : BuffersInv s) (b : List Byte) : Inv (encodeSucceeds b s) :=
  inv_succeed (h.withObuf (writeFrom_wf h.obuf_wf 0 (enc b ++ [nul]))) _

/-- A whole command completes, and keeps the invariant. -/
theorem inv_exec {i : Instr} {s t : State} (hb : BuffersInv s) (h : exec i s = .next t) : Inv t := by
  cases i with
  | b32enc =>
    obtain ⟨b, -, rfl⟩ := exec_b32enc_next h
    obtain ⟨-, ht⟩ | ⟨-, ht⟩ := encodeEffect_cases b s <;> rw [ht]
    · exact inv_raise hb _
    · exact inv_encodeSucceeds hb _
  | b32dec =>
    obtain ⟨text, -, rfl⟩ := exec_b32dec_next h
    obtain ⟨-, ht⟩ | ⟨-, -, ht⟩ | ⟨-, -, ht⟩ := decodeEffect_cases text s <;> rw [ht]
    · exact inv_raise hb _
    · exact inv_raise hb _
    · exact inv_succeed (hb.withObuf (writeFrom_wf hb.obuf_wf 0 (dec text))) _
  | totp =>
    obtain ⟨key, -, rfl⟩ := exec_totp_next h
    obtain ⟨-, ht⟩ | ⟨-, ht⟩ := totpEffect_cases Config.hash key s <;> rw [ht]
    · exact inv_raise hb _
    · exact inv_succeed hb _
  | hmac =>
    obtain ⟨key, msg, -, rfl⟩ := exec_hmac_next h
    exact inv_succeed (s := writeDig _ s) hb _
  | gensec =>
    obtain ⟨-, rfl⟩ := exec_gensec_next h
    have hd : BuffersInv (countDraw s) := hb
    obtain ⟨-, ht⟩ | ⟨r, -, -, ht⟩ | ⟨r, -, -, ht⟩ := secretEffect_cases (Config.rand s.draws) (countDraw s) <;> rw [ht]
    · exact inv_raise hd _
    · exact inv_raise hd _
    · exact inv_encodeSucceeds hd _

/-- After an asserted reset no byte counts as written. -/
theorem inv_assertReset {s : State} (h : BuffersInv s) : Inv (assertReset s) := by
  have ho : Memory.wf (assertReset s).obuf := by
    rw [assertReset_obuf]
    split_ifs
    · exact h.obuf_wf
    · exact spoil_wf h.obuf_wf _ _
  obtain ⟨hi, hk, -, -⟩ := h
  exact inv_of_idle ⟨hi, hk, ho, nofun, nofun⟩ rfl

/-! ### The host's actions -/

/-- What was written before or is written now has a value. -/
theorem Written.writeFrom {m : Memory} {n : Nat} (h : Written m n) (bytes : List Byte) :
    Written (Memory.writeFrom m 0 bytes) (max n bytes.length) := by
  intro a ha
  rw [read_writeFrom]
  by_cases hnew : a < bytes.length
  · rw [if_pos ⟨Nat.zero_le a, by omega⟩, Nat.sub_zero, List.getElem?_eq_getElem hnew]
    rfl
  · rw [if_neg (by omega)]
    exact h a (by omega)

theorem BuffersInv.loadBuffer {s : State} (h : BuffersInv s) (b : BufferId) (bytes : List Byte) :
    BuffersInv (loadBuffer b bytes s) := by
  obtain ⟨hi, hk, ho, hgi, hgk⟩ := h
  cases b with
  | ibuf => exact ⟨writeFrom_wf hi 0 bytes, hk, ho, hgi.writeFrom bytes, hgk⟩
  | kbuf => exact ⟨hi, writeFrom_wf hk 0 bytes, ho, hgi, hgk.writeFrom bytes⟩
  | obuf => exact ⟨hi, hk, writeFrom_wf ho 0 bytes, hgi, hgk⟩

theorem hostCommand_next {op : Byte} {s t : State} (h : hostCommand op s = .next t) :
    ∃ i, exec i { s with cmd := op } = .next t := by
  unfold hostCommand at h
  split at h
  next i _ _ => exact ⟨i, h⟩
  all_goals cases h

theorem hostStart_next {op : Byte} {s t : State} (h : hostStart op s = .next t) :
    ∃ i, Ready i { s with cmd := op } ∧ t = enter i { s with cmd := op } := by
  unfold hostStart at h
  split at h
  next i _ _ =>
    obtain ⟨hr, ht⟩ := started_next h
    exact ⟨i, (startRefusal_eq_none_iff env_binding _ _).1 hr, (Host.Outcome.next.inj ht).symm⟩
  all_goals cases h

/-- A command that may start enters its first phase with its input buffers written. -/
theorem inv_enter {i : Instr} {s : State} (hb : BuffersInv s) (h : Ready i s) : Inv (enter i s) := by
  refine (inv_iff _).2 ⟨hb, ?_⟩
  obtain ⟨-, -, h⟩ := h
  cases i with
  | b32enc =>
    obtain ⟨-, -, -, hw⟩ := h
    exact hw
  | b32dec =>
    obtain ⟨-, -, -, hw⟩ := h
    exact hw
  | totp =>
    obtain ⟨-, hz, -, hw⟩ := h
    exact ⟨hw, hz⟩
  | hmac =>
    obtain ⟨-, -, ⟨-, hwk⟩, -, hwi⟩ := h
    exact ⟨hwk, hwi⟩
  | gensec => trivial

/-- In `IDLE` a host action keeps the invariant: register writes and reads leave the buffers alone. -/
theorem inv_hostAct {a : HostAction} {s t : State} (hb : BuffersInv s) (hp : s.phase = .idle)
    (h : hostAct a s = .next t) : Inv t := by
  cases a with
  | load b bytes =>
    cases h
    exact inv_of_idle (hb.loadBuffer b bytes) ((setBuffer_phase ..).trans hp)
  | command op =>
    obtain ⟨i, hi⟩ := hostCommand_next h
    exact inv_exec (s := { s with cmd := op }) hb hi
  | start op =>
    obtain ⟨i, hr, rfl⟩ := hostStart_next h
    exact inv_enter (s := { s with cmd := op }) hb hr
  | readObuf n =>
    simp only [hostAct, hostReadObuf] at h
    split at h <;> cases h
    exact inv_of_idle hb hp
  | readDig n =>
    simp only [hostAct, hostReadDig] at h
    split at h <;> cases h
    exact inv_of_idle hb hp
  | reset k =>
    cases h
    exact inv_assertReset hb
  | _ =>
    cases h
    exact inv_of_idle hb hp

end Sys2Proof.Machine

namespace Sys2Proof.Machine

/-! ## The arithmetic of the counts and the accumulator -/

/-- An index below a bound of 32 bits is counted up without overflow. -/
theorem toNat_succ_of_lt {x : Word} {n : Nat} (h : x.toNat < n) (hn : n < 2 ^ 32) :
    (x + 1#32).toNat = x.toNat + 1 := by
  rw [BitVec.toNat_add]
  exact Nat.mod_eq_of_lt (by simp; omega)

theorem sourceLength_lt (s : State) : sourceLength s < 2 ^ 32 := by
  unfold sourceLength
  split_ifs
  · exact s.len.isLt
  · norm_num

/-- `w` bits below `p` pending ones make at most `p + w` bits. -/
theorem shiftLeft_or_lt {w p : Nat} {a : Word} (v : BitVec w) (ha : a.toNat < 2 ^ p) (h : p + w ≤ 32) :
    ((a <<< w) ||| v.setWidth 32).toNat < 2 ^ (p + w) := by
  have hroom : a.toNat * 2 ^ w + 2 ^ w ≤ 2 ^ (p + w) :=
    calc a.toNat * 2 ^ w + 2 ^ w = (a.toNat + 1) * 2 ^ w := by ring
      _ ≤ 2 ^ p * 2 ^ w := Nat.mul_le_mul_right _ ha
      _ = 2 ^ (p + w) := (pow_add ..).symm
  have hv := v.isLt
  rw [shiftLeft_or_toNat a v (hroom.trans (Nat.pow_le_pow_right (by norm_num) h))]
  omega

/-! ## The encoder's phases -/

theorem setAcc_pend_toNat (a : Word) {p : Nat} (ph : Phase) (s : State) (hp : p < 32) :
    (setAcc a p ph s).scratch.pend.toNat = p :=
  Nat.mod_eq_of_lt hp

theorem encoderInv_setAcc {u : State} {a : Word} {p : Nat} (ph : Phase)
    (hbits : 8 * u.scratch.iidx.toNat = 5 * u.scratch.ocnt.toNat + p) (hp : p ≤ 24) (ha : a.toNat < 2 ^ p)
    (hi : u.scratch.iidx.toNat ≤ sourceLength u) (hcap : requiredCap (sourceLength u) ≤ u.cap.toNat) :
    EncoderInv (setAcc a p ph u) := by
  have hpend := setAcc_pend_toNat a ph u (show p < 32 by omega)
  unfold EncoderInv
  rw [hpend]
  exact ⟨hbits, hp, ha, hi, hcap⟩

/-- The encoder before its first octet. -/
theorem encoderInv_startEncoder {e : BitVec 1} {s : State} (ph : Phase)
    (h : requiredCap (sourceLength (startEncoder e s)) ≤ s.cap.toNat) :
    EncoderInv { startEncoder e s with phase := ph } :=
  ⟨rfl, Nat.zero_le _, Nat.one_pos, Nat.zero_le _, h⟩

/-- Between two octets, and after the last. -/
theorem phaseInv_of_absorbPhase {u : State} (hph : u.phase = absorbPhase u) (he : EncoderInv u) (hw : SourceWritten u)
    (hp : u.scratch.pend.toNat = 8 * u.scratch.iidx.toNat % 25) : PhaseInv u := by
  unfold absorbPhase at hph
  unfold PhaseInv
  split_ifs at hph with hi <;> rw [hph]
  · exact ⟨he, hw, hi, hp⟩
  · obtain ⟨-, -, -, hle, -⟩ := id he
    exact ⟨he, Nat.le_antisymm hle (Nat.le_of_not_lt hi)⟩

theorem inv_encCheck {s t : State} (hb : BuffersInv s) (hw : Written s.ibuf s.len.toNat) (h : encCheck s = .next t) :
    Inv t := by
  obtain rfl | ⟨hroom, rfl⟩ := encCheck_next h
  · exact inv_raise hb _
  · exact (inv_iff _).2 ⟨hb, phaseInv_of_absorbPhase rfl (encoderInv_startEncoder _ hroom) (fun _ => hw) rfl⟩

/-- An octet counted in `u`, with `p` bits left pending. -/
theorem inv_setAcc_absorbPhase {u : State} {a : Word} {p : Nat} (hb : BuffersInv u)
    (hbits : 8 * u.scratch.iidx.toNat = 5 * u.scratch.ocnt.toNat + p) (hp : p = 8 * u.scratch.iidx.toNat % 25)
    (ha : a.toNat < 2 ^ p) (hi : u.scratch.iidx.toNat ≤ sourceLength u)
    (hcap : requiredCap (sourceLength u) ≤ u.cap.toNat) (hw : SourceWritten u) :
    Inv (setAcc a p (absorbPhase u) u) := by
  have hinv := encoderInv_setAcc (absorbPhase u) hbits (by omega) ha hi hcap
  have hpend := setAcc_pend_toNat a (absorbPhase u) u (show p < 32 by omega)
  exact (inv_iff _).2 ⟨hb, phaseInv_of_absorbPhase rfl hinv hw (hpend.trans hp)⟩

theorem inv_encAbsorb {s t : State} (hb : BuffersInv s)
    (hs : EncoderInv s ∧ SourceWritten s ∧ s.scratch.iidx.toNat < sourceLength s
      ∧ s.scratch.pend.toNat = 8 * s.scratch.iidx.toNat % 25)
    (h : encAbsorb s = .next t) : Inv t := by
  obtain ⟨⟨hbits, hp, hacc, -, hcap⟩, hw, hi, hmod⟩ := hs
  have hidx : (advanced s).scratch.iidx.toNat = s.scratch.iidx.toNat + 1 := toNat_succ_of_lt hi (sourceLength_lt s)
  have hle : (advanced s).scratch.iidx.toNat ≤ sourceLength s := by omega
  obtain ⟨o, ⟨hwin, rfl⟩ | ⟨bytes, hlen, hwin, hroom, rfl⟩⟩ := encAbsorb_next h
  · have hlt : (absorbedAcc o s).toNat < 2 ^ (s.scratch.pend.toNat + 8) := shiftLeft_or_lt o hacc (by omega)
    have hbits' : 8 * (advanced s).scratch.iidx.toNat = 5 * s.scratch.ocnt.toNat + (s.scratch.pend.toNat + 8) := by
      omega
    exact inv_setAcc_absorbPhase (u := advanced s) hb hbits' (by omega) hlt hle hcap hw
  · have hlt := lowBits_lt (s.scratch.pend.toNat + 8 - 25) (absorbedAcc o s) (by omega)
    have hocnt : (withOutput bytes (advanced s)).scratch.ocnt.toNat = s.scratch.ocnt.toNat + bytes.length :=
      withOutput_ocnt (s := advanced s) hroom
    have hbits' : 8 * (advanced s).scratch.iidx.toNat
        = 5 * (withOutput bytes (advanced s)).scratch.ocnt.toNat + (s.scratch.pend.toNat + 8 - 25) := by omega
    have hmod' : s.scratch.pend.toNat + 8 - 25 = 8 * (advanced s).scratch.iidx.toNat % 25 := by omega
    have hout : BuffersInv (withOutput bytes (advanced s)) := BuffersInv.withOutput (s := advanced s) hb bytes
    exact inv_setAcc_absorbPhase hout hbits' hmod' hlt hle hcap hw

theorem inv_encDrain {s t : State} (hb : BuffersInv s)
    (hs : EncoderInv s ∧ s.scratch.iidx.toNat = sourceLength s) (h : encDrain s = .next t) : Inv t := by
  obtain ⟨he, hall⟩ := hs
  obtain ⟨c, hp5, hroom, rfl⟩ | ⟨hp5, rfl⟩ := encDrain_next h
  · obtain ⟨hbits, hp, -, hi, hcap⟩ := he
    have hocnt : (withOutput [c] s).scratch.ocnt.toNat = s.scratch.ocnt.toNat + 1 := withOutput_ocnt hroom
    have hinv := encoderInv_setAcc (u := withOutput [c] s) .encDrain (p := s.scratch.pend.toNat - 5)
      (show 8 * s.scratch.iidx.toNat = _ by omega) (by omega) (lowBits_lt _ s.scratch.acc (by omega)) hi hcap
    exact (inv_iff _).2 ⟨hb.withOutput [c], hinv, hall⟩
  · exact (inv_iff _).2 ⟨hb, he, hall, Nat.le_of_lt_succ hp5⟩

/-- The symbol of the bits left over is the last one of the text (rule R136). -/
theorem inv_encTail {s t : State} (hb : BuffersInv s)
    (hs : EncoderInv s ∧ s.scratch.iidx.toNat = sourceLength s ∧ s.scratch.pend.toNat ≤ 4) (h : encTail s = .next t) :
    Inv t := by
  obtain ⟨⟨hbits, -, -, -, hcap⟩, hall, hp4⟩ := hs
  have htext := textLength_eq (sourceLength s)
  obtain ⟨c, hp1, hroom, rfl⟩ | ⟨hp0, rfl⟩ := encTail_next h
  · have hocnt : (withOutput [c] s).scratch.ocnt.toNat = s.scratch.ocnt.toNat + 1 := withOutput_ocnt hroom
    have hle : (withOutput [c] s).scratch.ocnt.toNat ≤ textLength (sourceLength s) := by omega
    exact (inv_iff _).2 ⟨hb.withOutput [c], rfl, rfl, hle, hcap⟩
  · have hle : s.scratch.ocnt.toNat ≤ textLength (sourceLength s) := by omega
    exact (inv_iff _).2 ⟨hb, rfl, rfl, hle, hcap⟩

/-- The text's length is a multiple of 8, so padding does not go beyond it (rule R137). -/
theorem inv_encPad {s t : State} (hb : BuffersInv s) (hs : PaddingInv s) (h : encPad s = .next t) : Inv t := by
  obtain ⟨hm, hroom, rfl⟩ | ⟨hm, rfl⟩ := encPad_next h
  · obtain ⟨hacc, hpend, hle, hcap⟩ := hs
    have htext := textLength_eq (sourceLength s)
    have hocnt : (withOutput [padChar] s).scratch.ocnt.toNat = s.scratch.ocnt.toNat + 1 := withOutput_ocnt hroom
    have hle' : (withOutput [padChar] s).scratch.ocnt.toNat ≤ textLength (sourceLength s) := by omega
    exact (inv_iff _).2 ⟨hb.withOutput [padChar], hacc, hpend, hle', hcap⟩
  · exact (inv_iff _).2 ⟨hb, hs, hm⟩

theorem inv_encTerm {s t : State} (hb : BuffersInv s) (h : encTerm s = .next t) : Inv t := by
  obtain ⟨-, rfl⟩ := encTerm_next h
  exact inv_succeed (hb.withObuf (write_wf hb.obuf_wf _ nul)) _

/-! ## The decoder's phases -/

/-- Between two characters, and after the last. -/
theorem phaseInv_of_scanNextPhase {u : State} (hph : u.phase = scanNextPhase u) (hd : DecoderInv u)
    (hw : Written u.ibuf u.len.toNat) (hi : u.scratch.iidx.toNat ≤ u.len.toNat) : PhaseInv u := by
  unfold scanNextPhase at hph
  unfold PhaseInv
  split_ifs at hph with hlt <;> rw [hph]
  · exact ⟨hd, hw, hlt⟩
  · exact ⟨hd, Nat.le_antisymm hi (Nat.le_of_not_lt hlt)⟩

theorem decoderInv_setAcc {u : State} {a : Word} {p : Nat} (ph : Phase)
    (hbits : 5 * symbolsBelow u.ibuf u.scratch.iidx.toNat = 8 * u.scratch.ocnt.toNat + p) (hp : p ≤ 7)
    (ha : a.toNat < 2 ^ p) (hcap : u.scratch.ocnt.toNat ≤ u.cap.toNat) : DecoderInv (setAcc a p ph u) := by
  have hpend := setAcc_pend_toNat a ph u (show p < 32 by omega)
  unfold DecoderInv
  rw [hpend]
  exact ⟨hbits, hp, ha, hcap⟩

theorem inv_decInit {s t : State} (hb : BuffersInv s) (hw : Written s.ibuf s.len.toNat) (h : decInit s = .next t) :
    Inv t := by
  cases h
  exact (inv_iff _).2
    ⟨hb, phaseInv_of_scanNextPhase rfl ⟨rfl, Nat.zero_le _, Nat.one_pos, Nat.zero_le _⟩ hw (Nat.zero_le _)⟩

/-- The symbols counted after one more character. -/
theorem symbolsBelow_succ_of_read {m : Memory} {n : Nat} {c : Byte} (h : Memory.read m n = some c) :
    symbolsBelow m (n + 1) = symbolsBelow m n + (if (symbolValue c).isSome then 1 else 0) := by
  rw [symbolsBelow_succ, h]
  rfl

/-- A symbol in a state `s` in which it is counted, and its bits not yet (rules R173 and R174). -/
theorem inv_decSymbol {v : BitVec 5} {s t : State} (hb : BuffersInv s)
    (hbits : 5 * symbolsBelow s.ibuf s.scratch.iidx.toNat = 8 * s.scratch.ocnt.toNat + s.scratch.pend.toNat + 5)
    (hp : s.scratch.pend.toNat ≤ 7) (hacc : s.scratch.acc.toNat < 2 ^ s.scratch.pend.toNat)
    (hcap : s.scratch.ocnt.toNat ≤ s.cap.toNat) (hw : Written s.ibuf s.len.toNat)
    (hi : s.scratch.iidx.toNat ≤ s.len.toNat) (h : decSymbol v (scanNextPhase s) s = .next t) : Inv t := by
  obtain rfl | ⟨c, hp8, hroom, rfl⟩ | ⟨hp8, rfl⟩ := decSymbol_next h
  · exact inv_raise hb _
  · have hocnt : (withOutput [c] s).scratch.ocnt.toNat = s.scratch.ocnt.toNat + 1 := withOutput_ocnt hroom
    have hinv := decoderInv_setAcc (u := withOutput [c] s) (scanNextPhase s) (p := s.scratch.pend.toNat + 5 - 8)
      (show 5 * symbolsBelow s.ibuf s.scratch.iidx.toNat = _ by omega) (by omega)
      (lowBits_lt _ (shiftIn s.scratch.acc v) (by omega)) (show _ ≤ s.cap.toNat by omega)
    exact (inv_iff _).2 ⟨hb.withOutput [c], phaseInv_of_scanNextPhase rfl hinv hw hi⟩
  · have hinv := decoderInv_setAcc (u := s) (scanNextPhase s) (by omega) (show s.scratch.pend.toNat + 5 ≤ 7 by omega)
      (shiftLeft_or_lt v hacc (by omega)) hcap
    exact (inv_iff _).2 ⟨hb, phaseInv_of_scanNextPhase rfl hinv hw hi⟩

theorem inv_decScan {s t : State} (hb : BuffersInv s)
    (hs : DecoderInv s ∧ Written s.ibuf s.len.toNat ∧ s.scratch.iidx.toNat < s.len.toNat) (h : decScan s = .next t) :
    Inv t := by
  obtain ⟨⟨hbits, hp, hacc, hcap⟩, hw, hi⟩ := hs
  have hidx : (advanced s).scratch.iidx.toNat = s.scratch.iidx.toNat + 1 := toNat_succ_of_lt hi s.len.isLt
  obtain ⟨c, -, hread, hcase⟩ := decScan_next h
  have hcount := symbolsBelow_succ_of_read hread
  rw [← hidx] at hcount
  have hle : (advanced s).scratch.iidx.toNat ≤ s.len.toNat := by omega
  obtain ⟨-, rfl⟩ | ⟨hinv, rfl⟩ | ⟨v, hinv, hsym⟩ := hcase
  · exact inv_raise (s := advanced s) hb _
  · have hnone : symbolValue c = none := by rw [symbolValue, hinv]
    rw [hnone] at hcount
    refine (inv_iff _).2 ⟨hb, phaseInv_of_scanNextPhase rfl ⟨?_, hp, hacc, hcap⟩ hw hle⟩
    exact (congrArg (5 * ·) hcount).trans hbits
  · have hsome : symbolValue c = some v := by rw [symbolValue, hinv]
    rw [hsome, Option.isSome_some, if_pos rfl] at hcount
    refine inv_decSymbol (s := advanced s) hb ?_ hp hacc hcap hw hle hsym
    show 5 * symbolsBelow s.ibuf _ = 8 * s.scratch.ocnt.toNat + s.scratch.pend.toNat + 5
    omega

/-! ## The phases of `HMAC`, `TOTP` and `GENSEC` -/

theorem inv_hmCmd {s t : State} (hb : BuffersInv s)
    (hs : Written s.kbuf s.keyLen.toNat ∧ Written s.ibuf s.len.toNat) (h : hmCmd s = .next t) : Inv t := by
  cases h
  obtain ⟨hwk, hwi⟩ := hs
  exact (inv_iff _).2 ⟨hb, hwk, fun _ => hwi, fun hne => absurd rfl hne⟩

theorem inv_hmNorm {E : Env} {s t : State} (hb : BuffersInv s) (hs : Written s.kbuf s.keyLen.toNat ∧ MessageInv s)
    (h : hmNorm E s = .next t) : Inv t := by
  obtain ⟨block, rfl⟩ := hmNorm_next h
  obtain ⟨-, hm⟩ := hs
  exact (inv_iff _).2 ⟨hb, hm⟩

theorem inv_hmPads {s t : State} (hb : BuffersInv s) (hm : MessageInv s) (h : hmPads s = .next t) : Inv t := by
  cases h
  exact (inv_iff _).2 ⟨hb, hm⟩

theorem inv_hmInner {E : Env} {s t : State} (hb : BuffersInv s) (hm : MessageInv s) (h : hmInner E s = .next t) :
    Inv t := by
  obtain ⟨d, rfl⟩ := hmInner_next h
  exact (inv_iff _).2 ⟨hb, hm⟩

/-- A `TOTP` run goes on to the truncation with its digit count checked. -/
theorem inv_hmOuter {E : Env} {s t : State} (hb : BuffersInv s) (hm : MessageInv s) (h : hmOuter E s = .next t) :
    Inv t := by
  cases h
  refine (inv_iff _).2 ⟨hb, ?_⟩
  obtain ⟨-, hdigits⟩ := hm
  unfold PhaseInv
  by_cases hsel : s.scratch.hsel = 0#1
  · simp only [if_pos hsel]
  · simp only [if_neg hsel]
    exact hdigits hsel

theorem inv_hmDone {s t : State} (hb : BuffersInv s) (h : hmDone s = .next t) : Inv t := by
  cases h
  exact inv_succeed (s := writeDig _ s) hb _

theorem inv_toCheck {s t : State} (hb : BuffersInv s) (hs : Written s.kbuf s.keyLen.toNat ∧ s.tStep ≠ 0#64)
    (h : toCheck s = .next t) : Inv t := by
  obtain ⟨-, rfl⟩ | ⟨hd, rfl⟩ := toCheck_next h
  · exact inv_raise hb _
  · obtain ⟨hw, hz⟩ := hs
    exact (inv_iff _).2 ⟨hb, hw, hz, hd⟩

theorem inv_toCtr {s t : State} (hb : BuffersInv s)
    (hs : Written s.kbuf s.keyLen.toNat ∧ s.tStep ≠ 0#64 ∧ s.digits.toNat ≤ 8) (h : toCtr s = .next t) : Inv t := by
  obtain rfl := toCtr_next h
  obtain ⟨hw, -, hd⟩ := hs
  exact (inv_iff _).2 ⟨hb, hw, nofun, fun _ => hd⟩

theorem inv_toTrunc {s t : State} (hb : BuffersInv s) (h : toTrunc s = .next t) : Inv t := by
  obtain ⟨r, off, tv, rfl⟩ := toTrunc_next h
  exact inv_succeed (s := { s with scratch := { s.scratch with off := off, tv := tv } }) hb r

theorem inv_gsRand {E : Env} {s t : State} (hb : BuffersInv s) (h : gsRand E s = .next t) : Inv t := by
  obtain rfl | ⟨r, rfl⟩ := gsRand_next h
  · exact inv_raise (s := countDraw s) hb _
  · exact (inv_iff _).2 ⟨hb, trivial⟩

/-- The encoder starts on the 20 bytes drawn, for which 33 is room enough (rule R272). -/
theorem inv_gsCheck {s t : State} (hb : BuffersInv s) (h : gsCheck s = .next t) : Inv t := by
  obtain rfl | ⟨hroom, rfl⟩ := gsCheck_next h
  · exact inv_raise hb _
  · have hlen : sourceLength (startEncoder 1#1 s) = 20 := if_neg (by simp)
    have hcap : requiredCap (sourceLength (startEncoder 1#1 s)) ≤ s.cap.toNat := by rwa [hlen]
    have hpos : 0 < sourceLength (startEncoder 1#1 s) := by rw [hlen]; norm_num
    exact (inv_iff _).2 ⟨hb, encoderInv_startEncoder _ hcap, nofun, hpos, rfl⟩

/-! ## One step -/

theorem inv_phaseStep {s t : State} (hs : Inv s) (h : phaseStep s = .next t) : Inv t := by
  obtain ⟨hb, hp⟩ := (inv_iff s).1 hs
  unfold PhaseInv at hp
  rw [phaseStep_eq, phaseStepWith] at h
  cases hph : s.phase <;> rw [hph] at hp h
  case idle => cases h; exact hs
  case encCheck => exact inv_encCheck hb hp h
  case encAbsorb => exact inv_encAbsorb hb hp h
  case encDrain => exact inv_encDrain hb hp h
  case encTail => exact inv_encTail hb hp h
  case encPad => exact inv_encPad hb hp h
  case encTerm => exact inv_encTerm hb h
  case decInit => exact inv_decInit hb hp h
  case decScan => exact inv_decScan hb hp h
  case decEnd => cases h; exact inv_succeed (s := setAcc 0#32 0 s.phase s) hb _
  case hmCmd => exact inv_hmCmd hb hp h
  case hmNorm => exact inv_hmNorm hb hp h
  case hmPads => exact inv_hmPads hb hp h
  case hmInner => exact inv_hmInner hb hp h
  case hmOuter => exact inv_hmOuter hb hp h
  case hmDone => exact inv_hmDone hb h
  case toCheck => exact inv_toCheck hb hp h
  case toCtr => exact inv_toCtr hb hp h
  case toTrunc => exact inv_toTrunc hb h
  case gsRand => exact inv_gsRand hb h
  case gsCheck => exact inv_gsCheck hb h

/-- The invariant does not look at what the host will do. -/
theorem Inv.withHost {s : State} (h : Inv s) (host : List HostAction) : Inv { s with host := host } := h

/-- Settles O54: in `IDLE` a host action, otherwise a reset or one phase rule, each of which keeps the invariant. -/
theorem stepKeepsInvariant : Obligations.StepKeepsInvariant := by
  intro s t hs h
  obtain ⟨hb, -⟩ := (inv_iff s).1 hs
  by_cases hp : s.phase = .idle
  · cases hhost : s.host with
    | nil =>
      rw [step_idle_nothing hp hhost] at h
      cases h
      exact hs
    | cons a rest =>
      rw [step_idle_action hp hhost] at h
      exact inv_hostAct (s := { s with host := rest }) hb hp h
  · obtain ⟨rest, -, hreset⟩ | ⟨host, hphase⟩ := step_running_cases hp
    · rw [hreset] at h
      cases h
      exact inv_assertReset (s := { s with host := rest }) hb
    · rw [hphase] at h
      exact inv_phaseStep (hs.withHost host) h

end Sys2Proof.Machine

namespace Sys2Proof.Machine

/-! ## A running command goes on

In a state that meets the invariant every access a phase rule forms is in range, so the rule answers a next state. -/

/-- What goes on after an access that succeeds, whatever it gives, answers a next state. -/
theorem orFault_goesOn {α : Type} {r : Except Fault α} {k : α → Answer} (hr : ∃ a, r = .ok a)
    (hk : ∀ a, ∃ t, k a = .next t) : ∃ t, orFault r k = .next t := by
  obtain ⟨a, rfl⟩ := hr
  exact hk a

/-- The whole of an input buffer that is written can be read. -/
theorem exists_memReadAll_of_written {s : State} {b : BufferId} (h : Written (buffer s b) (bufferSize s b)) :
    ∃ v, memReadAll s b = .ok v := by
  obtain ⟨v, hv⟩ := exists_readRange_of_written h
  obtain ⟨hlen, hholds⟩ := (readRange_eq_some_iff ..).1 hv
  exact ⟨v, (memReadAll_eq_ok_iff s b v).2 ⟨hlen.symm, hholds⟩⟩

/-- An octet before the end of the encoder's input can be read (rule R45). -/
theorem exists_sourceRead {s : State} (hw : SourceWritten s) (hi : s.scratch.iidx.toNat < sourceLength s) :
    ∃ o, sourceRead s = .ok o := by
  unfold sourceLength at hi
  unfold sourceRead
  by_cases hsel : s.scratch.esel = 0#1
  · rw [if_pos hsel] at hi ⊢
    obtain ⟨o, -, ho⟩ := memRead_of_written (s := s) (b := .ibuf) (hw hsel) hi
    exact ⟨o, ho⟩
  · rw [if_neg hsel] at hi ⊢
    exact ⟨_, dif_pos hi⟩

/-- The message can be read, from `IBUF` or from `CTR` (rule R46). -/
theorem exists_message {s : State} (hm : MessageInv s) : ∃ msg, message s = .ok msg := by
  obtain ⟨hw, -⟩ := hm
  unfold message
  by_cases hsel : s.scratch.hsel = 0#1
  · rw [if_pos hsel]
    exact exists_memReadAll_of_written (b := .ibuf) (hw hsel)
  · rw [if_neg hsel]
    exact ⟨_, rfl⟩

/-- Symbols that begin within the `8n` bits of the input leave room for the terminator (rule R131). -/
theorem symbols_lt_requiredCap {n q : Nat} (h : 5 * q ≤ 8 * n + 4) : q < requiredCap n := by
  rw [requiredCap_eq]
  omega

theorem encCheck_goesOn (s : State) : ∃ t, encCheck s = .next t := by
  unfold encCheck
  simp only
  split_ifs <;> exact ⟨_, rfl⟩

/-- A window of 25 bits is five symbols, all of them within the input's bits (rule R134). -/
theorem encAbsorb_goesOn {s : State} (he : EncoderInv s) (hw : SourceWritten s)
    (hi : s.scratch.iidx.toNat < sourceLength s) : ∃ t, encAbsorb s = .next t := by
  obtain ⟨hbits, -, -, -, hcap⟩ := he
  rw [encAbsorb_eq]
  refine orFault_goesOn (exists_sourceRead hw hi) fun o => ?_
  split_ifs with hwin
  · have hroom : s.scratch.ocnt.toNat + 5 < requiredCap (sourceLength s) := symbols_lt_requiredCap (by omega)
    exact orFault_goesOn ⟨_, emitSyms_ok _ (advanced s) (hroom.trans_le hcap).le⟩ fun _ => ⟨_, rfl⟩
  · exact ⟨_, rfl⟩

/-- In the encoder phases there is room for one more byte. -/
theorem EncoderInv.ocnt_lt_cap {s : State} (h : EncoderInv s) : s.scratch.ocnt.toNat < s.cap.toNat := by
  obtain ⟨hbits, -, -, hi, hcap⟩ := h
  exact (symbols_lt_requiredCap (by omega)).trans_le hcap

theorem encDrain_goesOn {s : State} (he : EncoderInv s) : ∃ t, encDrain s = .next t := by
  unfold encDrain
  split_ifs
  · exact orFault_goesOn ⟨_, putByte_ok he.ocnt_lt_cap _⟩ fun _ => ⟨_, rfl⟩
  · exact ⟨_, rfl⟩

theorem encTail_goesOn {s : State} (he : EncoderInv s) : ∃ t, encTail s = .next t := by
  unfold encTail
  split_ifs
  · exact orFault_goesOn ⟨_, putByte_ok he.ocnt_lt_cap _⟩ fun _ => ⟨_, rfl⟩
  · exact ⟨_, rfl⟩

/-- Up to the end of the text there is room for one more byte: the text's terminator, at the latest. -/
theorem PaddingInv.ocnt_lt_cap {s : State} (h : PaddingInv s) : s.scratch.ocnt.toNat < s.cap.toNat := by
  obtain ⟨-, -, hle, hcap⟩ := h
  exact (Nat.lt_succ_of_le hle).trans_le hcap

theorem encPad_goesOn {s : State} (hs : PaddingInv s) : ∃ t, encPad s = .next t := by
  unfold encPad
  split_ifs
  · exact orFault_goesOn ⟨_, putByte_ok hs.ocnt_lt_cap padChar⟩ fun _ => ⟨_, rfl⟩
  · exact ⟨_, rfl⟩

theorem encTerm_goesOn {s : State} (hs : PaddingInv s) : ∃ t, encTerm s = .next t :=
  orFault_goesOn ⟨_, memWriteObuf_ok hs.ocnt_lt_cap nul⟩ fun _ => ⟨_, rfl⟩

/-- In every state: a symbol beyond the capacity is a failure, not a fault (rule R177). -/
theorem decSymbol_goesOn (v : BitVec 5) (ph : Phase) (s : State) : ∃ t, decSymbol v ph s = .next t := by
  unfold decSymbol
  simp only
  split_ifs with hp hcap
  · exact ⟨_, rfl⟩
  · exact orFault_goesOn ⟨_, memWriteObuf_ok (Nat.lt_of_not_le hcap) _⟩ fun _ => ⟨_, rfl⟩
  · exact ⟨_, rfl⟩

theorem decScan_goesOn {s : State} (hw : Written s.ibuf s.len.toNat) (hi : s.scratch.iidx.toNat < s.len.toNat) :
    ∃ t, decScan s = .next t := by
  obtain ⟨c, -, hc⟩ := memRead_of_written (s := s) (b := .ibuf) hw hi
  refine orFault_goesOn ⟨c, hc⟩ fun c => ?_
  simp only
  cases inv c with
  | invalid => exact ⟨_, rfl⟩
  | padding => exact ⟨_, rfl⟩
  | symbol v => exact decSymbol_goesOn ..

theorem hmNorm_goesOn (E : Env) {s : State} (hw : Written s.kbuf s.keyLen.toNat) : ∃ t, hmNorm E s = .next t :=
  orFault_goesOn (exists_memReadAll_of_written (b := .kbuf) hw) fun _ => ⟨_, rfl⟩

theorem hmInner_goesOn (E : Env) {s : State} (hm : MessageInv s) : ∃ t, hmInner E s = .next t :=
  orFault_goesOn (exists_message hm) fun _ => ⟨_, rfl⟩

theorem toCheck_goesOn (s : State) : ∃ t, toCheck s = .next t := by
  unfold toCheck
  split_ifs <;> exact ⟨_, rfl⟩

theorem toCtr_goesOn {s : State} (hz : s.tStep ≠ 0#64) : ∃ t, toCtr s = .next t :=
  ⟨_, if_neg hz⟩

/-- The digit count names an entry of `POW10` (rule R101). -/
theorem toTrunc_goesOn {s : State} (hd : s.digits.toNat ≤ 8) : ∃ t, toTrunc s = .next t := by
  obtain ⟨m, hm, -⟩ := pow10_of_le hd
  unfold toTrunc
  simp only [hm]
  exact ⟨_, rfl⟩

theorem gsRand_goesOn (E : Env) (s : State) : ∃ t, gsRand E s = .next t := by
  unfold gsRand
  simp only
  split <;> exact ⟨_, rfl⟩

theorem gsCheck_goesOn (s : State) : ∃ t, gsCheck s = .next t := by
  unfold gsCheck
  split_ifs <;> exact ⟨_, rfl⟩

/-- Each phase's part of the invariant is what its rule needs to go on. -/
theorem phaseStep_goesOn {s : State} (hs : PhaseInv s) : ∃ t, phaseStep s = .next t := by
  unfold PhaseInv at hs
  rw [phaseStep_eq, phaseStepWith]
  cases hph : s.phase <;> rw [hph] at hs
  case encCheck => exact encCheck_goesOn s
  case encAbsorb =>
    obtain ⟨he, hw, hi, -⟩ := hs
    exact encAbsorb_goesOn he hw hi
  case encDrain =>
    obtain ⟨he, -⟩ := hs
    exact encDrain_goesOn he
  case encTail =>
    obtain ⟨he, -⟩ := hs
    exact encTail_goesOn he
  case encPad => exact encPad_goesOn hs
  case encTerm =>
    obtain ⟨hpad, -⟩ := hs
    exact encTerm_goesOn hpad
  case decScan =>
    obtain ⟨-, hw, hi⟩ := hs
    exact decScan_goesOn hw hi
  case hmNorm =>
    obtain ⟨hw, -⟩ := hs
    exact hmNorm_goesOn _ hw
  case hmInner => exact hmInner_goesOn _ hs
  case toCheck => exact toCheck_goesOn s
  case toCtr =>
    obtain ⟨-, hz, -⟩ := hs
    exact toCtr_goesOn hz
  case toTrunc => exact toTrunc_goesOn hs
  case gsRand => exact gsRand_goesOn _ s
  case gsCheck => exact gsCheck_goesOn s
  case idle | decInit | decEnd | hmCmd | hmPads | hmOuter | hmDone => exact ⟨_, rfl⟩

/-- Settles O55: a running step is a reset, which always answers, or a phase rule whose needs the invariant meets. -/
theorem runningNeverStops : Obligations.RunningNeverStops := by
  intro s hs hp
  obtain ⟨-, hphase⟩ := (inv_iff s).1 hs
  obtain ⟨rest, -, hreset⟩ | ⟨host, hstep⟩ := step_running_cases hp
  · exact ⟨_, hreset⟩
  · rw [hstep]
    exact phaseStep_goesOn (s := { s with host := host }) hphase

end Sys2Proof.Machine

namespace Sys2Proof.Machine

/-! ## What a command stores to `OBUF` -/

/-- The index from which a successful command writes nothing, `r` being its `RESULT`: the encoded text has a NUL after
it, the decoded bytes have none, and `TOTP` and `HMAC` write nothing (rule R80). -/
def outputEnd (i : Instr) (r : Word) : Nat :=
  match i with
  | .b32enc => r.toNat + 1
  | .b32dec => r.toNat
  | .totp => 0
  | .hmac => 0
  | .gensec => r.toNat + 1

/-- From `s` to `t` the command `i` succeeds and stores its output, which fits, or fails and stores below `CAP`. -/
def StoresWithin (i : Instr) (s t : State) : Prop :=
  (t.err = 0#3 ∧ outputEnd i t.result ≤ s.cap.toNat ∧ SameFrom (outputEnd i t.result) s.obuf t.obuf)
    ∨ (t.err ≠ 0#3 ∧ SameFrom s.cap.toNat s.obuf t.obuf)

theorem StoresWithin.sameFrom_cap {i : Instr} {s t : State} (h : StoresWithin i s t) :
    SameFrom s.cap.toNat s.obuf t.obuf := by
  obtain ⟨-, hfits, hsame⟩ | ⟨-, hsame⟩ := h
  · exact hsame.mono hfits
  · exact hsame

theorem StoresWithin.sameFrom_outputEnd {i : Instr} {s t : State} (h : StoresWithin i s t) (he : t.err = 0#3) :
    SameFrom (outputEnd i t.result) s.obuf t.obuf := by
  obtain ⟨-, -, hsame⟩ | ⟨hne, -⟩ := h
  · exact hsame
  · exact absurd he hne

theorem storesWithin_raise (i : Instr) (v : ErrorVariant) (s : State) : StoresWithin i s (raise v s) :=
  .inr ⟨raise_err_ne_zero v s, raise_sameFrom v s⟩

/-- The text and its NUL, for a command that ends with an encode. -/
theorem storesWithin_encodeSucceeds {i : Instr} (hi : ∀ r, outputEnd i r = r.toNat + 1) {b : List Byte} {s : State}
    (hmax : b.length ≤ Config.lenMax) (hroom : requiredCap b.length ≤ s.cap.toNat) :
    StoresWithin i s (encodeSucceeds b s) := by
  obtain ⟨hresult, -, hsame⟩ := encodeSucceeds_spec s hmax
  rw [← hresult] at hsame
  rw [requiredCap_eq, ← hresult] at hroom
  rw [StoresWithin, hi]
  exact .inl ⟨rfl, hroom, hsame⟩

/-- With no invalid character, and no symbol beyond the capacity before the first one, the whole decoded text fits. -/
theorem dec_length_le_of_fits {text : List Byte} {cap : Nat} (hcap : capacityExceeded text cap = false)
    (hinv : ¬ firstInvalid text < text.length) : (dec text).length ≤ cap := by
  have hfirst : firstInvalid text = text.length := Nat.le_antisymm (firstInvalid_le text) (Nat.le_of_not_lt hinv)
  have hiff := capacityExceeded_iff text cap
  rw [hcap, hfirst, List.take_length, ← dec_length] at hiff
  exact Nat.le_of_not_lt fun hlt => nomatch hiff.2 hlt

/-- The decoded bytes, and no terminator. -/
theorem storesWithin_decodedState {text : List Byte} {s : State} (hmax : text.length ≤ Config.lenMax)
    (hfits : (dec text).length ≤ s.cap.toNat) : StoresWithin .b32dec s (decodedState text s) := by
  have hend : outputEnd .b32dec (decodedState text s).result = (dec text).length :=
    (decodedState_result s hmax).trans (dec_length text).symm
  rw [StoresWithin, hend]
  exact .inl ⟨rfl, hfits, sameFrom_writeFrom s.obuf (dec text)⟩

/-- Every command stores within its output, and within `CAP`. -/
theorem storesWithin_exec {i : Instr} {s t : State} (h : exec i s = .next t) : StoresWithin i s t := by
  cases i with
  | b32enc =>
    obtain ⟨b, ⟨-, -, -, hmax, -⟩, rfl⟩ := exec_b32enc_next h
    obtain ⟨-, ht⟩ | ⟨hroom, ht⟩ := encodeEffect_cases b s <;> rw [ht]
    · exact storesWithin_raise ..
    · exact storesWithin_encodeSucceeds (fun _ => rfl) hmax hroom
  | b32dec =>
    obtain ⟨text, ⟨-, -, -, hmax, -⟩, rfl⟩ := exec_b32dec_next h
    obtain ⟨-, ht⟩ | ⟨-, -, ht⟩ | ⟨hcap, hinv, ht⟩ := decodeEffect_cases text s <;> rw [ht]
    · exact storesWithin_raise ..
    · exact storesWithin_raise ..
    · exact storesWithin_decodedState hmax (dec_length_le_of_fits hcap hinv)
  | totp =>
    obtain ⟨key, -, rfl⟩ := exec_totp_next h
    obtain ⟨-, ht⟩ | ⟨-, ht⟩ := totpEffect_cases Config.hash key s <;> rw [ht]
    · exact storesWithin_raise ..
    · exact .inl ⟨rfl, Nat.zero_le _, SameFrom.refl _ _⟩
  | hmac =>
    obtain ⟨key, msg, -, rfl⟩ := exec_hmac_next h
    exact .inl ⟨rfl, Nat.zero_le _, SameFrom.refl _ _⟩
  | gensec =>
    obtain ⟨-, rfl⟩ := exec_gensec_next h
    obtain ⟨-, ht⟩ | ⟨r, -, -, ht⟩ | ⟨r, -, hroom, ht⟩ := secretEffect_cases (Config.rand s.draws) (countDraw s) <;>
      rw [ht]
    · exact storesWithin_raise _ _ (countDraw s)
    · exact storesWithin_raise _ _ (countDraw s)
    · have hlen : r.toList.length = 20 := Vector.length_toList
      exact storesWithin_encodeSucceeds (s := countDraw s) (fun _ => rfl) (by rw [hlen]; decide) (by rwa [hlen])

/-- Settles O39: every command stores within its output, and `HMAC` and `TOTP` leave `OBUF`. -/
theorem outputBufferFrame : Obligations.OutputBufferFrame := by
  intro i s t h
  have hstores := storesWithin_exec h
  obtain ⟨-, hkept, -⟩ := commandFrame i s t h
  refine ⟨fun he => ?_, fun _ => hstores.sameFrom_cap⟩
  cases i with
  | b32enc => exact hstores.sameFrom_outputEnd he
  | b32dec => exact hstores.sameFrom_outputEnd he
  | totp => exact hkept (.inr rfl)
  | hmac => exact hkept (.inl rfl)
  | gensec => exact hstores.sameFrom_outputEnd he

/-! ## What a phase rule stores to `OBUF` -/

theorem encCheck_sameFrom {s t : State} (h : encCheck s = .next t) : SameFrom s.cap.toNat s.obuf t.obuf := by
  obtain rfl | ⟨-, rfl⟩ := encCheck_next h
  · exact raise_sameFrom _ s
  · exact SameFrom.refl _ _

theorem encAbsorb_sameFrom {s t : State} (h : encAbsorb s = .next t) : SameFrom s.cap.toNat s.obuf t.obuf := by
  obtain ⟨o, ⟨-, rfl⟩ | ⟨bytes, -, -, hroom, rfl⟩⟩ := encAbsorb_next h
  · exact SameFrom.refl _ _
  · exact withOutput_sameFrom (s := advanced s) (.inr hroom)

theorem encDrain_sameFrom {s t : State} (h : encDrain s = .next t) : SameFrom s.cap.toNat s.obuf t.obuf := by
  obtain ⟨c, -, hroom, rfl⟩ | ⟨-, rfl⟩ := encDrain_next h
  · exact sameFrom_write s.obuf c hroom
  · exact SameFrom.refl _ _

theorem encTail_sameFrom {s t : State} (h : encTail s = .next t) : SameFrom s.cap.toNat s.obuf t.obuf := by
  obtain ⟨c, -, hroom, rfl⟩ | ⟨-, rfl⟩ := encTail_next h
  · exact sameFrom_write s.obuf c hroom
  · exact SameFrom.refl _ _

theorem encPad_sameFrom {s t : State} (h : encPad s = .next t) : SameFrom s.cap.toNat s.obuf t.obuf := by
  obtain ⟨-, hroom, rfl⟩ | ⟨-, rfl⟩ := encPad_next h
  · exact sameFrom_write s.obuf padChar hroom
  · exact SameFrom.refl _ _

theorem encTerm_sameFrom {s t : State} (h : encTerm s = .next t) : SameFrom s.cap.toNat s.obuf t.obuf := by
  obtain ⟨hroom, rfl⟩ := encTerm_next h
  exact sameFrom_write s.obuf nul hroom

theorem decSymbol_sameFrom {v : BitVec 5} {ph : Phase} {s t : State} (h : decSymbol v ph s = .next t) :
    SameFrom s.cap.toNat s.obuf t.obuf := by
  obtain rfl | ⟨c, -, hroom, rfl⟩ | ⟨-, rfl⟩ := decSymbol_next h
  · exact raise_sameFrom _ s
  · exact sameFrom_write s.obuf c hroom
  · exact SameFrom.refl _ _

theorem decScan_sameFrom {s t : State} (h : decScan s = .next t) : SameFrom s.cap.toNat s.obuf t.obuf := by
  obtain ⟨c, -, -, ⟨-, rfl⟩ | ⟨-, rfl⟩ | ⟨v, -, hsym⟩⟩ := decScan_next h
  · exact raise_sameFrom _ (advanced s)
  · exact SameFrom.refl _ _
  · exact decSymbol_sameFrom (s := advanced s) hsym

theorem toCheck_sameFrom {s t : State} (h : toCheck s = .next t) : SameFrom s.cap.toNat s.obuf t.obuf := by
  obtain ⟨-, rfl⟩ | ⟨-, rfl⟩ := toCheck_next h
  · exact raise_sameFrom _ s
  · exact SameFrom.refl _ _

theorem gsRand_sameFrom {E : Env} {s t : State} (h : gsRand E s = .next t) : SameFrom s.cap.toNat s.obuf t.obuf := by
  obtain rfl | ⟨r, rfl⟩ := gsRand_next h
  · exact raise_sameFrom _ (countDraw s)
  · exact SameFrom.refl _ _

theorem gsCheck_sameFrom {s t : State} (h : gsCheck s = .next t) : SameFrom s.cap.toNat s.obuf t.obuf := by
  obtain rfl | ⟨-, rfl⟩ := gsCheck_next h
  · exact raise_sameFrom _ s
  · exact SameFrom.refl _ _

/-- In every state a phase rule that answers stored below `CAP`; those of the HMAC phases, `TO_CTR`, `TO_TRUNC`,
`DEC_INIT` and `DEC_END` store nothing. -/
theorem phaseStep_sameFrom {s t : State} (h : phaseStep s = .next t) : SameFrom s.cap.toNat s.obuf t.obuf := by
  rw [phaseStep_eq, phaseStepWith] at h
  cases hph : s.phase <;> rw [hph] at h
  case encCheck => exact encCheck_sameFrom h
  case encAbsorb => exact encAbsorb_sameFrom h
  case encDrain => exact encDrain_sameFrom h
  case encTail => exact encTail_sameFrom h
  case encPad => exact encPad_sameFrom h
  case encTerm => exact encTerm_sameFrom h
  case decScan => exact decScan_sameFrom h
  case hmNorm =>
    obtain ⟨block, rfl⟩ := hmNorm_next h
    exact SameFrom.refl _ _
  case hmInner =>
    obtain ⟨d, rfl⟩ := hmInner_next h
    exact SameFrom.refl _ _
  case toCheck => exact toCheck_sameFrom h
  case toCtr =>
    obtain rfl := toCtr_next h
    exact SameFrom.refl _ _
  case toTrunc =>
    obtain ⟨r, off, tv, rfl⟩ := toTrunc_next h
    exact SameFrom.refl _ _
  case gsRand => exact gsRand_sameFrom h
  case gsCheck => exact gsCheck_sameFrom h
  case idle | decInit | decEnd | hmCmd | hmPads | hmOuter | hmDone =>
    cases h
    exact SameFrom.refl _ _

/-- Settles O40: a command stores within `CAP`, and so does a phase rule. -/
theorem capacityRule : Obligations.CapacityRule :=
  ⟨fun _ _ _ h => (storesWithin_exec h).sameFrom_cap, fun _ _ h => phaseStep_sameFrom h⟩

end Sys2Proof.Machine

namespace Sys2Proof.Machine

/-! ## Overlapping regions, the host's reads, and single bytes -/

/-- Under a binding into one memory the three buffers overlap exactly when the regions of some two of them meet. -/
theorem buffersOverlap_mapped_iff (s : State) (x y z : Nat) :
    buffersOverlap (.mapped x y z) s allBuffers = true
      ↔ regionsMeet x s.len.toNat y s.keyLen.toNat = true ∨ regionsMeet x s.len.toNat z s.cap.toNat = true
        ∨ regionsMeet y s.keyLen.toNat z s.cap.toNat = true := by
  simp [buffersOverlap, allBuffers, regionBase, bufferSize, or_assoc]

/-- Settles O45: a common address makes two regions meet, and overlapping regions refuse every start. -/
theorem overlapRefused : Obligations.OverlapRefused := by
  intro E s x y z a b hE hcommon
  have hoverlap : buffersOverlap E.binding s allBuffers = true := by
    rw [hE, buffersOverlap_mapped_iff]
    obtain ⟨ha, hb, heq⟩ | ⟨ha, hb, heq⟩ | ⟨ha, hb, heq⟩ := hcommon
    · exact .inr (.inl ((regionsMeet_iff ..).2 ⟨a, ha, b, hb, heq⟩))
    · exact .inl ((regionsMeet_iff ..).2 ⟨a, ha, b, hb, heq⟩)
    · exact .inr (.inr ((regionsMeet_iff ..).2 ⟨a, ha, b, hb, heq⟩))
  exact ⟨started_overlapping hoverlap .b32enc _, started_overlapping hoverlap .b32dec _,
    started_overlapping hoverlap .totp _, started_overlapping hoverlap .hmac _, started_overlapping hoverlap .gensec _⟩

/-- `RDB OBUF, n` over written bytes reports them. -/
theorem hostReadObuf_of_holdsFrom {s : State} {b : List Byte} (h : HoldsFrom s.obuf 0 b) :
    hostReadObuf b.length s = .next (observe (.obuf b) s) := by
  unfold hostReadObuf
  rw [(readRange_eq_some_iff ..).2 ⟨rfl, h⟩]

/-- `RDB OBUF, n` over a byte nothing has written is refused (rule R337). -/
theorem hostReadObuf_of_unwritten {s : State} {a n : Nat} (ha : a < n) (h : Memory.read s.obuf a = none) :
    hostReadObuf n s = .refused (.unwrittenByte .obuf) := by
  unfold hostReadObuf
  cases hr : Memory.readRange s.obuf 0 n with
  | none => rfl
  | some b =>
    have hw := written_of_readRange hr a ha
    rw [h] at hw
    cases hw

theorem hostReadDig_of_le {n : Nat} (h : n ≤ 20) (s : State) :
    hostReadDig n s = .next (observe (.dig (reported s.given.dig (s.dig.toList.take n))) s) :=
  if_pos h

/-- Settles O58: in `IDLE` the step is the read, whose report depends on what was given a value or written. -/
theorem hostReadsReport : Obligations.HostReadsReport := by
  intro s rest n b hp
  refine ⟨fun hh => ?_, fun hh => ?_, fun hh => ?_, fun hh hn => ?_⟩ <;> rw [step_idle_action hp hh]
  · exact ⟨fun hg => by simp [hostAct, isGiven, hg, observe], fun hg => by simp [hostAct, isGiven, hg, observe]⟩
  · exact ⟨fun hg => by simp [hostAct, isGiven, hg, observe], fun hg => by simp [hostAct, isGiven, hg, observe]⟩
  · refine ⟨fun hlen hb => ?_, fun ⟨a, ha, hnone⟩ => ?_⟩
    · subst hlen
      exact hostReadObuf_of_holdsFrom (s := { s with host := rest }) hb
    · exact hostReadObuf_of_unwritten (s := { s with host := rest }) ha hnone
  · refine ⟨fun hg => ?_, fun hg => ?_⟩
    · exact (hostReadDig_of_le hn _).trans (by simp [hg, observe])
    · exact (hostReadDig_of_le hn _).trans (by simp [hg, observe])

/-- Settles O60: the laws of one byte written. -/
theorem bytePrimitives : Obligations.BytePrimitives :=
  fun m i v => ⟨read_write_same m i v, fun _ hj => read_write_other m v hj, fun hm => write_wf hm i v⟩

end Sys2Proof.Machine

namespace Sys2Proof.Machine

/-! ## What a command leaves in `RESULT` and `ERR` -/

/-- The variants a command can fail with (rule R102). -/
def failures : Instr → List ErrorVariant
  | .b32enc => [.bufferTooSmall]
  | .b32dec => [.invalidCharacter, .bufferTooSmall]
  | .totp => [.invalidDigitCount]
  | .hmac => []
  | .gensec => [.bufferTooSmall, .randomSourceFailure]

/-- `r` is a value of `RESULT` after a success of the command `i` started in `s` (rule R103). -/
def ResultOnSuccess (i : Instr) (s : State) (r : Word) : Prop :=
  match i with
  | .b32enc => r.toNat = 8 * ((s.len.toNat + 4) / 5) ∧ r.toNat + 1 ≤ s.cap.toNat
  | .b32dec => r.toNat ≤ s.cap.toNat
  | .totp => r.toNat ≤ 10 ^ s.digits.toNat - 1
  | .hmac => r = 20#32
  | .gensec => r = 32#32

/-- The command `i` has failed with the variant `v`. -/
def FailsWith (i : Instr) (v : ErrorVariant) (t : State) : Prop :=
  v ∈ failures i ∧ t.err = errorCode v ∧ t.result = 0xFFFFFFFF#32

/-- The command `i`, started in `s`, has succeeded; its result is below the sentinel's bit 31. -/
def SucceedsFrom (i : Instr) (s t : State) : Prop :=
  t.err = 0#3 ∧ ResultOnSuccess i s t.result ∧ t.result.toNat < 2 ^ 31

theorem failsWith_raise {i : Instr} {v : ErrorVariant} (h : v ∈ failures i) (s : State) :
    FailsWith i v (raise v s) :=
  ⟨h, rfl, rfl⟩

theorem FailsWith.err_ne_zero {i : Instr} {v : ErrorVariant} {t : State} (h : FailsWith i v t) : t.err ≠ 0#3 := by
  obtain ⟨-, herr, -⟩ := h
  rw [herr]
  exact errorCode_ne_zero v

theorem lenMax_lt : Config.lenMax < 2 ^ 31 := by decide

theorem succeedsFrom_encodeSucceeds {s : State} {b : List Byte} (hb : InputReady s b)
    (hroom : requiredCap b.length ≤ s.cap.toNat) : SucceedsFrom .b32enc s (encodeSucceeds b s) := by
  obtain ⟨-, hlen, -, hmax, hcap, -⟩ := hb
  obtain ⟨hresult, -⟩ := encodeSucceeds_spec s hmax
  have hlt := lenMax_lt
  rw [requiredCap_eq] at hroom
  refine ⟨rfl, ⟨by rw [hresult, hlen], by omega⟩, by omega⟩

theorem succeedsFrom_decodedState {s : State} {text : List Byte} (htext : InputReady s text)
    (hfits : (dec text).length ≤ s.cap.toNat) : SucceedsFrom .b32dec s (decodedState text s) := by
  obtain ⟨-, -, -, hmax, hcap, -⟩ := htext
  have hresult : (decodedState text s).result.toNat = (dec text).length :=
    (decodedState_result s hmax).trans (dec_length text).symm
  have hlt := lenMax_lt
  rw [← hresult] at hfits
  exact ⟨rfl, hfits, by omega⟩

/-- A code of at most eight digits is below 2^31, so that `RESULT` holds it unreduced. -/
theorem succeedsFrom_code (hash : List Byte → Digest) (key : List Byte) {s : State} (hd : s.digits.toNat ≤ 8) :
    SucceedsFrom .totp s
      (succeed (BitVec.ofNat 32 (code hash key s.time.toNat s.tStep.toNat s.digits.toNat)) s) := by
  have hcode := code_lt hash key s.time.toNat s.tStep.toNat s.digits.toNat
  have hpow : 10 ^ s.digits.toNat ≤ 10 ^ 8 := Nat.pow_le_pow_right (by norm_num) hd
  have hresult : (BitVec.ofNat 32 (code hash key s.time.toNat s.tStep.toNat s.digits.toNat)).toNat
      = code hash key s.time.toNat s.tStep.toNat s.digits.toNat := Nat.mod_eq_of_lt (by omega)
  refine ⟨rfl, ?_, ?_⟩
  · show (BitVec.ofNat 32 _).toNat ≤ _
    omega
  · show (BitVec.ofNat 32 _).toNat < _
    omega

theorem succeedsFrom_secret (r : Vector Byte 20) (s : State) :
    SucceedsFrom .gensec s (encodeSucceeds r.toList (countDraw s)) := by
  have hresult : (encodeSucceeds r.toList (countDraw s)).result = 32#32 := by
    rw [encodeSucceeds_result, enc_length, Vector.length_toList]
    rfl
  refine ⟨rfl, hresult, ?_⟩
  rw [hresult]
  decide

/-- A command that completes has failed with one of its variants, or has succeeded with a value in its range. -/
theorem exec_outcome {i : Instr} {s t : State} (h : exec i s = .next t) :
    (∃ v, FailsWith i v t) ∨ SucceedsFrom i s t := by
  cases i with
  | b32enc =>
    obtain ⟨b, hb, rfl⟩ := exec_b32enc_next h
    obtain ⟨-, ht⟩ | ⟨hroom, ht⟩ := encodeEffect_cases b s <;> rw [ht]
    · exact .inl ⟨_, failsWith_raise (by decide) s⟩
    · exact .inr (succeedsFrom_encodeSucceeds hb hroom)
  | b32dec =>
    obtain ⟨text, htext, rfl⟩ := exec_b32dec_next h
    obtain ⟨-, ht⟩ | ⟨-, -, ht⟩ | ⟨hcap, hinv, ht⟩ := decodeEffect_cases text s <;> rw [ht]
    · exact .inl ⟨_, failsWith_raise (by decide) s⟩
    · exact .inl ⟨_, failsWith_raise (by decide) s⟩
    · exact .inr (succeedsFrom_decodedState htext (dec_length_le_of_fits hcap hinv))
  | totp =>
    obtain ⟨key, -, rfl⟩ := exec_totp_next h
    obtain ⟨-, ht⟩ | ⟨hd, ht⟩ := totpEffect_cases Config.hash key s <;> rw [ht]
    · exact .inl ⟨_, failsWith_raise (by decide) s⟩
    · exact .inr (succeedsFrom_code Config.hash key hd)
  | hmac =>
    obtain ⟨key, msg, -, rfl⟩ := exec_hmac_next h
    exact .inr ⟨rfl, rfl, by rw [hmacEffect_result]; decide⟩
  | gensec =>
    obtain ⟨-, rfl⟩ := exec_gensec_next h
    obtain ⟨-, ht⟩ | ⟨r, -, -, ht⟩ | ⟨r, -, -, ht⟩ := secretEffect_cases (Config.rand s.draws) (countDraw s) <;>
      rw [ht]
    · exact .inl ⟨_, failsWith_raise (by decide) (countDraw s)⟩
    · exact .inl ⟨_, failsWith_raise (by decide) (countDraw s)⟩
    · exact .inr (succeedsFrom_secret r s)

theorem result_ne_sentinel_of_lt {r : Word} (h : r.toNat < 2 ^ 31) : r ≠ 0xFFFFFFFF#32 := by
  rintro rfl
  exact absurd h (by decide)

/-- `ERR` is not 0 exactly when `RESULT` is the sentinel (rule R32). -/
theorem exec_err_ne_zero_iff {i : Instr} {s t : State} (h : exec i s = .next t) :
    t.err ≠ 0#3 ↔ t.result = 0xFFFFFFFF#32 := by
  obtain ⟨v, hfail⟩ | ⟨herr, -, hlt⟩ := exec_outcome h
  · obtain ⟨-, -, hresult⟩ := id hfail
    exact iff_of_true hfail.err_ne_zero hresult
  · exact iff_of_false (not_not.2 herr) (result_ne_sentinel_of_lt hlt)

/-- `ERR` is 0 or the code of a variant the command can fail with. -/
theorem exec_err_mem {i : Instr} {s t : State} (h : exec i s = .next t) :
    t.err ∈ 0#3 :: (failures i).map errorCode := by
  obtain ⟨v, hv, herr, -⟩ | ⟨herr, -⟩ := exec_outcome h <;> rw [herr]
  · exact List.mem_cons_of_mem _ (List.mem_map_of_mem hv)
  · exact List.mem_cons_self

/-- Settles O36: 0 and the codes of the variants each command can fail with, listed. -/
theorem errorCodesByCommand : Obligations.ErrorCodesByCommand := by
  intro i s t h
  refine ⟨?_, exec_err_ne_zero_iff h⟩
  have hmem := exec_err_mem h
  cases i <;> simpa [failures, errorCode] using hmem

/-- Settles O37: the sentinel has bit 31 set, and no value of a success has. -/
theorem resultValues : Obligations.ResultValues := by
  intro i s t h
  refine ⟨(exec_err_ne_zero_iff h).1, ?_, fun he => ?_⟩
  · rw [exec_err_ne_zero_iff h]
    obtain ⟨v, -, -, hresult⟩ | ⟨-, -, hlt⟩ := exec_outcome h
    · simp [hresult]
    · refine iff_of_false ?_ (result_ne_sentinel_of_lt hlt)
      rw [BitVec.getLsbD, Nat.testBit_lt_two_pow hlt]
      decide
  · obtain ⟨v, hfail⟩ | ⟨-, hrange, -⟩ := exec_outcome h
    · exact absurd he hfail.err_ne_zero
    · cases i <;> exact hrange

end Sys2Proof.Machine

namespace Sys2Proof.Machine

/-! ## Command words -/

/-- What a lookup finds is a row of the table. -/
theorem mem_of_lookupOpcode {op : Byte} {rows : List (Byte × Instr)} {i : Instr}
    (h : lookupOpcode op rows = some i) : (op, i) ∈ rows := by
  induction rows with
  | nil => cases h
  | cons row rows ih =>
    obtain ⟨c, j⟩ := row
    unfold lookupOpcode at h
    split_ifs at h with hop
    · obtain rfl : c = op := hop
      obtain rfl : j = i := Option.some.inj h
      exact List.mem_cons_self
    · exact List.mem_cons_of_mem _ (ih h)

/-- The code of each row is its command's, and a well-formed command word. -/
theorem opcodeTable_row : ∀ row ∈ opcodeTable, row.1 = encode row.2 ∧ commandWordWf row.1 = true := by
  decide

/-- The decoder names the command of a row of the table whose code is the word, or finds the word reserved. -/
theorem decode_cons_cases (op : Byte) (rest : List Byte) :
    (∃ i, (op, i) ∈ opcodeTable ∧ decode (op :: rest) = .command i rest)
      ∨ decode (op :: rest) = .reservedCode op := by
  simp only [decode]
  cases hlook : lookupOpcode op opcodeTable with
  | some i => exact .inl ⟨i, mem_of_lookupOpcode hlook, rfl⟩
  | none => exact .inr rfl

/-- A word that decodes to a command is its code, and what follows is left. -/
theorem decode_eq_command {op : Byte} {rest tail : List Byte} {i : Instr}
    (h : decode (op :: rest) = .command i tail) : op = encode i ∧ tail = rest := by
  obtain ⟨j, hrow, hdec⟩ | hdec := decode_cons_cases op rest <;> rw [hdec] at h <;> cases h
  exact ⟨(opcodeTable_row _ hrow).1, rfl⟩

theorem decode_encode (i : Instr) (rest : List Byte) : decode (encode i :: rest) = .command i rest := by
  cases i with
  | b32enc => exact (Laws.Encoding.b32enc rfl).2 rest
  | b32dec => exact (Laws.Encoding.b32dec rfl).2 rest
  | totp => exact (Laws.Encoding.totp rfl).2 rest
  | hmac => exact (Laws.Encoding.hmac rfl).2 rest
  | gensec => exact (Laws.Encoding.gensec rfl).2 rest

/-- A word that is not well formed is a reserved code (rule R93). -/
theorem decode_of_not_wf {op : Byte} (h : commandWordWf op = false) (rest : List Byte) :
    decode (op :: rest) = .reservedCode op := by
  refine (decode_cons_cases op rest).resolve_left ?_
  rintro ⟨i, hrow, -⟩
  obtain ⟨-, hwf⟩ := opcodeTable_row _ hrow
  exact absurd (h.symm.trans hwf) nofun

/-- Settles O1: each word is its command's code. -/
theorem specWordsDecode : Obligations.SpecWordsDecode :=
  ⟨decode_encode .b32enc [], decode_encode .b32dec [], decode_encode .totp [], decode_encode .hmac [],
    decode_encode .gensec []⟩

/-- Settles O2: each command's code is in the table, and each row of the table holds its command's code. -/
theorem decodeEncodeAgree : Obligations.DecodeEncodeAgree :=
  ⟨fun i rest _ => decode_encode i rest, fun _ _ _ _ h => decode_eq_command h⟩

/-! ## The write of `CMD` -/

theorem hostCommand_of_command {op : Byte} {i : Instr} {tail : List Byte} (h : decode [op] = .command i tail)
    (s : State) : hostCommand op s = exec i { s with cmd := op } := by
  unfold hostCommand
  rw [h]

theorem hostCommand_of_reserved {op : Byte} (h : decode [op] = .reservedCode op) (s : State) :
    hostCommand op s = .refused (.reservedCommand op) := by
  unfold hostCommand
  rw [h]

theorem hostStart_of_command {op : Byte} {i : Instr} {tail : List Byte} (h : decode [op] = .command i tail)
    (s : State) : hostStart op s = startWith Config.env i { s with cmd := op } := by
  unfold hostStart
  rw [h]

theorem hostStart_of_reserved {op : Byte} (h : decode [op] = .reservedCode op) (s : State) :
    hostStart op s = .refused (.reservedCommand op) := by
  unfold hostStart
  rw [h]

/-- Settles O3: the table holds well-formed words only, and either write of another word is refused. -/
theorem reservedCodesRefused : Obligations.ReservedCodesRefused := by
  intro op rest hop
  have hwf : commandWordWf op = false := by
    obtain rfl | hop := hop
    · rfl
    · rw [commandWordWf, Bool.and_eq_false_iff, decide_eq_false_iff_not, decide_eq_false_iff_not]
      omega
  refine ⟨decode_of_not_wf hwf rest, fun s more hp hh => ?_⟩
  obtain hh | hh := hh <;> rw [step_idle_action hp hh]
  · exact hostCommand_of_reserved (decode_of_not_wf hwf []) _
  · exact hostStart_of_reserved (decode_of_not_wf hwf []) _

/-- Settles O4: the host's next action is the whole command, of which the decoder names the instruction. -/
theorem stepRunsDecodedCommand : Obligations.StepRunsDecodedCommand := by
  intro s op rest i tail hp hh hdec _
  exact (step_idle_action hp hh).trans (hostCommand_of_command hdec _)

/-- Whether a command may start depends neither on the host's list nor on what `CMD` holds. -/
theorem Ready.withCmd {i : Instr} {s : State} (h : Ready i s) (host : List HostAction) (op : Byte) :
    Ready i { s with host := host, cmd := op } := by
  cases i <;> exact h

theorem startWith_ready {i : Instr} {s : State} (h : Ready i s) : startWith Config.env i s = .next (enter i s) :=
  started_ready env_binding h _

/-- Settles O5: a command that may start is not refused, and enters its first phase. -/
theorem startSetsFirstPhase : Obligations.StartSetsFirstPhase := by
  intro s i rest hh hready
  obtain ⟨hp, -⟩ := id hready
  rw [step_idle_action hp hh]
  refine (hostStart_of_command (decode_encode i []) _).trans ((startWith_ready (hready.withCmd rest _)).trans ?_)
  cases i <;> rfl

/-! ## The host's load -/

theorem givenLoad_ibuf (b : BufferId) (n : Nat) (g : Given) :
    (givenLoad b n g).ibuf = if b = .ibuf then max g.ibuf n else g.ibuf := by
  cases b <;> rfl

theorem givenLoad_kbuf (b : BufferId) (n : Nat) (g : Given) :
    (givenLoad b n g).kbuf = if b = .kbuf then max g.kbuf n else g.kbuf := by
  cases b <;> rfl

/-- Settles O57: in `IDLE` the step is the load, which writes the bytes from index 0 on. -/
theorem hostLoadFillsBuffer : Obligations.HostLoadFillsBuffer := by
  intro s b bytes rest hp hh
  have hbuffer (c : BufferId) : buffer { s with host := rest } c = buffer s c := by cases c <;> rfl
  refine ⟨loadBuffer b bytes { s with host := rest }, step_idle_action hp hh, ?_, ?_, fun c hc => ?_,
    givenLoad_ibuf b bytes.length s.given, givenLoad_kbuf b bytes.length s.given⟩
  · rw [buffer_loadBuffer_same]
    exact holdsFrom_writeFrom _ 0 bytes
  · rw [buffer_loadBuffer_same, hbuffer]
    exact sameFrom_writeFrom _ bytes
  · rw [buffer_loadBuffer_other bytes _ hc, hbuffer]

end Sys2Proof.Machine

namespace Sys2Proof.Machine

/-! ## The constant tables -/

/-- `ALPHA[0..25]` are the letters `A` to `Z`. -/
theorem alpha_letter : ∀ v : BitVec 5, v.toNat ≤ 25 → (alpha v).toNat = 0x41 + v.toNat := by
  decide

/-- `ALPHA[26..31]` are the digits `2` to `7`. -/
theorem alpha_digit : ∀ v : BitVec 5, 26 ≤ v.toNat → (alpha v).toNat = 0x32 + (v.toNat - 26) := by
  decide

/-- Settles O6: the letters, then the digits. -/
theorem alphabetTable : Obligations.AlphabetTable :=
  fun v => ⟨alpha_letter v, alpha_digit v⟩

/-! ### `INV` -/

theorem inv_letter {c : Byte} (h : 0x41 ≤ c.toNat ∧ c.toNat ≤ 0x5A) :
    inv c = .symbol (BitVec.ofNat 5 (c.toNat - 0x41)) :=
  if_pos h

theorem inv_digit {c : Byte} (h : 0x32 ≤ c.toNat ∧ c.toNat ≤ 0x37) :
    inv c = .symbol (BitVec.ofNat 5 (c.toNat - 0x32 + 26)) :=
  (if_neg (by omega)).trans (if_pos h)

/-- The bytes that are neither letters, digits of the alphabet, nor `=`. -/
theorem inv_other {c : Byte} (hl : ¬ (0x41 ≤ c.toNat ∧ c.toNat ≤ 0x5A)) (hd : ¬ (0x32 ≤ c.toNat ∧ c.toNat ≤ 0x37))
    (hp : c.toNat ≠ 0x3D) : inv c = .invalid := by
  rw [inv, if_neg hl, if_neg hd, if_neg hp]

theorem inv_padding {c : Byte} (h : c.toNat = 0x3D) : inv c = .padding := by
  rw [inv, if_neg (by omega), if_neg (by omega), if_pos h]

/-- The four classes of bytes by value, and what `INV` makes of each (rule R95). -/
theorem inv_cases (c : Byte) :
    ((0x41 ≤ c.toNat ∧ c.toNat ≤ 0x5A) ∧ inv c = .symbol (BitVec.ofNat 5 (c.toNat - 0x41)))
      ∨ ((0x32 ≤ c.toNat ∧ c.toNat ≤ 0x37) ∧ inv c = .symbol (BitVec.ofNat 5 (c.toNat - 0x32 + 26)))
      ∨ (c.toNat = 0x3D ∧ inv c = .padding)
      ∨ (¬ (0x41 ≤ c.toNat ∧ c.toNat ≤ 0x5A) ∧ ¬ (0x32 ≤ c.toNat ∧ c.toNat ≤ 0x37) ∧ c.toNat ≠ 0x3D
          ∧ inv c = .invalid) := by
  by_cases hl : 0x41 ≤ c.toNat ∧ c.toNat ≤ 0x5A
  · exact .inl ⟨hl, inv_letter hl⟩
  by_cases hd : 0x32 ≤ c.toNat ∧ c.toNat ≤ 0x37
  · exact .inr (.inl ⟨hd, inv_digit hd⟩)
  by_cases hp : c.toNat = 0x3D
  · exact .inr (.inr (.inl ⟨hp, inv_padding hp⟩))
  · exact .inr (.inr (.inr ⟨hl, hd, hp, inv_other hl hd hp⟩))

/-- Only `ALPHA[v]` reads as `v`. -/
theorem eq_alpha_of_inv {c : Byte} {v : BitVec 5} (h : inv c = .symbol v) : c = alpha v := by
  apply BitVec.eq_of_toNat_eq
  obtain ⟨hc, hi⟩ | ⟨hc, hi⟩ | ⟨-, hi⟩ | ⟨-, -, -, hi⟩ := inv_cases c <;> rw [h] at hi
  · obtain rfl := CharClass.symbol.inj hi
    have hv : (BitVec.ofNat 5 (c.toNat - 0x41)).toNat = c.toNat - 0x41 := Nat.mod_eq_of_lt (by omega)
    rw [alpha_letter _ (by omega)]
    omega
  · obtain rfl := CharClass.symbol.inj hi
    have hv : (BitVec.ofNat 5 (c.toNat - 0x32 + 26)).toNat = c.toNat - 0x32 + 26 := Nat.mod_eq_of_lt (by omega)
    rw [alpha_digit _ (by omega)]
    omega
  · cases hi
  · cases hi

/-- The values of the bytes that are not `Invalid`: the letters, the digits `2` to `7`, and `=`. -/
def validBytes : Finset Nat :=
  Finset.Icc 0x41 0x5A ∪ Finset.Icc 0x32 0x37 ∪ {0x3D}

theorem mem_validBytes (n : Nat) :
    n ∈ validBytes ↔ (0x41 ≤ n ∧ n ≤ 0x5A) ∨ (0x32 ≤ n ∧ n ≤ 0x37) ∨ n = 0x3D := by
  simp only [validBytes, Finset.mem_union, Finset.mem_Icc, Finset.mem_singleton, or_assoc]

theorem inv_eq_invalid_iff (c : Byte) : inv c = .invalid ↔ c.toNat ∉ validBytes := by
  rw [mem_validBytes]
  obtain ⟨hc, hi⟩ | ⟨hc, hi⟩ | ⟨hc, hi⟩ | ⟨hl, hd, hp, hi⟩ := inv_cases c <;> rw [hi]
  · exact iff_of_false nofun (not_not.2 (.inl hc))
  · exact iff_of_false nofun (not_not.2 (.inr (.inl hc)))
  · exact iff_of_false nofun (not_not.2 (.inr (.inr hc)))
  · exact iff_of_true rfl (by tauto)

theorem inv_eq_padding_iff (c : Byte) : inv c = .padding ↔ c.toNat = 0x3D := by
  obtain ⟨hc, hi⟩ | ⟨hc, hi⟩ | ⟨hc, hi⟩ | ⟨-, -, hp, hi⟩ := inv_cases c <;> rw [hi]
  · exact iff_of_false nofun (by omega)
  · exact iff_of_false nofun (by omega)
  · exact iff_of_true rfl hc
  · exact iff_of_false nofun hp

/-- How many bytes are in a class, counted by their values. -/
theorem countP_inv {k : CharClass} (q : Nat → Prop) [DecidablePred q] (h : ∀ c : Byte, inv c = k ↔ q c.toNat) :
    (List.range 256).countP (fun c => decide (inv (BitVec.ofNat 8 c) = k)) = ((Finset.range 256).filter q).card := by
  rw [← Nat.count_eq_card_filter_range, Nat.count]
  refine List.countP_congr fun n hn => ?_
  have hval : (BitVec.ofNat 8 n).toNat = n := Nat.mod_eq_of_lt (List.mem_range.1 hn)
  rw [decide_eq_true_iff, decide_eq_true_iff, h, hval]

/-- All bytes but the 26 letters, the 6 digits and `=`. -/
theorem count_invalid :
    (List.range 256).countP (fun c => decide (inv (BitVec.ofNat 8 c) = .invalid)) = 223 := by
  have hsub : validBytes ⊆ Finset.range 256 := by decide
  have hcard : validBytes.card = 33 := by decide
  rw [countP_inv (· ∉ validBytes) inv_eq_invalid_iff, Finset.filter_notMem_eq_sdiff, Finset.card_sdiff_of_subset hsub, hcard,
    Finset.card_range]

/-- `=` alone. -/
theorem count_padding :
    (List.range 256).countP (fun c => decide (inv (BitVec.ofNat 8 c) = .padding)) = 1 := by
  rw [countP_inv (· = 0x3D) inv_eq_padding_iff, Finset.filter_eq', if_pos (Finset.mem_range.2 (by norm_num)),
    Finset.card_singleton]

/-- Settles O7: the ranges, the inverse law and the two counts. -/
theorem inverseTable : Obligations.InverseTable := by
  refine ⟨fun c => ⟨inv_letter, inv_digit, fun h => h ▸ inv_padChar, fun h => ?_⟩, inv_alpha,
    fun _ _ => eq_alpha_of_inv, count_invalid, count_padding⟩
  exact inv_other (by omega) (by omega) (by omega)

/-- Settles O8: the nine entries, and the end of the table. -/
theorem powerTable : Obligations.PowerTable := by
  refine ⟨fun d hd => ?_, fun d hd => List.getElem?_eq_none hd⟩
  obtain ⟨m, hm, hpow⟩ := pow10_of_le hd
  rw [hm, Option.map_some, hpow]

end Sys2Proof.Machine

namespace Sys2Proof.Machine

/-! ## The function `Enc` (`40_base32_encode.md` rules R132, R140, R141, R142) -/

/-- The bit stream of the symbols is the bit stream of the input with zero bits after it. -/
theorem quintetBit_quintets (b : List Byte) {j : Nat} (h : j < 5 * (quintets b).length) :
    quintetBit (quintets b) j = (decide (j < 8 * b.length) && octetBit b j) := by
  have hq := symbolCount_eq b.length
  rw [quintetBit_eq_testBit _ j h, digitsValue_quintets, Nat.testBit_mul_two_pow]
  rw [quintets_length] at h ⊢
  by_cases hj : j < 8 * b.length
  · have hpos : 5 * symbolCount b.length - 1 - j - (5 * symbolCount b.length - 8 * b.length)
        = 8 * b.length - 1 - j := by omega
    rw [octetBit_eq_testBit b j hj, hpos, decide_eq_true hj, decide_eq_true (by omega)]
  · rw [decide_eq_false hj, decide_eq_false (by omega), Bool.false_and, Bool.false_and]

/-- Settles O9: the symbols' values are the quintets. -/
theorem encodeCutsBitStream : Obligations.EncodeCutsBitStream := fun b =>
  ⟨quintets b, quintets_length b, fun _ => quintetBit_quintets b, quintets_length b ▸ enc_eq b⟩

/-- Settles O10: a run that leaves no error succeeded, and reports the length of the text. -/
theorem encodeLengthLaw : Obligations.EncodeLengthLaw := by
  refine ⟨enc_length, fun s t h herr => ?_⟩
  obtain ⟨v, hfail⟩ | ⟨-, ⟨hresult, -⟩, -⟩ := exec_outcome h
  · exact absurd herr hfail.err_ne_zero
  · exact hresult

/-- Settles O12: `z` fills the last symbol and `e` the last group. -/
theorem paddingByRemainder : Obligations.PaddingByRemainder := by
  intro b hpos
  have hq := symbolCount_eq b.length
  have ht := textLength_eq b.length
  refine ⟨quintets b, textLength b.length - symbolCount b.length, 5 * symbolCount b.length - 8 * b.length,
    enc_eq b, ?_⟩
  rw [quintets_length]
  omega

/-- The integer of a 40-bit group. -/
theorem beValue_group (o0 o1 o2 o3 o4 : Byte) :
    beValue [o0, o1, o2, o3, o4]
      = (((o0.toNat * 256 + o1.toNat) * 256 + o2.toNat) * 256 + o3.toNat) * 256 + o4.toNat := by
  simp [beValue]

theorem symbolCount_group : symbolCount 5 = 8 := by decide

/-- A 40-bit group needs no zero bits. -/
theorem quintet_group_toNat (o0 o1 o2 o3 o4 : Byte) (k : Nat) :
    (quintet [o0, o1, o2, o3, o4] k).toNat = beValue [o0, o1, o2, o3, o4] / 2 ^ (5 * (7 - k)) % 32 := by
  rw [quintet_toNat, show [o0, o1, o2, o3, o4].length = 5 from rfl, symbolCount_group, Nat.sub_self, pow_zero,
    Nat.mul_one]

/-- The values of a 40-bit group and the octet bits they are made of (rule R141). -/
theorem quintets_group (o0 o1 o2 o3 o4 : Byte) :
    quintets [o0, o1, o2, o3, o4] =
      [ o0.extractLsb' 3 5
      , o0.extractLsb' 0 3 ++ o1.extractLsb' 6 2
      , o1.extractLsb' 1 5
      , o1.extractLsb' 0 1 ++ o2.extractLsb' 4 4
      , o2.extractLsb' 0 4 ++ o3.extractLsb' 7 1
      , o3.extractLsb' 2 5
      , o3.extractLsb' 0 2 ++ o4.extractLsb' 5 3
      , o4.extractLsb' 0 5 ] := by
  have h0 := o0.isLt
  have h1 := o1.isLt
  have h2 := o2.isLt
  have h3 := o3.isLt
  have h4 := o4.isLt
  refine List.ext_getElem (by rw [quintets_length]; exact symbolCount_group) fun k _ hk => ?_
  have hk8 : k < 8 := hk
  apply BitVec.eq_of_toNat_eq
  rw [quintets_getElem, quintet_group_toNat, beValue_group]
  interval_cases k <;>
    simp only [List.getElem_cons_zero, List.getElem_cons_succ, toNat_joined, BitVec.extractLsb'_toNat,
      Nat.shiftRight_eq_div_pow] <;>
    omega

/-- Settles O11: the symbols of a full group, which has no padding. -/
theorem groupCrossesOctets : Obligations.GroupCrossesOctets := by
  intro o0 o1 o2 o3 o4
  have hpad : textLength 5 - symbolCount 5 = 0 := by decide
  rw [enc_eq, quintets_group, show [o0, o1, o2, o3, o4].length = 5 from rfl, hpad]
  rfl

/-! ## The command `B32ENC` (`40_base32_encode.md` rules R130 and R144) -/

/-- Without room for the text and its terminator `B32ENC` fails, with it `B32ENC` succeeds. -/
theorem exec_b32enc_cases {s : State} {b : List Byte} (h : InputReady s b) :
    (s.cap.toNat < 8 * ((b.length + 4) / 5) + 1 ∧ exec .b32enc s = .next (raise .bufferTooSmall s))
      ∨ (8 * ((b.length + 4) / 5) + 1 ≤ s.cap.toNat ∧ exec .b32enc s = .next (encodeSucceeds b s)) := by
  rw [exec_b32enc_of_input h, ← requiredCap_eq]
  obtain ⟨hroom, heffect⟩ | ⟨hroom, heffect⟩ := encodeEffect_cases b s <;> rw [heffect]
  · exact .inl ⟨hroom, rfl⟩
  · exact .inr ⟨hroom, rfl⟩

/-- Settles O17: both branches of rule R130. -/
theorem encodeComputes : Obligations.EncodeComputes := by
  intro s b h
  obtain ⟨hroom, hexec⟩ | ⟨hroom, hexec⟩ := exec_b32enc_cases h
  · refine ⟨_, hexec, rfl, ?_⟩
    rw [if_pos hroom]
    exact ⟨rfl, rfl⟩
  · obtain ⟨-, -, -, hmax, -⟩ := h
    obtain ⟨hresult, hobuf, -⟩ := encodeSucceeds_spec s hmax
    refine ⟨_, hexec, rfl, ?_⟩
    rw [if_neg (by omega)]
    exact ⟨hresult, rfl, hobuf⟩

/-- Settles O19: the text is empty, and its terminator needs one byte of room. -/
theorem encodeEmptyInput : Obligations.EncodeEmptyInput := by
  intro s h
  obtain ⟨hroom, hexec⟩ | ⟨hroom, hexec⟩ := exec_b32enc_cases h
  · have hcap : s.cap.toNat < 1 := hroom
    exact ⟨fun hpos => absurd hpos (by omega), fun _ => ⟨_, hexec, rfl, rfl⟩⟩
  · have hcap : 1 ≤ s.cap.toNat := hroom
    obtain ⟨-, hobuf, hsame⟩ := encodeSucceeds_spec s (b := []) (Nat.zero_le _)
    exact ⟨fun _ => ⟨_, hexec, hobuf 0 Nat.one_pos, hsame, rfl, rfl⟩, fun hzero => absurd hzero (by omega)⟩

end Sys2Proof.Machine

namespace Sys2Proof.Machine

/-! ## The phase `ENC_ABSORB` (`40_base32_encode.md` rules R133 and R134) -/

/-- An octet that was read is one of the input. -/
theorem sourceRead_lt {s : State} {o : Byte} (h : sourceRead s = .ok o) : s.scratch.iidx.toNat < sourceLength s := by
  unfold sourceRead at h
  unfold sourceLength
  simp only at h
  split_ifs at h ⊢ with hsel hidx
  · exact (memRead_eq_ok h).1
  · exact hidx

theorem advanced_iidx_toNat {s : State} {o : Byte} (h : sourceRead s = .ok o) :
    (advanced s).scratch.iidx.toNat = s.scratch.iidx.toNat + 1 :=
  toNat_succ_of_lt (sourceRead_lt h) (sourceLength_lt s)

theorem absorbPhase_advanced {s : State} {o : Byte} (h : sourceRead s = .ok o) :
    absorbPhase (advanced s) = if s.scratch.iidx.toNat + 1 < sourceLength s then .encAbsorb else .encDrain := by
  unfold absorbPhase
  rw [advanced_iidx_toNat h]
  rfl

/-- Whatever is pending, the octet enters below it and what leaves the 32 bits is dropped. -/
theorem absorbedAcc_toNat (o : Byte) (s : State) :
    (absorbedAcc o s).toNat = (s.scratch.acc.toNat * 256 + o.toNat) % 2 ^ 32 := by
  have ho := o.isLt
  have hshift : s.scratch.acc.toNat * 2 ^ 8 % 2 ^ 32 = s.scratch.acc.toNat % 2 ^ 24 * 2 ^ 8 := by omega
  unfold absorbedAcc
  rw [BitVec.toNat_or, BitVec.toNat_shiftLeft, BitVec.toNat_setWidth, Nat.shiftLeft_eq, hshift,
    Nat.mod_eq_of_lt (show o.toNat < 2 ^ 32 by omega), ← Nat.shiftLeft_eq, ← Nat.shiftLeft_add_eq_or_of_lt ho,
    Nat.shiftLeft_eq]
  omega

/-- The five symbols of a full window. -/
def windowText (a : Word) (p : Nat) : List Byte :=
  (windowQuintets a p).map alpha

theorem windowText_length (a : Word) (p : Nat) : (windowText a p).length = 5 := rfl

theorem windowText_getElem? (a : Word) (p : Nat) {k : Nat} (hk : k < 5) :
    (windowText a p)[k]? = some (alpha (BitVec.ofNat 5 (a.toNat / 2 ^ (p - 5 * (k + 1))))) := by
  have hval : BitVec.setWidth 5 ((a >>> (p - 5 * (k + 1))) &&& 0x1F#32)
      = BitVec.ofNat 5 (a.toNat / 2 ^ (p - 5 * (k + 1))) := by
    apply BitVec.eq_of_toNat_eq
    rw [fiveBits_toNat, BitVec.toNat_ushiftRight, Nat.shiftRight_eq_div_pow, BitVec.toNat_ofNat]
  rw [← hval]
  simp [windowText, windowQuintets, hk]

/-- Fewer than 25 bits stay pending. -/
theorem encAbsorb_of_lt {s : State} {o : Byte} (h : sourceRead s = .ok o) (hp : s.scratch.pend.toNat + 8 < 25) :
    encAbsorb s
      = .next (setAcc (absorbedAcc o s) (s.scratch.pend.toNat + 8) (absorbPhase (advanced s)) (advanced s)) := by
  rw [encAbsorb_eq, h, orFault_ok, if_neg (by omega)]

/-- The five symbols of a full window are written and counted. -/
theorem encAbsorb_of_le {s : State} {o : Byte} (h : sourceRead s = .ok o) (hp : 25 ≤ s.scratch.pend.toNat + 8)
    (hroom : s.scratch.ocnt.toNat + 5 ≤ s.cap.toNat) :
    encAbsorb s
      = .next (setAcc (lowBits (s.scratch.pend.toNat + 8 - 25) (absorbedAcc o s)) (s.scratch.pend.toNat + 8 - 25)
          (absorbPhase (advanced s))
          (withOutput (windowText (absorbedAcc o s) (s.scratch.pend.toNat + 8)) (advanced s))) := by
  have hemit := emitSyms_ok (windowQuintets (absorbedAcc o s) (s.scratch.pend.toNat + 8)) (advanced s) hroom
  rw [encAbsorb_eq, h, orFault_ok, if_pos hp, hemit, orFault_ok]
  rfl

/-- Settles O18: the window taken, and not taken. -/
theorem absorbStep : Obligations.AbsorbStep := by
  rintro s o a p hphase hread hpend ha rfl hroom
  rw [← absorbedAcc_toNat] at ha
  subst ha
  have hidx := advanced_iidx_toNat hread
  have hnext := absorbPhase_advanced hread
  rw [phaseStep_encAbsorb hphase]
  by_cases hp : 25 ≤ s.scratch.pend.toNat + 8
  · have hlen := windowText_length (absorbedAcc o s) (s.scratch.pend.toNat + 8)
    have hsym := fun k => windowText_getElem? (absorbedAcc o s) (s.scratch.pend.toNat + 8) (k := k)
    have hstep := encAbsorb_of_le hread hp (hroom hp)
    generalize windowText (absorbedAcc o s) (s.scratch.pend.toNat + 8) = bytes at hlen hsym hstep
    have hocnt : (withOutput bytes (advanced s)).scratch.ocnt.toNat = s.scratch.ocnt.toNat + bytes.length :=
      withOutput_ocnt (s := advanced s) (by rw [hlen]; exact hroom hp)
    rw [hlen] at hocnt
    refine ⟨_, hstep, hidx, hnext, fun hlt => absurd hp (Nat.not_le_of_lt hlt), fun _ =>
      ⟨setAcc_pend_toNat _ _ _ (by omega), lowBits_toNat _ (by omega), hocnt, fun k hk => ?_, fun i hi => ?_⟩⟩
    · exact (holdsFrom_writeFrom _ _ bytes k (hlen ▸ hk)).trans (hsym k hk)
    · exact (read_writeFrom _ s.scratch.ocnt.toNat bytes i).trans (if_neg (by omega))
  · exact ⟨_, encAbsorb_of_lt hread (Nat.lt_of_not_le hp), hidx, hnext,
      fun _ => ⟨setAcc_pend_toNat _ _ _ (by omega), rfl, rfl, rfl⟩, fun hle => absurd hle hp⟩

end Sys2Proof.Machine

namespace Sys2Proof.Machine

/-! ## The function `Dec` (`41_base32_decode.md` rules R175, R179, R182, R183) -/

/-- The octets are cut in order from the bit stream of the values. -/
theorem octetBit_octetsOf (vs : List (BitVec 5)) {j : Nat} (h : j < 8 * (octetsOf vs).length) :
    octetBit (octetsOf vs) j = quintetBit vs j := by
  have hlen := octetsOf_length vs
  have hk : j / 8 < (octetsOf vs).length := by omega
  unfold octetBit
  rw [quintetBit_eq_testBit vs j (by omega), List.getD_eq_getElem _ _ hk, ← BitVec.testBit_toNat,
    octetsOf_getElem_toNat vs _ hk, show (256 : Nat) = 2 ^ 8 by norm_num, Nat.testBit_mod_two_pow,
    Nat.testBit_div_two_pow, decide_eq_true (by omega), Bool.true_and,
    show 7 - j % 8 + (5 * vs.length - 8 * (j / 8 + 1)) = 5 * vs.length - 1 - j by omega]

/-- Settles O13: `Dec` is the octets of the symbols' values. -/
theorem decodeCutsBitStream : Obligations.DecodeCutsBitStream := fun text =>
  ⟨dec_length text, fun _ => octetBit_octetsOf (symbolValues text)⟩

/-- The integer of a 40-bit group of symbols. -/
theorem digitsValue_group (s0 s1 s2 s3 s4 s5 s6 s7 : BitVec 5) :
    digitsValue [s0, s1, s2, s3, s4, s5, s6, s7]
      = ((((((s0.toNat * 32 + s1.toNat) * 32 + s2.toNat) * 32 + s3.toNat) * 32 + s4.toNat) * 32 + s5.toNat) * 32
          + s6.toNat) * 32 + s7.toNat := by
  simp [digitsValue]

/-- The octets of a 40-bit group and the symbol bits they are made of (rule R182). -/
theorem octetsOf_group (s0 s1 s2 s3 s4 s5 s6 s7 : BitVec 5) :
    octetsOf [s0, s1, s2, s3, s4, s5, s6, s7] =
      [ s0 ++ s1.extractLsb' 2 3
      , s1.extractLsb' 0 2 ++ s2 ++ s3.extractLsb' 4 1
      , s3.extractLsb' 0 4 ++ s4.extractLsb' 1 4
      , s4.extractLsb' 0 1 ++ s5 ++ s6.extractLsb' 3 2
      , s6.extractLsb' 0 3 ++ s7 ] := by
  have h0 := s0.isLt
  have h1 := s1.isLt
  have h2 := s2.isLt
  have h3 := s3.isLt
  have h4 := s4.isLt
  have h5 := s5.isLt
  have h6 := s6.isLt
  have h7 := s7.isLt
  refine List.ext_getElem (by simp [octetsOf_length]) fun k hk hk' => ?_
  have hk5 : k < 5 := hk'
  apply BitVec.eq_of_toNat_eq
  rw [octetsOf_getElem_toNat, digitsValue_group, show [s0, s1, s2, s3, s4, s5, s6, s7].length = 8 from rfl]
  interval_cases k <;>
    simp only [List.getElem_cons_zero, List.getElem_cons_succ, toNat_joined, BitVec.extractLsb'_toNat,
      Nat.shiftRight_eq_div_pow] <;>
    omega

/-- Settles O14: the values of the eight symbols are the eight values. -/
theorem groupCrossesQuintets : Obligations.GroupCrossesQuintets := by
  intro s0 s1 s2 s3 s4 s5 s6 s7
  rw [dec, symbolValues_map_alpha, octetsOf_group]

/-- The octets of an encoding's values are the bytes encoded. -/
theorem octetsOf_quintets (b : List Byte) : octetsOf (quintets b) = b := by
  have hq := symbolCount_eq b.length
  refine List.ext_getElem (by rw [octetsOf_length, quintets_length]; omega) fun k hk hb => ?_
  have hpos : 5 * symbolCount b.length - 8 * (k + 1)
      = 5 * symbolCount b.length - 8 * b.length + 8 * (b.length - 1 - k) := by omega
  apply BitVec.eq_of_toNat_eq
  rw [octetsOf_getElem_toNat, digitsValue_quintets, quintets_length, getElem_of_beValue b k hb, hpos, pow_add,
    Nat.mul_comm (beValue b), Nat.mul_div_mul_left _ _ (by positivity)]

/-- Decoding an encoding gives the bytes back (rule R179). -/
theorem dec_enc (b : List Byte) : dec (enc b) = b := by
  rw [dec, symbolValues_enc, octetsOf_quintets]

/-- `=` is no symbol, wherever it stands. -/
theorem symbolValues_insert_padChar (x y : List Byte) : symbolValues (x ++ padChar :: y) = symbolValues (x ++ y) := by
  have hpad : symbolValues (padChar :: y) = symbolValues y := List.filterMap_cons_none symbolValue_padChar
  rw [symbolValues_append, hpad, symbolValues_append]

theorem dec_insert_padChar (x y : List Byte) : dec (x ++ padChar :: y) = dec (x ++ y) :=
  congrArg octetsOf (symbolValues_insert_padChar x y)

/-! ## The command `B32DEC` (`41_base32_decode.md` rules R170, R177 and R179) -/

/-- The decoder does not stop among symbols and padding whose bytes fit, whatever stands after them. -/
theorem stopsAt_append_eq_false {x : List Byte} (z : List Byte) {cap : Nat} (hinv : ∀ d ∈ x, inv d ≠ .invalid)
    (hfits : 5 * (symbolValues x).length / 8 ≤ cap) : ∀ i < x.length, stopsAt (x ++ z) cap i = false := by
  intro i hi
  have hi' : i < (x ++ z).length := by rw [List.length_append]; omega
  refine (stopsAt_eq_false_iff (x ++ z) cap hi').2 ⟨?_, ?_⟩
  · by_contra hex
    have hover := (exists_exceedsAt_iff (x ++ z) cap x.length).1 ⟨i, hi, by simpa using hex⟩
    rw [List.take_left] at hover
    exact absurd hfits (Nat.not_le_of_lt hover)
  · rw [List.getElem_append_left hi]
    exact hinv _ (List.getElem_mem hi)

/-- A text of symbols and padding whose bytes fit is decoded. -/
theorem decodeEffect_of_fits {text : List Byte} {s : State} (hinv : ∀ c ∈ text, inv c ≠ .invalid)
    (hfits : (dec text).length ≤ s.cap.toNat) : decodeEffect text s = decodedState text s := by
  rw [dec_length] at hfits
  have hgo := stopsAt_append_eq_false [] hinv hfits
  rw [List.append_nil] at hgo
  exact decodeEffect_of_no_stop hgo

/-- What a successful decode leaves, for a text in the supported range. -/
theorem decodedState_spec (s : State) {text : List Byte} (h : text.length ≤ Config.lenMax) :
    (decodedState text s).result.toNat = (dec text).length ∧ (decodedState text s).err = 0#3
      ∧ HoldsFrom (decodedState text s).obuf 0 (dec text) :=
  ⟨(decodedState_result s h).trans (dec_length text).symm, rfl, holdsFrom_writeFrom _ _ _⟩

/-- The characters a successful `B32ENC` wrote are in `OBUF`, their number in `RESULT`, and both in range. -/
theorem encoded_of_exec {s t : State} {b : List Byte} (h : InputReady s b) (hexec : exec .b32enc s = .next t)
    (herr : t.err = 0#3) :
    t.result.toNat = (enc b).length ∧ (enc b).length ≤ Config.lenMax
      ∧ ∀ k < (enc b).length, Memory.read t.obuf k = (enc b)[k]? := by
  have hcases := exec_b32enc_cases h
  rw [hexec] at hcases
  obtain ⟨-, hfail⟩ | ⟨hroom, hsucc⟩ := hcases
  · obtain rfl := Host.Outcome.next.inj hfail
    exact absurd herr (raise_err_ne_zero _ s)
  · obtain rfl := Host.Outcome.next.inj hsucc
    obtain ⟨-, -, -, hmax, hcap, -⟩ := h
    obtain ⟨hresult, hobuf, -⟩ := encodeSucceeds_spec s hmax
    have hlen := enc_length b
    rw [textLength_eq] at hlen
    refine ⟨hresult.trans hlen.symm, by omega, fun k hk => ?_⟩
    have hread := hobuf k (by rw [List.length_append]; omega)
    rwa [Nat.zero_add, List.getElem?_append_left hk] at hread

/-- Settles O16: the encoding is valid input for `B32DEC`, and decodes to the bytes encoded. -/
theorem inverseLaw : Obligations.InverseLaw := by
  refine ⟨dec_enc, ?_, by decide, by decide, by decide, by decide⟩
  intro s t u b hb hexec herr hphase hlenGiven hcapGiven hlen hread hfilled hroom hcap
  obtain ⟨hresult, hmax, hobuf⟩ := encoded_of_exec hb hexec herr
  rw [hresult] at hread hfilled
  have hholds : HoldsFrom u.ibuf 0 (enc b) := fun k hk => by rw [Nat.zero_add, hread k hk, hobuf k hk]
  have hready : InputReady u (enc b) :=
    ⟨hphase, hlen ▸ hresult, hholds, hmax, hcap, hlenGiven, hcapGiven, hfilled⟩
  have hdecoded := decodedState_spec u hmax
  have heffect := decodeEffect_of_fits (s := u) (fun _ => inv_enc_ne_invalid b) (by rwa [dec_enc])
  rw [dec_enc] at hdecoded
  exact ⟨_, exec_b32dec_of_input hready, heffect ▸ hdecoded⟩

/-- `iB` of rule R170 in closed form. -/
theorem overflows_iff (text : List Byte) (cap j : Nat) :
    Overflows text cap j ↔ cap < 5 * (symbolValues (text.take j)).length / 8 := by
  have hsymbol : ∀ c, (∃ v, inv c = .symbol v) ↔ (symbolValue c).isSome = true := by
    intro c
    unfold symbolValue
    cases inv c <;> simp
  rw [← exists_exceedsAt_iff]
  simp only [Overflows, exceedsAt_iff, hsymbol]
  rfl

/-- The index of rule R170 is the model's. -/
theorem firstInvalid_eq {text : List Byte} {j : Nat} (hj : j ≤ text.length)
    (hbefore : ∀ i < j, inv (text.getD i 0#8) ≠ .invalid) (hat : j < text.length → inv (text.getD j 0#8) = .invalid) :
    firstInvalid text = j := by
  obtain rfl | hlt := Nat.eq_or_lt_of_le hj
  · refine (firstInvalid_eq_length_iff text).2 fun c hc => ?_
    obtain ⟨i, hi, rfl⟩ := List.getElem_of_mem hc
    simpa [hi] using hbefore i hi
  · refine (List.findIdx_eq hlt).2 ⟨by simpa [hlt] using hat hlt, fun i hi => ?_⟩
    simpa [hi.trans hlt] using hbefore i hi

/-- Settles O20: the three cases of the command's effect. -/
theorem decodeComputes : Obligations.DecodeComputes := by
  intro s text j htext hj hbefore hat
  have hfirst := firstInvalid_eq hj hbefore hat
  refine ⟨_, exec_b32dec_of_input htext, decodeEffect_phase text s, ?_⟩
  have hcapacity := capacityExceeded_iff text s.cap.toNat
  rw [hfirst, ← overflows_iff] at hcapacity
  obtain ⟨hcap, heffect⟩ | ⟨hcap, hlt, heffect⟩ | ⟨hcap, hlt, heffect⟩ := decodeEffect_cases text s <;>
    rw [heffect] <;> rw [hcap] at hcapacity
  · have hover := hcapacity.1 rfl
    exact ⟨fun _ => ⟨rfl, rfl⟩, fun hno => absurd hover hno, fun hno => absurd hover hno⟩
  · rw [hfirst] at hlt
    exact ⟨fun hover => absurd (hcapacity.2 hover) Bool.false_ne_true, fun _ _ => ⟨rfl, rfl⟩,
      fun _ hend => absurd hend hlt.ne⟩
  · rw [hfirst] at hlt
    obtain ⟨-, -, -, hmax, -⟩ := htext
    exact ⟨fun hover => absurd (hcapacity.2 hover) Bool.false_ne_true, fun _ hin => absurd hin hlt,
      fun _ _ => decodedState_spec s hmax⟩

/-- A symbol exceeds the capacity when it completes an octet too many. -/
theorem exceedsAt_append_cons {c : Byte} {v : BitVec 5} (x y : List Byte) {cap : Nat} (hc : inv c = .symbol v)
    (h : cap < 5 * ((symbolValues x).length + 1) / 8) : exceedsAt (x ++ c :: y) cap x.length = true := by
  have hsymbol : symbolValue c = some v := by rw [symbolValue, hc]
  have htake : (x ++ c :: y).take (x.length + 1) = x ++ [c] := List.take_length_add_append ..
  have hvalues : symbolValues [c] = [v] := List.filterMap_cons_some hsymbol
  rw [exceedsAt_iff, htake, symbolValues_append, hvalues, List.length_append]
  exact ⟨by simp [hsymbol], h⟩

/-- Settles O22: the decoder reaches the character and stops at it. -/
theorem decodeReportsFirstFault : Obligations.DecodeReportsFirstFault := by
  intro s x y c htext hinv hfits
  have hlt : x.length < (x ++ c :: y).length := by simp
  have hget : (x ++ c :: y)[x.length] = c := by simp
  have hbefore := stopsAt_append_eq_false (c :: y) hinv hfits
  have hexec := exec_b32dec_of_input htext
  refine ⟨fun hc => ?_, fun ⟨v, hc⟩ hover => ?_⟩
  · rw [decodeEffect_of_invalid hlt hbefore (hget.symm ▸ hc)] at hexec
    exact ⟨_, hexec, rfl, rfl, rfl⟩
  · have hex := exceedsAt_append_cons x y hc hover
    rw [decodeEffect_of_exceedsAt hlt hbefore hex (by simp [hc])] at hexec
    exact ⟨_, hexec, rfl, rfl, rfl⟩

end Sys2Proof.Machine

namespace Sys2Proof.Machine

/-! ## The phase `DEC_SCAN` (`41_base32_decode.md` rules R172 to R177) -/

theorem scanNextPhase_advanced {s : State} (h : s.scratch.iidx.toNat < s.len.toNat) :
    scanNextPhase (advanced s) = if s.scratch.iidx.toNat + 1 < s.len.toNat then .decScan else .decEnd := by
  have hidx : (advanced s).scratch.iidx.toNat = s.scratch.iidx.toNat + 1 := toNat_succ_of_lt h s.len.isLt
  unfold scanNextPhase
  rw [hidx]
  rfl

section
variable {s : State} {c : Byte} (hi : s.scratch.iidx.toNat < s.len.toNat)
  (hread : Memory.read s.ibuf s.scratch.iidx.toNat = some c)
include hi hread

theorem memRead_ibuf_iidx : memRead s .ibuf s.scratch.iidx.toNat = .ok c := by
  simp only [memRead, bufferSize, buffer, if_pos hi, hread]

theorem decScan_of_invalid (hc : inv c = .invalid) : decScan s = .next (raise .invalidCharacter (advanced s)) := by
  unfold decScan
  rw [memRead_ibuf_iidx hi hread, orFault_ok, hc]
  rfl

theorem decScan_of_padding (hc : inv c = .padding) :
    decScan s = .next { advanced s with phase := scanNextPhase (advanced s) } := by
  unfold decScan
  rw [memRead_ibuf_iidx hi hread, orFault_ok, hc]
  rfl

theorem decScan_of_symbol {v : BitVec 5} (hc : inv c = .symbol v) :
    decScan s = decSymbol v (scanNextPhase (advanced s)) (advanced s) := by
  unfold decScan
  rw [memRead_ibuf_iidx hi hread, orFault_ok, hc]
  rfl

end

/-- Settles O15: `=` is no symbol, and its step only counts it. -/
theorem paddingContributesNothing : Obligations.PaddingContributesNothing := by
  refine ⟨dec_insert_padChar, fun s hphase hi hread => ?_⟩
  rw [phaseStep_decScan hphase, decScan_of_padding hi hread inv_padChar, scanNextPhase_advanced hi]
  rfl

/-- Whatever is pending, the five bits enter below it and what leaves the 32 bits is dropped (rule R173). -/
theorem shiftIn_toNat (a : Word) (v : BitVec 5) : (shiftIn a v).toNat = (a.toNat * 32 + v.toNat) % 2 ^ 32 := by
  have hv := v.isLt
  have hshift : a.toNat * 2 ^ 5 % 2 ^ 32 = a.toNat % 2 ^ 27 * 2 ^ 5 := by omega
  unfold shiftIn
  rw [BitVec.toNat_or, BitVec.toNat_shiftLeft, BitVec.toNat_setWidth, Nat.shiftLeft_eq, hshift,
    Nat.mod_eq_of_lt (show v.toNat < 2 ^ 32 by omega), ← Nat.shiftLeft_eq, ← Nat.shiftLeft_add_eq_or_of_lt hv,
    Nat.shiftLeft_eq, mod_two_pow_mul_add _ _ hv]
  rfl

/-- The octet flushed when `p` bits are pending in `a` (rule R174). -/
theorem setWidth_ushiftRight (a : Word) (n : Nat) :
    BitVec.setWidth 8 (a >>> n) = BitVec.ofNat 8 (a.toNat / 2 ^ n) := by
  apply BitVec.eq_of_toNat_eq
  rw [BitVec.toNat_setWidth, BitVec.toNat_ushiftRight, Nat.shiftRight_eq_div_pow, BitVec.toNat_ofNat]

section
variable {s : State} (v : BitVec 5) (ph : Phase)

/-- Fewer than eight bits stay pending. -/
theorem decSymbol_of_lt (hp : s.scratch.pend.toNat + 5 < 8) :
    decSymbol v ph s = .next (setAcc (shiftIn s.scratch.acc v) (s.scratch.pend.toNat + 5) ph s) :=
  if_neg (Nat.not_le_of_lt hp)

/-- There is no room for the octet (rule R177). -/
theorem decSymbol_of_full (hp : 8 ≤ s.scratch.pend.toNat + 5) (hfull : s.cap.toNat ≤ s.scratch.ocnt.toNat) :
    decSymbol v ph s = .next (raise .bufferTooSmall s) :=
  (if_pos hp).trans (if_pos hfull)

/-- The upper eight bits are written and counted (rule R174). -/
theorem decSymbol_of_room (hp : 8 ≤ s.scratch.pend.toNat + 5) (hroom : s.scratch.ocnt.toNat < s.cap.toNat) :
    decSymbol v ph s
      = .next (setAcc (lowBits (s.scratch.pend.toNat + 5 - 8) (shiftIn s.scratch.acc v)) (s.scratch.pend.toNat + 5 - 8)
          ph (withOutput [BitVec.ofNat 8 ((shiftIn s.scratch.acc v).toNat / 2 ^ (s.scratch.pend.toNat + 5 - 8))] s)) := by
  unfold decSymbol
  simp only [if_pos hp, if_neg (Nat.not_le_of_lt hroom), memWriteObuf_ok hroom, orFault_ok, setWidth_ushiftRight]
  rfl

end

/-- Settles O21: the three classes, and for a symbol the octet completed with and without room, or not completed. -/
theorem scanStep : Obligations.ScanStep := by
  intro s c hphase hi hpend hread
  have hidx : (advanced s).scratch.iidx.toNat = s.scratch.iidx.toNat + 1 := toNat_succ_of_lt hi s.len.isLt
  have hnext := scanNextPhase_advanced hi
  rw [phaseStep_decScan hphase]
  cases hc : inv c with
  | invalid =>
    exact ⟨_, decScan_of_invalid hi hread hc, fun _ => ⟨rfl, rfl, rfl⟩, nofun, nofun, fun hne => absurd rfl hne⟩
  | padding =>
    exact ⟨_, decScan_of_padding hi hread hc, nofun, fun _ => ⟨rfl, rfl, rfl, rfl⟩, nofun, fun _ => ⟨hidx, hnext⟩⟩
  | symbol v =>
    rw [decScan_of_symbol hi hread hc]
    by_cases hp : 8 ≤ s.scratch.pend.toNat + 5
    · by_cases hfull : s.cap.toNat ≤ s.scratch.ocnt.toNat
      · refine ⟨_, decSymbol_of_full (s := advanced s) v _ hp hfull, nofun, nofun, ?_, fun hne => absurd rfl hne⟩
        rintro _ a p ⟨⟩ ha rfl
        exact ⟨fun hlt => absurd hp (Nat.not_le_of_lt hlt), fun _ _ => ⟨rfl, rfl, rfl⟩,
          fun _ hroom => absurd hfull (Nat.not_le_of_lt hroom)⟩
      · have hroom := Nat.lt_of_not_le hfull
        refine ⟨_, decSymbol_of_room (s := advanced s) v _ hp hroom, nofun, nofun, ?_, fun _ => ⟨hidx, hnext⟩⟩
        rintro _ a p ⟨⟩ ha rfl
        rw [← shiftIn_toNat] at ha
        subst ha
        exact ⟨fun hlt => absurd hp (Nat.not_le_of_lt hlt), fun _ hle => absurd hle hfull,
          fun _ _ => ⟨lowBits_toNat _ (by omega), setAcc_pend_toNat _ _ _ (by omega),
            withOutput_ocnt (s := advanced s) hroom, rfl⟩⟩
    · have hlt := Nat.lt_of_not_le hp
      refine ⟨_, decSymbol_of_lt (s := advanced s) v _ hlt, nofun, nofun, ?_, fun _ => ⟨hidx, hnext⟩⟩
      rintro _ a p ⟨⟩ ha rfl
      rw [← shiftIn_toNat] at ha
      exact ⟨fun _ => ⟨ha.symm, setAcc_pend_toNat _ _ _ (hlt.trans (by norm_num)), rfl, rfl⟩, fun hle => absurd hle hp,
        fun hle => absurd hle hp⟩

end Sys2Proof.Machine

namespace Sys2Proof.Machine

/-! ## The normalised key (rules R201 and R202) -/

theorem normKey_of_long (hash : List Byte → Digest) {key : List Byte} (h : 64 < key.length) :
    normKey hash key = (hash key).toList ++ List.replicate 44 0x00#8 :=
  if_pos h

theorem normKey_of_short (hash : List Byte → Digest) {key : List Byte} (h : key.length ≤ 64) :
    normKey hash key = key ++ List.replicate (64 - key.length) 0x00#8 :=
  if_neg (Nat.not_lt_of_le h)

/-- One zero padding to 64 bytes serves both key lengths: the hash of a long key has 20 bytes, so 44 are missing. -/
theorem normKey_eq_zeroPadded (hash : List Byte → Digest) (key : List Byte) {k : List Byte}
    (hk : k = if key.length > 64 then (hash key).toList else key) :
    normKey hash key = k ++ List.replicate (64 - k.length) 0x00#8 := by
  by_cases hlong : key.length > 64
  · rw [if_pos hlong] at hk
    rw [hk, normKey_of_long hash hlong, Vector.length_toList]
  · rw [if_neg hlong] at hk
    rw [hk, normKey_of_short hash (Nat.le_of_not_lt hlong)]

/-- Settles O23: the command leaves `hmac` in `DIG`, and `hmac`'s key block is the zero-padded `k`. -/
theorem hmacComputes : Obligations.HmacComputes := by
  intro s key msg k hs hk
  refine ⟨_, exec_hmac_of_ready hs, ?_, hmacEffect_result .., hmacEffect_err .., hmacEffect_phase ..⟩
  rw [hmacEffect_dig, ← normKey_eq_zeroPadded Config.hash key hk]
  rfl

/-! ## Phase `HM_NORM` (rule R202) -/

theorem keyBlock_toList (key : List Byte) : (keyBlock key).toList = normKey Config.hash key :=
  normBlock_toList Config.hash key

/-- `HM_NORM` leaves the key block of the key in `KBLK`. -/
theorem phaseStep_hmNorm_of_key {s : State} {key : List Byte} (hp : s.phase = .hmNorm)
    (hkey : memReadAll s .kbuf = .ok key) :
    phaseStep s = .next { s with phase := .hmPads, scratch := { s.scratch with kblk := keyBlock key } } := by
  have hlen : s.keyLen.toNat = key.length := ((memReadAll_eq_ok_iff s .kbuf key).1 hkey).1
  rw [phaseStep_hmNorm hp]
  unfold hmNorm
  rw [hkey, orFault_ok, hlen]
  rfl

/-- Settles O24: `KBLK` is the normalised key, whose two cases are those of the strict bound at 64 bytes. -/
theorem keyNormalised : Obligations.KeyNormalised := by
  intro s key hp hlen hholds
  have hkey : memReadAll s .kbuf = .ok key := (memReadAll_eq_ok_iff s .kbuf key).2 ⟨hlen, hholds⟩
  refine ⟨_, phaseStep_hmNorm_of_key hp hkey, rfl, fun hshort => ?_, fun hlong => ?_⟩
  · exact (keyBlock_toList key).trans (normKey_of_short Config.hash hshort)
  · exact (keyBlock_toList key).trans (normKey_of_long Config.hash hlong)

end Sys2Proof.Machine

namespace Sys2Proof.Machine

/-! ## The bytes of a word in big-endian order (rules R65, R98 and R236) -/

/-- Four bytes set side by side: no two of them have a bit in common, so that `|` is `+`. -/
theorem or_bytes_eq_add (a : Nat) {b c d : Nat} (hb : b < 2 ^ 8) (hc : c < 2 ^ 8) (hd : d < 2 ^ 8) :
    (a <<< 24) ||| (b <<< 16) ||| (c <<< 8) ||| d = a * 2 ^ 24 + b * 2 ^ 16 + c * 2 ^ 8 + d := by
  have hab : (a <<< 24) ||| (b <<< 16) = (a <<< 8 + b) <<< 16 := by
    rw [Nat.shiftLeft_add_eq_or_of_lt hb, Nat.shiftLeft_or_distrib, ← Nat.shiftLeft_add]
  have habc : ((a <<< 8 + b) <<< 16) ||| (c <<< 8) = ((a <<< 8 + b) <<< 8 + c) <<< 8 := by
    rw [Nat.shiftLeft_add_eq_or_of_lt hc, Nat.shiftLeft_or_distrib, ← Nat.shiftLeft_add]
  rw [hab, habc, ← Nat.shiftLeft_add_eq_or_of_lt hd]
  simp only [Nat.shiftLeft_eq]
  ring

/-- A byte read from the list of a vector's bytes is the vector's byte. -/
theorem toList_getD {n : Nat} (v : Vector Byte n) {i : Nat} (h : i < n) : v.toList.getD i 0#8 = v[i] := by
  rw [List.getD_eq_getElem _ _ (by rwa [Vector.length_toList]), Vector.getElem_toList]

/-- Byte `i` of a counter (rule R98). -/
theorem be8_getElem_toNat (c : DWord) {i : Nat} (h : i < 8) :
    (be8 c)[i].toNat = c.toNat / 2 ^ (56 - 8 * i) % 256 := by
  simp [be8, BitVec.extractLsb'_toNat, Nat.shiftRight_eq_div_pow]

/-- The first `i` bytes of a counter are its high bits. -/
theorem beValue_be8_take (c : DWord) {i : Nat} (h : i ≤ 8) :
    beValue ((be8 c).toList.take i) = c.toNat / 2 ^ (64 - 8 * i) := by
  induction i with
  | zero => exact (Nat.div_eq_of_lt c.isLt).symm
  | succ i ih =>
    have hi : i < (be8 c).toList.length := by rw [Vector.length_toList]; omega
    have hsplit : c.toNat / 2 ^ (64 - 8 * i) = c.toNat / 2 ^ (56 - 8 * i) / 256 := by
      rw [Nat.div_div_eq_div_mul, show (256 : Nat) = 2 ^ 8 by norm_num, ← pow_add]
      congr 2
      omega
    rw [← List.take_concat_get' _ i hi, beValue_snoc, ih (by omega), Vector.getElem_toList,
      be8_getElem_toNat c (by omega), hsplit, show 64 - 8 * (i + 1) = 56 - 8 * i by omega]
    omega

/-- The eight bytes of a counter are the counter. -/
theorem beValue_be8 (c : DWord) : beValue (be8 c).toList = c.toNat := by
  have h := beValue_be8_take c (Nat.le_refl 8)
  rwa [List.take_of_length_le (by rw [Vector.length_toList]), Nat.mul_comm, Nat.sub_self, pow_zero, Nat.div_one] at h

theorem be8_injective : Function.Injective be8 := by
  intro c c' h
  apply BitVec.eq_of_toNat_eq
  rw [← beValue_be8 c, h, beValue_be8]

/-! ## Phase `TO_CTR` -/

theorem toCtr_of_ne_zero {s : State} (h : s.tStep ≠ 0#64) :
    toCtr s = .next
      { s with phase := .hmNorm, scratch := { s.scratch with ctr := be8 (s.time / s.tStep), hsel := 1#1 } } :=
  if_neg h

/-- Settles O30: the counter is the quotient, byte by byte and as a number. -/
theorem counterSerialised : Obligations.CounterSerialised := by
  intro s hp hz
  refine ⟨_, (phaseStep_toCtr hp).trans (toCtr_of_ne_zero hz), rfl, rfl, fun i hi => ?_, ?_⟩
  · rw [toList_getD _ hi, be8_getElem_toNat _ hi, BitVec.toNat_udiv]
  · rw [beValue_be8, BitVec.toNat_udiv]

/-! ## The extractor -/

theorem truncOffset_eq (d : Digest) : truncOffset d = (d.toList.getD 19 0#8).toNat % 16 := by
  rw [toList_getD d (by norm_num)]
  exact Nat.and_two_pow_sub_one_eq_mod d[19].toNat 4

/-- The truncated value as a number: bit 31, the top bit of the first byte, cleared. -/
theorem truncValue_eq (d : Digest) {off : Nat} (hoff : off = truncOffset d) :
    truncValue d = (d.toList.getD off 0#8).toNat % 128 * 2 ^ 24 + (d.toList.getD (off + 1) 0#8).toNat * 2 ^ 16
      + (d.toList.getD (off + 2) 0#8).toNat * 2 ^ 8 + (d.toList.getD (off + 3) 0#8).toNat := by
  subst hoff
  have hle := truncOffset_le d
  unfold truncValue
  rw [or_bytes_eq_add _ (BitVec.isLt _) (BitVec.isLt _) (BitVec.isLt _), toList_getD d (by omega),
    toList_getD d (by omega), toList_getD d (by omega), toList_getD d (by omega),
    show (0x7F : Nat) = 2 ^ 7 - 1 by norm_num, Nat.and_two_pow_sub_one_eq_mod]

/-- The field is the big-endian number of its four bytes. -/
theorem truncField_toNat (d : Digest) (off : BitVec 4) :
    (truncField d off).toNat =
      (d.toList.getD off.toNat 0#8).toNat * 2 ^ 24 + (d.toList.getD (off.toNat + 1) 0#8).toNat * 2 ^ 16
        + (d.toList.getD (off.toNat + 2) 0#8).toNat * 2 ^ 8 + (d.toList.getD (off.toNat + 3) 0#8).toNat := by
  have hlt := off.isLt
  unfold truncField
  rw [BitVec.toNat_or, BitVec.toNat_or, BitVec.toNat_or, shiftedByte_toNat _ (by norm_num),
    shiftedByte_toNat _ (by norm_num), shiftedByte_toNat _ (by norm_num),
    BitVec.toNat_setWidth_of_le (by norm_num),
    or_bytes_eq_add _ (BitVec.isLt _) (BitVec.isLt _) (BitVec.isLt _), toList_getD d (by omega),
    toList_getD d (by omega), toList_getD d (by omega), toList_getD d (by omega)]

/-- The mask keeps bits 0 to 30. -/
theorem truncMask_getLsbD (p : Word) {j : Nat} (h : j < 31) : (truncMask p).getLsbD j = p.getLsbD j := by
  rw [← BitVec.testBit_toNat, truncMask_toNat, Nat.testBit_mod_two_pow, decide_eq_true h, Bool.true_and,
    BitVec.testBit_toNat]

/-- Settles O31: the low nibble, the four bytes, and the bits kept. -/
theorem extractorFields : Obligations.ExtractorFields := fun d =>
  ⟨(offsetField_toNat d).trans (truncOffset_eq d), truncField_toNat d, fun p _ => truncMask_getLsbD p⟩

end Sys2Proof.Machine

namespace Sys2Proof.Machine

/-! ## What a ready `TOTP` answers -/

theorem exec_totp_of_legal {s : State} {key : List Byte} (h : TotpReady s key) (hd : s.digits.toNat ≤ 8) :
    exec .totp s
      = .next (succeed (BitVec.ofNat 32 (code Config.hash key s.time.toNat s.tStep.toNat s.digits.toNat)) s) := by
  rw [exec_totp_of_ready h]
  exact congrArg _ (if_neg (Nat.not_lt_of_le hd))

theorem exec_totp_of_illegal {s : State} {key : List Byte} (h : TotpReady s key) (hd : 8 < s.digits.toNat) :
    exec .totp s = .next (raise .invalidDigitCount s) := by
  rw [exec_totp_of_ready h]
  exact congrArg _ (if_pos hd)

/-- A code with a legal digit count fits `RESULT`. -/
theorem code_toNat (hash : List Byte → Digest) (key : List Byte) (t s : Nat) {g : Nat} (hg : g ≤ 8) :
    (BitVec.ofNat 32 (code hash key t s g)).toNat = code hash key t s g := by
  have hcode := code_lt hash key t s g
  have hpow : 10 ^ g ≤ 10 ^ 8 := Nat.pow_le_pow_right (by norm_num) hg
  exact Nat.mod_eq_of_lt (by omega)

/-- A code depends on the time through its quotient by the step only. -/
theorem code_congr (hash : List Byte → Digest) (key : List Byte) {t t' s : Nat} (g : Nat) (h : t' / s = t / s) :
    code hash key t' s g = code hash key t s g := by
  unfold code counterBytes
  rw [h]

/-- Settles O25: the code of the digest, with its shifts and masks as arithmetic. -/
theorem totpComputes : Obligations.TotpComputes := by
  intro s key d off hs hd hdigest hoff
  refine ⟨_, exec_totp_of_legal hs hd, ?_, succeed_err .., succeed_phase ..⟩
  subst hdigest
  rw [← truncOffset_eq] at hoff
  rw [succeed_result, code_toNat _ _ _ _ hd, ← truncValue_eq _ hoff, be8_udiv_toList]
  rfl

/-- Settles O26: a negative `DIGITS` is above 8 as an unsigned number. -/
theorem totpRejectsDigitCount : Obligations.TotpRejectsDigitCount := by
  intro s key hs hd
  have hbig : 8 < s.digits.toNat := by
    rcases hd with hd | hneg
    · exact hd
    · rw [BitVec.toInt_neg_iff] at hneg
      omega
  exact ⟨_, exec_totp_of_illegal hs hbig, raise_result .., raise_err .., raise_phase ..⟩

/-- One second before a multiple of the step the quotient is smaller. -/
theorem div_ne_of_succ_eq_mul {m s t t' : Nat} (hs : 0 < s) (ht : t = m * s) (ht' : t' + 1 = t) : t' / s ≠ t / s := by
  have hlt : t' / s < m := Nat.div_lt_of_lt_mul (by rw [Nat.mul_comm]; omega)
  rw [ht, Nat.mul_div_cancel _ hs]
  exact hlt.ne

/-- Settles O27: the code sees the quotient only, and the counter bytes determine it. -/
theorem totpWindowLaw : Obligations.TotpWindowLaw := by
  refine ⟨fun s key time' hs hquot => ?_, fun m tStep time time' _ hz ht ht' hbytes => ?_⟩
  · have hs' : TotpReady { s with time := time' } key := hs
    by_cases hd : s.digits.toNat ≤ 8
    · refine ⟨_, _, exec_totp_of_legal hs hd, exec_totp_of_legal hs' hd, ?_, ?_⟩
      · rw [succeed_result, succeed_result, code_congr _ _ _ hquot]
      · rw [succeed_err, succeed_err]
    · have hbig : 8 < s.digits.toNat := Nat.lt_of_not_le hd
      exact ⟨_, _, exec_totp_of_illegal hs hbig, exec_totp_of_illegal hs' hbig, rfl, rfl⟩
  · have hpos : 0 < tStep.toNat := Nat.pos_of_ne_zero fun h => hz (BitVec.eq_of_toNat_eq h)
    have hquot := congrArg BitVec.toNat (be8_injective hbytes)
    rw [BitVec.toNat_udiv, BitVec.toNat_udiv] at hquot
    exact div_ne_of_succ_eq_mul hpos ht ht' hquot

/-- A `TOTP` that leaves no error had a legal digit count. -/
theorem digits_le_of_exec_totp {s t : State} (h : exec .totp s = .next t) (herr : t.err = 0#3) :
    s.digits.toNat ≤ 8 := by
  obtain ⟨key, -, rfl⟩ := exec_totp_next h
  obtain ⟨-, ht⟩ | ⟨hd, -⟩ := totpEffect_cases Config.hash key s
  · rw [ht] at herr
    exact absurd herr (raise_err_ne_zero _ _)
  · exact hd

/-- Settles O28: at most eight digits, and the values of `RESULT` on success. -/
theorem codeRange : Obligations.CodeRange := by
  intro s t h herr
  obtain ⟨-, hbit, hrange⟩ := resultValues .totp s t h
  have hle : t.result.toNat ≤ 10 ^ s.digits.toNat - 1 := hrange herr
  have hpow : 10 ^ s.digits.toNat ≤ 10 ^ 8 := Nat.pow_le_pow_right (by norm_num) (digits_le_of_exec_totp h herr)
  have hmax : t.result.toNat ≤ 99999999 := by omega
  refine ⟨hle, hmax, by omega, result_ne_sentinel_of_lt (by omega), ?_⟩
  exact Bool.eq_false_iff.2 fun hset => hbit.1 hset herr

/-- Settles O29: every number is 0 modulo `10^0`. -/
theorem zeroDigitsGiveZero : Obligations.ZeroDigitsGiveZero := by
  intro s key hs hzero
  refine ⟨_, exec_totp_of_legal hs (by rw [hzero]; decide), ?_, succeed_err ..⟩
  have hcode : code Config.hash key s.time.toNat s.tStep.toNat s.digits.toNat = 0 := by
    rw [hzero]
    exact Nat.mod_one _
  rw [succeed_result, hcode]

/-! ## The zero time step (rule R232) -/

theorem not_ready_totp_of_zero {s : State} (h : s.tStep = 0#64) : ¬ Ready .totp s :=
  fun ⟨_, _, _, hz, _⟩ => hz h

/-- The zero step is the reason given where neither an operand register nor `KEYLEN` is one. -/
theorem startRefusal_totp_of_zero (E : Env) {s : State} (hp : s.phase = .idle) (hz : s.tStep = 0#64)
    (hgiven : OperandsGiven .totp s) (hlen : s.keyLen.toNat ≤ Config.lenMax) :
    startRefusal E .totp s = some .zeroTimeStep := by
  have hungiven : firstUngiven s (operandRegs .totp) = none := (firstUngiven_eq_none_iff ..).2 hgiven
  have hlong : firstTooLong s (lengthRegs .totp) = none :=
    (firstTooLong_eq_none_iff ..).2 (List.forall_mem_singleton.2 hlen)
  have hstep : zeroStep .totp s = some .zeroTimeStep := if_pos hz
  unfold startRefusal
  rw [if_neg (not_not.2 hp), hungiven, hlong, hstep]
  rfl

/-- Settles O43: a command that is not ready is refused, and the zero step is looked at before the secret's bytes. -/
theorem zeroStepRefused : Obligations.ZeroStepRefused := fun _ hp hz =>
  ⟨exec_not_ready (not_ready_totp_of_zero hz),
    fun hgiven hlen => started_refused (startRefusal_totp_of_zero Config.env hp hz hgiven hlen) _⟩

end Sys2Proof.Machine

namespace Sys2Proof.Machine

/-! ## The command `GENSEC` (`44_generate_secret.md` rules R270, R274, R275 and R276) -/

/-- 20 bytes are four full groups. -/
theorem secretText_length (r : Vector Byte 20) : (enc r.toList).length = 32 := by
  rw [enc_length, Vector.length_toList]
  rfl

/-- Without padding every character of an encoding is a symbol. -/
theorem mem_enc_alpha {b : List Byte} {c : Byte} (h : textLength b.length = symbolCount b.length) (hc : c ∈ enc b) :
    ∃ v, c = alpha v := by
  rw [enc_eq, h, Nat.sub_self, List.replicate_zero, List.append_nil] at hc
  obtain ⟨v, -, hv⟩ := List.mem_map.1 hc
  exact ⟨v, hv.symm⟩

/-- Settles O33: 160 bits are 32 whole quintets, so no group is left to fill. -/
theorem secretTextForm : Obligations.SecretTextForm := fun r =>
  ⟨secretText_length r, fun _ => mem_enc_alpha (by rw [Vector.length_toList]; rfl)⟩

/-- What a successful `GENSEC` leaves. -/
theorem encodeSucceeds_secret (r : Vector Byte 20) (s : State) :
    (encodeSucceeds r.toList s).result = 32#32 ∧ (encodeSucceeds r.toList s).err = 0#3
      ∧ HoldsFrom (encodeSucceeds r.toList s).obuf 0 (enc r.toList ++ [0x00#8]) :=
  ⟨by rw [encodeSucceeds_result, secretText_length], rfl, holdsFrom_writeFrom _ _ _⟩

/-- Settles O32: the draw is looked at first, and the capacity only after its success. -/
theorem secretGenerated : Obligations.SecretGenerated := by
  intro s hs
  obtain ⟨hd, ht⟩ | ⟨r, hd, hcap, ht⟩ | ⟨r, hd, hcap, ht⟩ :=
    secretEffect_cases (Config.rand s.draws) (countDraw s) <;>
    refine ⟨_, ht ▸ exec_gensec_of_ready hs, rfl, rfl, ?_⟩ <;> rw [hd]
  · exact ⟨rfl, rfl⟩
  · rw [countDraw_cap] at hcap
    simp only [if_pos hcap]
    exact ⟨rfl, rfl⟩
  · rw [countDraw_cap] at hcap
    simp only [if_neg (Nat.not_lt.2 hcap)]
    exact encodeSucceeds_secret r (countDraw s)

/-- The first part of what a buffer holds is held there. -/
theorem HoldsFrom.left {m : Memory} {i : Nat} {x y : List Byte} (h : HoldsFrom m i (x ++ y)) : HoldsFrom m i x := by
  intro k hk
  have hread := h k (by rw [List.length_append]; omega)
  rwa [List.getElem?_append_left hk] at hread

/-- `B32DEC` of an encoding, with room for the bytes encoded, gives them back (rule R179). -/
theorem exec_b32dec_of_enc {u : State} {b : List Byte} (h : InputReady u (enc b)) (hroom : b.length ≤ u.cap.toNat) :
    ∃ w, exec .b32dec u = .next w ∧ w.result.toNat = b.length ∧ w.err = 0#3 ∧ HoldsFrom w.obuf 0 b := by
  have hfits : decodeEffect (enc b) u = decodedState (enc b) u :=
    decodeEffect_of_fits (fun _ => inv_enc_ne_invalid b) (by rwa [dec_enc])
  have hexec := exec_b32dec_of_input h
  obtain ⟨-, -, -, hmax, -⟩ := h
  have hdecoded := decodedState_spec u hmax
  rw [dec_enc] at hdecoded
  exact ⟨_, hfits ▸ hexec, hdecoded⟩

theorem secretEffect_of_room (r : Vector Byte 20) {s : State} (h : 33 ≤ s.cap.toNat) :
    secretEffect (some r) s = encodeSucceeds r.toList s :=
  if_neg (Nat.not_lt.2 h)

/-- Settles O34: the text read back from `OBUF` is the encoding of the draw. -/
theorem secretRoundTrip : Obligations.SecretRoundTrip := by
  intro E s r hE hdraw hs hcap
  have hrun : gensecWith E s = .next (encodeSucceeds r.toList (countDraw s)) := by
    rw [gensecWith_of_ready hE hs, hdraw, secretEffect_of_room r (s := countDraw s) hcap]
  refine ⟨_, hrun, fun u hphase hlenGiven hcapGiven hlen hread hfilled hroom hmax => ?_⟩
  have htext := secretText_length r
  obtain ⟨-, -, hobuf⟩ := encodeSucceeds_secret r (countDraw s)
  have hholds : HoldsFrom u.ibuf 0 (enc r.toList) := fun k hk => by
    rw [← hobuf.left k hk, Nat.zero_add, hread k (htext ▸ hk)]
  have hready : InputReady u (enc r.toList) :=
    ⟨hphase, by rw [hlen, htext]; rfl, hholds, by rw [htext]; decide, hmax, hlenGiven, hcapGiven, htext ▸ hfilled⟩
  have hlength : r.toList.length = 20 := Vector.length_toList
  obtain ⟨w, hexec, hresult, hw⟩ := exec_b32dec_of_enc hready (by rwa [hlength])
  exact ⟨w, hexec, BitVec.eq_of_toNat_eq (hresult.trans hlength), hw⟩

end Sys2Proof.Machine

namespace Sys2Proof.Machine

/-! ## Completion and refusal (`60_exceptions.md` rules R295, R296, R300 and R303) -/

/-- Settles O42: `raise` completes like every command, and spoils `OBUF` below `CAP` only. -/
theorem failureCompletion : Obligations.FailureCompletion := fun v s =>
  ⟨rfl, by cases v <;> rfl, rfl, rfl, keepsOperands_raise v s, raise_sameFrom v s, rfl⟩

@[simp] theorem encodeEffect_phase (b : List Byte) (s : State) : (encodeEffect b s).phase = .idle := by
  obtain ⟨-, h⟩ | ⟨-, h⟩ := encodeEffect_cases b s <;> rw [h] <;> rfl

@[simp] theorem totpEffect_phase (hash : List Byte → Digest) (key : List Byte) (s : State) :
    (totpEffect hash key s).phase = .idle := by
  obtain ⟨-, h⟩ | ⟨-, h⟩ := totpEffect_cases hash key s <;> rw [h] <;> rfl

@[simp] theorem secretEffect_phase (d : Draw) (s : State) : (secretEffect d s).phase = .idle := by
  obtain ⟨-, h⟩ | ⟨_, -, -, h⟩ | ⟨_, -, -, h⟩ := secretEffect_cases d s <;> rw [h] <;> rfl

theorem exec_completes {i : Instr} {s : State} (h : Ready i s) : ∃ t, exec i s = .next t ∧ t.phase = .idle := by
  cases i with
  | b32enc =>
    obtain ⟨b, hb⟩ := h.input
    exact ⟨_, exec_b32enc_of_input hb, encodeEffect_phase b s⟩
  | b32dec =>
    obtain ⟨text, htext⟩ := Ready.input (s := s) h
    exact ⟨_, exec_b32dec_of_input htext, decodeEffect_phase text s⟩
  | totp =>
    obtain ⟨key, hkey⟩ := h.totp
    exact ⟨_, exec_totp_of_ready hkey, totpEffect_phase _ key s⟩
  | hmac =>
    obtain ⟨key, msg, hready⟩ := h.hmac
    exact ⟨_, exec_hmac_of_ready hready, hmacEffect_phase _ key msg s⟩
  | gensec => exact ⟨_, exec_gensec_of_ready ((secretReady_iff s).2 h), secretEffect_phase _ _⟩

/-- Settles O35: a ready command has its effect, which ends in a completion; any other is refused at its start. -/
theorem completesExactlyWhenReady : Obligations.CompletesExactlyWhenReady := fun _ _ =>
  ⟨exec_completes, exec_not_ready⟩

/-! ### Starts without a meaning -/

/-- What a ready command asks of the items it reads, in terms of the lists of those items (rule R92). -/
theorem Ready.reads {i : Instr} {s : State} (h : Ready i s) :
    (∀ r ∈ operandRegs i, isGiven s r = true) ∧ (∀ r ∈ lengthRegs i, lengthValue s r ≤ Config.lenMax)
      ∧ ∀ b ∈ inputBuffers i, Filled s b := by
  have hstart := (startRefusal_eq_none_iff env_binding i s).2 h
  unfold startRefusal at hstart
  simp only [if_neg (not_not.2 h.1), Option.or_eq_none_iff, firstUngiven_eq_none_iff, firstTooLong_eq_none_iff,
    firstUnwritten_eq_none_iff] at hstart
  obtain ⟨hgiven, ⟨hlength, -⟩, hfilled, -⟩ := hstart
  exact ⟨hgiven, hlength, hfilled⟩

theorem exec_busy (i : Instr) {s : State} (h : s.phase ≠ .idle) : exec i s = .refused .commandInProgress := by
  have hbusy (k : Answer) : started Config.env i s k = .refused .commandInProgress :=
    started_refused (startRefusal_busy Config.env i h) k
  cases i <;> exact hbusy _

section
variable {i : Instr} {s : State}

theorem exec_refused_of_ungiven {r : RegName} (hr : r ∈ operandRegs i) (h : isGiven s r = false) :
    ∃ e, exec i s = .refused e :=
  exec_not_ready fun hready => by
    obtain ⟨hgiven, -, -⟩ := hready.reads
    exact Bool.false_ne_true (h.symm.trans (hgiven r hr))

theorem exec_refused_of_tooLong {r : LengthReg} (hr : r ∈ lengthRegs i) (h : Config.lenMax < lengthValue s r) :
    ∃ e, exec i s = .refused e :=
  exec_not_ready fun hready => by
    obtain ⟨-, hlength, -⟩ := hready.reads
    exact Nat.not_lt.2 (hlength r hr) h

theorem exec_refused_of_not_filled {b : BufferId} (hb : b ∈ inputBuffers i) (h : ¬ Filled s b) :
    ∃ e, exec i s = .refused e :=
  exec_not_ready fun hready => by
    obtain ⟨-, -, hfilled⟩ := hready.reads
    exact h (hfilled b hb)

theorem not_filled_of_unread {b : BufferId} {a : Nat} (ha : a < bufferSize s b)
    (h : Memory.read (buffer s b) a = none) : ¬ Filled s b := by
  rintro ⟨-, hwritten⟩
  simpa [h] using hwritten a ha

theorem not_filled_ibuf (h : s.given.ibuf < s.len.toNat) : ¬ Filled s .ibuf := fun ⟨hfilled, _⟩ =>
  Nat.not_le_of_lt h ((filledSinceReset_ibuf s).1 hfilled)

theorem not_filled_kbuf (h : s.given.kbuf < s.keyLen.toNat) : ¬ Filled s .kbuf := fun ⟨hfilled, _⟩ =>
  Nat.not_le_of_lt h ((filledSinceReset_kbuf s).1 hfilled)

theorem reads_input (hi : i = .b32enc ∨ i = .b32dec ∨ i = .hmac) :
    .len ∈ operandRegs i ∧ .len ∈ lengthRegs i ∧ .ibuf ∈ inputBuffers i := by
  rcases hi with rfl | rfl | rfl <;> decide

theorem reads_cap (hi : i = .b32enc ∨ i = .b32dec ∨ i = .gensec) : .cap ∈ operandRegs i ∧ .cap ∈ lengthRegs i := by
  rcases hi with rfl | rfl | rfl <;> decide

theorem reads_key (hi : i = .hmac ∨ i = .totp) :
    .keyLen ∈ operandRegs i ∧ .keyLen ∈ lengthRegs i ∧ .kbuf ∈ inputBuffers i := by
  rcases hi with rfl | rfl <;> decide

end

/-- Settles O44: each situation contradicts what readiness asks of an item the command reads. -/
theorem meaninglessStartsRefused : Obligations.MeaninglessStartsRefused := by
  intro s
  refine ⟨fun hbusy i => exec_busy i hbusy, fun hlen i hi => ?_, fun hcap i hi => ?_, fun hkey i hi => ?_, ?_,
    fun hlen i hi => ?_, fun hcap i hi => ?_, fun hkey i hi => ?_, fun hfill i hi => ?_, fun hfill i hi => ?_,
    fun a ha hread i hi => ?_, fun a ha hread i hi => ?_⟩
  · obtain ⟨hreg, -, -⟩ := reads_input hi
    exact exec_refused_of_ungiven hreg hlen
  · obtain ⟨hreg, -⟩ := reads_cap hi
    exact exec_refused_of_ungiven hreg hcap
  · obtain ⟨hreg, -, -⟩ := reads_key hi
    exact exec_refused_of_ungiven hreg hkey
  · rintro (htime | hstep | hdigits)
    · exact exec_refused_of_ungiven (r := .time) (by decide) htime
    · exact exec_refused_of_ungiven (r := .tStep) (by decide) hstep
    · exact exec_refused_of_ungiven (r := .digits) (by decide) hdigits
  · obtain ⟨-, hlength, -⟩ := reads_input hi
    exact exec_refused_of_tooLong hlength hlen
  · obtain ⟨-, hlength⟩ := reads_cap hi
    exact exec_refused_of_tooLong hlength hcap
  · obtain ⟨-, hlength, -⟩ := reads_key hi
    exact exec_refused_of_tooLong hlength hkey
  · obtain ⟨-, -, hbuf⟩ := reads_input hi
    exact exec_refused_of_not_filled hbuf (not_filled_ibuf hfill)
  · obtain ⟨-, -, hbuf⟩ := reads_key hi
    exact exec_refused_of_not_filled hbuf (not_filled_kbuf hfill)
  · obtain ⟨-, -, hbuf⟩ := reads_input hi
    exact exec_refused_of_not_filled hbuf (not_filled_of_unread ha hread)
  · obtain ⟨-, -, hbuf⟩ := reads_key hi
    exact exec_refused_of_not_filled hbuf (not_filled_of_unread ha hread)

end Sys2Proof.Machine

namespace Sys2Proof.Machine

/-! ## The phase after each phase rule (`60_exceptions.md` rule R305) -/

theorem encCheck_phase {s t : State} (h : encCheck s = .next t) :
    t.phase = if requiredCap s.len.toNat > s.cap.toNat then .idle
      else if s.len.toNat > 0 then .encAbsorb else .encDrain := by
  unfold encCheck at h
  simp only at h
  by_cases hroom : requiredCap s.len.toNat > s.cap.toNat
  · rw [if_pos hroom] at h
    cases h
    exact (if_pos hroom).symm
  · rw [if_neg hroom] at h
    cases h
    exact (if_neg hroom).symm

/-- An octet was read, so `IIDX` counts without wrapping. -/
theorem encAbsorb_phase {s t : State} (h : encAbsorb s = .next t) :
    t.phase = if s.scratch.iidx.toNat + 1 < sourceLength s then .encAbsorb else .encDrain := by
  obtain ⟨o, hread, -⟩ := orFault_next h
  obtain ⟨o', ⟨-, rfl⟩ | ⟨bytes, -, -, -, rfl⟩⟩ := encAbsorb_next h
  · exact absorbPhase_advanced hread
  · exact absorbPhase_advanced hread

theorem encDrain_phase {s t : State} (h : encDrain s = .next t) :
    t.phase = if 5 ≤ s.scratch.pend.toNat then .encDrain else .encTail := by
  obtain ⟨c, hp, -, rfl⟩ | ⟨hp, rfl⟩ := encDrain_next h
  · exact (if_pos hp).symm
  · exact (if_neg (Nat.not_le_of_lt hp)).symm

theorem encTail_phase {s t : State} (h : encTail s = .next t) : t.phase = .encPad := by
  obtain ⟨c, -, -, rfl⟩ | ⟨-, rfl⟩ := encTail_next h <;> rfl

theorem encPad_phase {s t : State} (h : encPad s = .next t) :
    t.phase = if s.scratch.ocnt.toNat % 8 ≠ 0 then .encPad else .encTerm := by
  obtain ⟨hm, -, rfl⟩ | ⟨hm, rfl⟩ := encPad_next h
  · exact (if_pos hm).symm
  · exact (if_neg (not_not.2 hm)).symm

theorem decSymbol_phase {v : BitVec 5} {ph : Phase} {s t : State} (h : decSymbol v ph s = .next t) :
    t.phase = if 8 ≤ s.scratch.pend.toNat + 5 ∧ s.cap.toNat ≤ s.scratch.ocnt.toNat then .idle else ph := by
  by_cases hp : 8 ≤ s.scratch.pend.toNat + 5
  · by_cases hfull : s.cap.toNat ≤ s.scratch.ocnt.toNat
    · rw [decSymbol_of_full v ph hp hfull] at h
      cases h
      exact (if_pos ⟨hp, hfull⟩).symm
    · rw [decSymbol_of_room v ph hp (Nat.lt_of_not_le hfull)] at h
      cases h
      exact (if_neg fun hboth => hfull hboth.2).symm
  · rw [decSymbol_of_lt v ph (Nat.lt_of_not_le hp)] at h
    cases h
    exact (if_neg fun hboth => hp hboth.1).symm

theorem decScan_phase {s t : State} (h : decScan s = .next t) :
    t.phase = afterScan s ((Memory.read s.ibuf s.scratch.iidx.toNat).getD nul) := by
  obtain ⟨c, hi, hread, hclass⟩ := decScan_next h
  rw [hread, Option.getD_some]
  unfold afterScan
  rw [← scanNextPhase_advanced hi]
  obtain ⟨hc, rfl⟩ | ⟨hc, rfl⟩ | ⟨v, hc, hsym⟩ := hclass
  · rw [hc, raise_phase]
  · rw [hc]
  · rw [hc]
    exact decSymbol_phase (s := advanced s) hsym

theorem toCheck_phase {s t : State} (h : toCheck s = .next t) :
    t.phase = if s.digits.toNat > 8 then .idle else .toCtr := by
  obtain ⟨hd, rfl⟩ | ⟨hd, rfl⟩ := toCheck_next h
  · exact (if_pos hd).symm
  · exact (if_neg (Nat.not_lt.2 hd)).symm

theorem gsRand_of_none {E : Env} {s : State} (h : E.rand s.draws = none) :
    gsRand E s = .next (raise .randomSourceFailure (countDraw s)) := by
  unfold gsRand
  rw [h]

theorem gsRand_of_some {E : Env} {s : State} {r : Vector Byte 20} (h : E.rand s.draws = some r) :
    gsRand E s = .next (drawn r s) := by
  unfold gsRand
  rw [h]
  rfl

theorem gsRand_phase {s t : State} (hp : s.phase = .gsRand) (h : gsRand Config.env s = .next t) :
    t.phase = nextPhase s := by
  unfold nextPhase
  rw [hp]
  cases hdraw : Config.rand s.draws with
  | none =>
    rw [gsRand_of_none hdraw] at h
    cases h
    rfl
  | some r =>
    rw [gsRand_of_some hdraw] at h
    cases h
    rfl

theorem gsCheck_phase {s t : State} (h : gsCheck s = .next t) :
    t.phase = if s.cap.toNat < secretCap then .idle else .encAbsorb := by
  unfold gsCheck at h
  split_ifs at h with hroom <;> cases h
  · exact (if_pos hroom).symm
  · exact (if_neg hroom).symm

/-- Settles O51: phase by phase, the rule fired goes where the table's row says. -/
theorem phaseTransitions : Obligations.PhaseTransitions := by
  intro s t h
  rw [phaseStep_eq, phaseStepWith] at h
  cases hph : s.phase <;> rw [hph] at h
  case gsRand => exact gsRand_phase hph h
  all_goals
    unfold nextPhase
    rw [hph]
  case encCheck => exact encCheck_phase h
  case encAbsorb => exact encAbsorb_phase h
  case encDrain => exact encDrain_phase h
  case encTail => exact encTail_phase h
  case encPad => exact encPad_phase h
  case encTerm =>
    obtain ⟨-, rfl⟩ := encTerm_next h
    rfl
  case decScan => exact decScan_phase h
  case hmNorm =>
    obtain ⟨block, rfl⟩ := hmNorm_next h
    rfl
  case hmInner =>
    obtain ⟨d, rfl⟩ := hmInner_next h
    rfl
  case toCheck => exact toCheck_phase h
  case toCtr =>
    obtain rfl := toCtr_next h
    rfl
  case toTrunc =>
    obtain ⟨r, off, tv, rfl⟩ := toTrunc_next h
    rfl
  case gsCheck => exact gsCheck_phase h
  case idle =>
    cases h
    exact hph
  case decInit | decEnd | hmCmd | hmPads | hmOuter | hmDone =>
    cases h
    rfl

end Sys2Proof.Machine

namespace Sys2Proof.Machine

/-! ## Reset (`70_reset_and_hazards.md` rule R330, `10_state.md` rule R43) -/

/-- No byte is listed at reset, so the buffers are canonical and none counts as written. -/
theorem buffersInv_reset : BuffersInv State.reset :=
  ⟨List.Pairwise.nil, List.Pairwise.nil, List.Pairwise.nil, nofun, nofun⟩

/-- Settles O53: reset leaves `IDLE`, which promises nothing of its own. -/
theorem invariantAtReset : Obligations.InvariantAtReset :=
  inv_of_idle buffersInv_reset rfl

/-- Reset as the host's next action is taken in `IDLE` and during a command alike. -/
theorem step_reset {s : State} {rest : List HostAction} (h : s.host = .reset 0 :: rest) :
    step s = .next (assertReset { s with host := rest }) := by
  by_cases hp : s.phase = .idle
  · exact step_idle_action hp h
  · rw [step_running hp]
    unfold runningTurn
    rw [h]

theorem assertReset_obuf_of_idle {s : State} (hp : s.phase = .idle) : (assertReset s).obuf = s.obuf :=
  if_pos hp

theorem sameFrom_assertReset_obuf (s : State) : SameFrom s.cap.toNat s.obuf (assertReset s).obuf := by
  rw [assertReset_obuf]
  split_ifs
  · exact SameFrom.refl _ _
  · exact sameFrom_spoil _ _ _

/-- Only the outcome of an abandoned command counts as given after a reset (item U16). -/
theorem isGiven_assertReset (s : State) (r : RegName) :
    isGiven (assertReset s) r = true ↔ (r = .result ∨ r = .err) ∧ s.phase ≠ .idle := by
  cases r <;> simp [isGiven, Given.nothing]

/-- Settles O59: the step is `assertReset`, which spoils at most `OBUF` below `CAP` and forgets what was given. -/
theorem assertedReset : Obligations.AssertedReset :=
  fun s _ h => ⟨_, step_reset h, rfl, rfl, rfl, rfl, sameFrom_assertReset_obuf _, assertReset_obuf_of_idle, rfl, rfl,
    isGiven_assertReset { s with host := _ }⟩

end Sys2Proof.Machine
